-- ==== Sys2Proof/Word.lean ====
section
/-! DEFINITION. The two word widths of the core: a 32-bit bus or command word and a 256-bit value (00_scope.md R9, R12). -/

namespace Sys2Proof

/-- A 32-bit bus word or command word (R9). -/
abbrev Word := BitVec 32

/-- A 256-bit value, modulus or coordinate (R9, R21, R24). -/
abbrev W256 := BitVec 256

end Sys2Proof
end

