-- ==== Sys2Proof/Syntax.lean ====
section
/-! DEFINITION. The commands of the core: one constructor per row of spec/opcode_table.json, with its operand registers
in the order of the fields FA, FB, FC, FD, FE (30_encoding.md R92, R95). -/

namespace Sys2Proof

/-- The index of a value register V0 to V15 (R21, R93). -/
abbrev VIdx := Fin 16

/-- The index of a point register P0 to P7 (R24, R93). -/
abbrev PIdx := Fin 8

/-- A command (R95). A field whose role is `-` is not an argument. -/
inductive Instr where
  /-- FNEW vd, value, modulus (R122). -/
  | fnew (d val mod : VIdx)
  /-- FADD vd, vs1, vs2 (R123). -/
  | fadd (d a b : VIdx)
  /-- FSUB vd, vs1, vs2 (R124). -/
  | fsub (d a b : VIdx)
  /-- FMUL vd, vs1, vs2 (R125). -/
  | fmul (d a b : VIdx)
  /-- FPOW vd, base, exponent (R128). -/
  | fpow (d base exp : VIdx)
  /-- FINV vd, vs (R130). -/
  | finv (d a : VIdx)
  /-- FDIV vd, dividend, divisor (R131). -/
  | fdiv (d a b : VIdx)
  /-- FEQ vs1, vs2 (R132). -/
  | feq (a b : VIdx)
  /-- PINF pd, a, b (R162). -/
  | pinf (d : PIdx) (a b : VIdx)
  /-- PNEW pd, x, y, a, b (R163). -/
  | pnew (d : PIdx) (x y a b : VIdx)
  /-- PADD pd, ps1, ps2 (R166). -/
  | padd (d p q : PIdx)
  /-- PNEG pd, ps (R167). -/
  | pneg (d p : PIdx)
  /-- PEQ ps1, ps2 (R168). -/
  | peq (p q : PIdx)
  /-- PLDG pd (R169). -/
  | pldg (d : PIdx)
  /-- PMUL pd, ps, scalar (R192). -/
  | pmul (d p : PIdx) (k : VIdx)
  /-- SRED vd, vs (R193). -/
  | sred (d a : VIdx)
  /-- EKEY pd, secret (R211). -/
  | ekey (d : PIdx) (sec : VIdx)
  /-- ESIGN vr, vs, secret, digest (R212). -/
  | esign (r s sec z : VIdx)
  /-- EVERIFY public point, digest, r, s (R215). -/
  | everify (q : PIdx) (z r s : VIdx)
  deriving DecidableEq, Repr

end Sys2Proof
end

