-- ==== Sys2Proof/WellFormed.lean ====
section
/-! DEFINITION. Which commands are well formed. The register indexes are in range by their types, so the one check the
encoding adds is that ESIGN's two destinations differ (30_encoding.md R98). -/

namespace Sys2Proof

/-- A command that some legal command word encodes (R96(e), R98). -/
def Instr.wellFormed : Instr → Bool
  | .fnew _ _ _ => true
  | .fadd _ _ _ => true
  | .fsub _ _ _ => true
  | .fmul _ _ _ => true
  | .fpow _ _ _ => true
  | .finv _ _ => true
  | .fdiv _ _ _ => true
  | .feq _ _ => true
  | .pinf _ _ _ => true
  | .pnew _ _ _ _ _ => true
  | .padd _ _ _ => true
  | .pneg _ _ => true
  | .peq _ _ => true
  | .pldg _ => true
  | .pmul _ _ _ => true
  | .sred _ _ => true
  | .ekey _ _ => true
  | .esign r s _ _ => r != s
  | .everify _ _ _ _ => true

end Sys2Proof
end

