-- ==== Sys2Proof/Decode.lean ====
section
/-! DEFINITION. The decoder of a 32-bit command word, in the order of 30_encoding.md R100, and the encoder from the same
opcode map (R91, R92, R95). -/

namespace Sys2Proof

/-- The role of an operand field (R92). `vs` and `fs` are one kind of field to the decoder but not to the operand
checks (R103). -/
inductive Role where
  | vd | vs | fs | pd | ps | unused
  deriving DecidableEq, Repr

/-- The mnemonics of the opcode map (R95), without operands. -/
inductive Op where
  | fnew | fadd | fsub | fmul | fpow | finv | fdiv | feq
  | pinf | pnew | padd | pneg | peq | pldg
  | pmul | sred
  | ekey | esign | everify
  deriving DecidableEq, Repr

/-- Why a word is illegal, one name for each condition of R96; all of them complete with ILLEGAL_CMD. -/
inductive DecodeError where
  /-- R96(a): no row of the opcode map has this OPC. -/
  | unknownOpcode
  /-- R96(b): the RSV field is not 0. -/
  | reservedBits
  /-- R96(c): a field with role `-` is not 0. -/
  | unusedField
  /-- R96(d): bit 3 of a point field is 1. -/
  | pointIndex
  /-- R96(e): ESIGN with FA = FB. -/
  | sameDestinations
  deriving DecidableEq, Repr

/-- The five operand fields of a command word (R91). -/
structure Fields where
  fa : BitVec 4
  fb : BitVec 4
  fc : BitVec 4
  fd : BitVec 4
  fe : BitVec 4
  deriving DecidableEq, Repr

/-- The OPC of each row of the opcode map (R95). -/
def Op.opc : Op → BitVec 8
  | .fnew => 0x01#8
  | .fadd => 0x02#8
  | .fsub => 0x03#8
  | .fmul => 0x04#8
  | .fpow => 0x05#8
  | .finv => 0x06#8
  | .fdiv => 0x07#8
  | .feq => 0x08#8
  | .pinf => 0x10#8
  | .pnew => 0x11#8
  | .padd => 0x12#8
  | .pneg => 0x13#8
  | .peq => 0x14#8
  | .pldg => 0x15#8
  | .pmul => 0x18#8
  | .sred => 0x19#8
  | .ekey => 0x20#8
  | .esign => 0x21#8
  | .everify => 0x22#8

/-- Every row of the opcode map (R95), in its order. -/
def Op.all : List Op :=
  [.fnew, .fadd, .fsub, .fmul, .fpow, .finv, .fdiv, .feq, .pinf, .pnew, .padd, .pneg, .peq, .pldg, .pmul, .sred,
   .ekey, .esign, .everify]

/-- The row an OPC selects, if any (R95, R96(a)). -/
def opOf (opc : BitVec 8) : Option Op := Op.all.find? (fun o => o.opc == opc)

/-- The roles of FA, FB, FC, FD, FE (R95). -/
def Op.roles : Op → Role × Role × Role × Role × Role
  | .fnew => (.vd, .vs, .vs, .unused, .unused)
  | .fadd => (.vd, .fs, .fs, .unused, .unused)
  | .fsub => (.vd, .fs, .fs, .unused, .unused)
  | .fmul => (.vd, .fs, .fs, .unused, .unused)
  | .fpow => (.vd, .fs, .vs, .unused, .unused)
  | .finv => (.vd, .fs, .unused, .unused, .unused)
  | .fdiv => (.vd, .fs, .fs, .unused, .unused)
  | .feq => (.unused, .vs, .vs, .unused, .unused)
  | .pinf => (.pd, .fs, .fs, .unused, .unused)
  | .pnew => (.pd, .fs, .fs, .fs, .fs)
  | .padd => (.pd, .ps, .ps, .unused, .unused)
  | .pneg => (.pd, .ps, .unused, .unused, .unused)
  | .peq => (.unused, .ps, .ps, .unused, .unused)
  | .pldg => (.pd, .unused, .unused, .unused, .unused)
  | .pmul => (.pd, .ps, .vs, .unused, .unused)
  | .sred => (.vd, .vs, .unused, .unused, .unused)
  | .ekey => (.pd, .vs, .unused, .unused, .unused)
  | .esign => (.vd, .vd, .vs, .vs, .unused)
  | .everify => (.unused, .ps, .vs, .vs, .vs)

/-- The OPC field of a word (R91). -/
def opcBits (w : Word) : BitVec 8 := w.extractLsb' 0 8

/-- The RSV field of a word (R91). -/
def rsvBits (w : Word) : BitVec 4 := w.extractLsb' 28 4

/-- The operand fields of a word (R91). -/
def fieldsOf (w : Word) : Fields :=
  { fa := w.extractLsb' 8 4
    fb := w.extractLsb' 12 4
    fc := w.extractLsb' 16 4
    fd := w.extractLsb' 20 4
    fe := w.extractLsb' 24 4 }

/-- The check R100 makes of one field, if it fails. -/
def Role.fieldError (r : Role) (f : BitVec 4) : Option DecodeError :=
  match r with
  | .unused => if f = 0#4 then none else some .unusedField
  | .pd => if f.getLsbD 3 then some .pointIndex else none
  | .ps => if f.getLsbD 3 then some .pointIndex else none
  | .vd => none
  | .vs => none
  | .fs => none

/-- The first field check of R100 that fails, scanning FA to FE. -/
def Op.fieldsError (o : Op) (f : Fields) : Option DecodeError :=
  (o.roles.1.fieldError f.fa).or
    ((o.roles.2.1.fieldError f.fb).or
      ((o.roles.2.2.1.fieldError f.fc).or
        ((o.roles.2.2.2.1.fieldError f.fd).or
          (o.roles.2.2.2.2.fieldError f.fe))))

/-- A V field is the index of V[0] to V[15] (R93). -/
def vIdx (f : BitVec 4) : VIdx := Fin.ofNat 16 f.toNat

/-- A P field uses bits 2:0 as the index of P[0] to P[7] (R93). -/
def pIdx (f : BitVec 4) : PIdx := Fin.ofNat 8 f.toNat

/-- The command of a row whose field checks have passed (R95). -/
def Op.build (o : Op) (f : Fields) : Instr :=
  match o with
  | .fnew => .fnew (vIdx f.fa) (vIdx f.fb) (vIdx f.fc)
  | .fadd => .fadd (vIdx f.fa) (vIdx f.fb) (vIdx f.fc)
  | .fsub => .fsub (vIdx f.fa) (vIdx f.fb) (vIdx f.fc)
  | .fmul => .fmul (vIdx f.fa) (vIdx f.fb) (vIdx f.fc)
  | .fpow => .fpow (vIdx f.fa) (vIdx f.fb) (vIdx f.fc)
  | .finv => .finv (vIdx f.fa) (vIdx f.fb)
  | .fdiv => .fdiv (vIdx f.fa) (vIdx f.fb) (vIdx f.fc)
  | .feq => .feq (vIdx f.fb) (vIdx f.fc)
  | .pinf => .pinf (pIdx f.fa) (vIdx f.fb) (vIdx f.fc)
  | .pnew => .pnew (pIdx f.fa) (vIdx f.fb) (vIdx f.fc) (vIdx f.fd) (vIdx f.fe)
  | .padd => .padd (pIdx f.fa) (pIdx f.fb) (pIdx f.fc)
  | .pneg => .pneg (pIdx f.fa) (pIdx f.fb)
  | .peq => .peq (pIdx f.fb) (pIdx f.fc)
  | .pldg => .pldg (pIdx f.fa)
  | .pmul => .pmul (pIdx f.fa) (pIdx f.fb) (vIdx f.fc)
  | .sred => .sred (vIdx f.fa) (vIdx f.fb)
  | .ekey => .ekey (pIdx f.fa) (vIdx f.fb)
  | .esign => .esign (vIdx f.fa) (vIdx f.fb) (vIdx f.fc) (vIdx f.fd)
  | .everify => .everify (pIdx f.fb) (vIdx f.fc) (vIdx f.fd) (vIdx f.fe)

/-- The decoder (R100): total on every word, rejecting by name. -/
def decode (w : Word) : Except DecodeError Instr :=
  match opOf (opcBits w) with
  | none => .error .unknownOpcode
  | some o =>
    if rsvBits w ≠ 0#4 then .error .reservedBits
    else
      match o.fieldsError (fieldsOf w) with
      | some e => .error e
      | none =>
        if o = .esign ∧ (fieldsOf w).fa = (fieldsOf w).fb then .error .sameDestinations
        else .ok (o.build (fieldsOf w))

/-- Four bytes, the lowest address first, as one 32-bit word (R64: little-endian). -/
def wordOfBytes (b0 b1 b2 b3 : BitVec 8) : Word := b3 ++ b2 ++ b1 ++ b0

/-- The decoder on the bytes of a command word as they lie in the window; exactly one word is used (R101). -/
def decodeBytes : List (BitVec 8) → Option (Instr × List (BitVec 8))
  | b0 :: b1 :: b2 :: b3 :: rest =>
    match decode (wordOfBytes b0 b1 b2 b3) with
    | .ok i => some (i, rest)
    | .error _ => none
  | _ => none

/-- The opcode-map row of a command. -/
def Instr.op : Instr → Op
  | .fnew _ _ _ => .fnew
  | .fadd _ _ _ => .fadd
  | .fsub _ _ _ => .fsub
  | .fmul _ _ _ => .fmul
  | .fpow _ _ _ => .fpow
  | .finv _ _ => .finv
  | .fdiv _ _ _ => .fdiv
  | .feq _ _ => .feq
  | .pinf _ _ _ => .pinf
  | .pnew _ _ _ _ _ => .pnew
  | .padd _ _ _ => .padd
  | .pneg _ _ => .pneg
  | .peq _ _ => .peq
  | .pldg _ => .pldg
  | .pmul _ _ _ => .pmul
  | .sred _ _ => .sred
  | .ekey _ _ => .ekey
  | .esign _ _ _ _ => .esign
  | .everify _ _ _ _ => .everify

/-- A V index as a field (R93). -/
def vField (i : VIdx) : BitVec 4 := BitVec.ofNat 4 i.val

/-- A P index as a field: bit 3 is 0 (R93). -/
def pField (i : PIdx) : BitVec 4 := BitVec.ofNat 4 i.val

/-- The operand fields of a command; a field with role `-` is 0 (R92). -/
def Instr.fields : Instr → Fields
  | .fnew d v m => ⟨vField d, vField v, vField m, 0#4, 0#4⟩
  | .fadd d a b => ⟨vField d, vField a, vField b, 0#4, 0#4⟩
  | .fsub d a b => ⟨vField d, vField a, vField b, 0#4, 0#4⟩
  | .fmul d a b => ⟨vField d, vField a, vField b, 0#4, 0#4⟩
  | .fpow d a e => ⟨vField d, vField a, vField e, 0#4, 0#4⟩
  | .finv d a => ⟨vField d, vField a, 0#4, 0#4, 0#4⟩
  | .fdiv d a b => ⟨vField d, vField a, vField b, 0#4, 0#4⟩
  | .feq a b => ⟨0#4, vField a, vField b, 0#4, 0#4⟩
  | .pinf d a b => ⟨pField d, vField a, vField b, 0#4, 0#4⟩
  | .pnew d x y a b => ⟨pField d, vField x, vField y, vField a, vField b⟩
  | .padd d p q => ⟨pField d, pField p, pField q, 0#4, 0#4⟩
  | .pneg d p => ⟨pField d, pField p, 0#4, 0#4, 0#4⟩
  | .peq p q => ⟨0#4, pField p, pField q, 0#4, 0#4⟩
  | .pldg d => ⟨pField d, 0#4, 0#4, 0#4, 0#4⟩
  | .pmul d p k => ⟨pField d, pField p, vField k, 0#4, 0#4⟩
  | .sred d a => ⟨vField d, vField a, 0#4, 0#4, 0#4⟩
  | .ekey d s => ⟨pField d, vField s, 0#4, 0#4, 0#4⟩
  | .esign r s sec z => ⟨vField r, vField s, vField sec, vField z, 0#4⟩
  | .everify q z r s => ⟨0#4, pField q, vField z, vField r, vField s⟩

/-- A command word from its OPC and fields, RSV = 0 (R91). -/
def pack (opc : BitVec 8) (f : Fields) : Word :=
  0#4 ++ f.fe ++ f.fd ++ f.fc ++ f.fb ++ f.fa ++ opc

/-- The command word of a command (R91, R95). -/
def encode (i : Instr) : Word := pack i.op.opc i.fields

/-- The `mask` of each row of spec/opcode_table.json (R99). -/
def Op.mask : Op → Word
  | .fnew => 0xFFF000FF#32
  | .fadd => 0xFFF000FF#32
  | .fsub => 0xFFF000FF#32
  | .fmul => 0xFFF000FF#32
  | .fpow => 0xFFF000FF#32
  | .finv => 0xFFFF00FF#32
  | .fdiv => 0xFFF000FF#32
  | .feq => 0xFFF00FFF#32
  | .pinf => 0xFFF008FF#32
  | .pnew => 0xF00008FF#32
  | .padd => 0xFFF888FF#32
  | .pneg => 0xFFFF88FF#32
  | .peq => 0xFFF88FFF#32
  | .pldg => 0xFFFFF8FF#32
  | .pmul => 0xFFF088FF#32
  | .sred => 0xFFFF00FF#32
  | .ekey => 0xFFFF08FF#32
  | .esign => 0xFF0000FF#32
  | .everify => 0xF0008FFF#32

/-- The `match` of each row of spec/opcode_table.json: the OPC in bits 7:0 and 0 elsewhere (R99). -/
def Op.matchBits (o : Op) : Word := 0#24 ++ o.opc

/-- The part of a row's mask that one field gives, from its role (R99). -/
def Role.maskBits : Role → BitVec 4
  | .unused => 0xF#4
  | .pd => 0x8#4
  | .ps => 0x8#4
  | .vd => 0x0#4
  | .vs => 0x0#4
  | .fs => 0x0#4

/-- The mask of a row as R99 builds it from the roles. -/
def Op.maskOfRoles (o : Op) : Word :=
  0xF#4 ++ o.roles.2.2.2.2.maskBits ++ o.roles.2.2.2.1.maskBits ++ o.roles.2.2.1.maskBits ++ o.roles.2.1.maskBits
    ++ o.roles.1.maskBits ++ 0xFF#8

/-- The word of an opcode-table row given as a number: bit 0 is the least significant bit of the word, and the bits
from `nbits` up are 0 (R90: every command is exactly one 32-bit word, so no higher bit exists). -/
def tableWord (nbits w : Nat) : Word := BitVec.ofNat 32 (w % 2 ^ nbits)

/-- The bytes of a word as the hardware stores them, lowest address first (R64). -/
def bytesOfWord (w : Word) : List (BitVec 8) :=
  [w.extractLsb' 0 8, w.extractLsb' 8 8, w.extractLsb' 16 8, w.extractLsb' 24 8]

/-- The instruction the decoder reads from a word numbered as spec/opcode_table.json numbers its bits. -/
def decodeTableWord (nbits w : Nat) : Option Instr :=
  (decodeBytes (bytesOfWord (tableWord nbits w))).map Prod.fst

end Sys2Proof
end

