-- ==== Sys2Proof/Config.lean ====
section
/-! DEFINITION. What an implementation or platform fixes, and the free values the spec leaves open
(93_implementation_defined.md part 1). A free value has no body, so nothing can be proved of it but what every value has. -/

namespace Sys2Proof

/-- A read of a value- or point-window word while BUSY = 1 returns any 32-bit value (20_memory.md R72(b)); the n-th free
value taken. Log entry 5. -/
opaque Config.busyRead : Nat → Word

/-- What the nonce source's n-th draw is made from (43_ecdsa.md R214); `Machine.drawNonce` brings it into `[1, N-1]`,
and every value there comes from some number. Log entry 6. -/
opaque Config.nonceRaw : Nat → Nat

/-- How many host inputs are served between a command's acceptance and its completion (60_exceptions.md R240,
70_reset_and_hazards.md R292). Log entry 3. -/
opaque Config.latency : Nat → Nat

/-- `BASE`, the bus address of the register window, a parameter of the platform (00_scope.md R9, D50). Log entry 12. -/
opaque Config.base : Nat

/-- `SIGN_MAX_ATTEMPTS`: the spec's value (00_scope.md R9, D31). Log entry 7. -/
def Config.signMaxAttempts : Nat := 16

end Sys2Proof
end

