-- ==== Sys2Proof/Machine/State.lean ====
section
/-! DEFINITION. The state of the core (10_state.md), as plain data, and the state after reset (R39). The last four fields
are the model's own: the open interleaving, the free values, the host's pending inputs and the bus response. -/

namespace Sys2Proof.Machine

/-- A value register (R21): `valid` and `mod = 0` is an integer, `valid` and `mod >= 1` a field element. -/
structure VReg where
  val   : W256
  mod   : W256
  valid : Bool
  deriving DecidableEq, Repr

/-- The six fields of a point (R16, R24). -/
structure Point where
  inf : Bool
  x   : W256
  y   : W256
  a   : W256
  b   : W256
  p   : W256
  deriving DecidableEq, Repr

/-- A point register (R24). -/
structure PReg where
  pt    : Point
  valid : Bool
  deriving DecidableEq, Repr

/-- The error kinds of R242; code 0x00 (OK) is the absence of one. -/
inductive Err where
  | valueRange
  | fieldMismatch
  | curveMismatch
  | notOnCurve
  | divByZero
  /-- Reserved: in the code table, never raised (R242, D4). -/
  | invalidScalar
  | invalidKey
  | illegalCmd
  | uninitOperand
  | operandKind
  | nonceEmpty
  | retryExhausted
  deriving DecidableEq, Repr

/-- The command latch (R37(a)): the accepted word and CTRL.NMODE at acceptance. -/
structure Latch where
  word  : Word
  nmode : Bool
  deriving DecidableEq, Repr

/-- One input from outside the core. `size` is the access width in bytes (R67); `off` is the byte offset in the window
(R60). -/
inductive HostOp where
  /-- A bus read. -/
  | read (off : BitVec 12) (size : Nat)
  /-- A bus write; `data` is what the data lines carry in a 32-bit access. -/
  | write (off : BitVec 12) (size : Nat) (data : Word)
  /-- The host polls STATUS until BUSY reads 0 (R105, WAIT). -/
  | wait
  /-- The hardware reset input is driven (R280(a)). -/
  | hwReset
  deriving DecidableEq, Repr

/-- What the bus answers to an access. -/
inductive BusResp where
  /-- The data of a read. -/
  | data (w : Word)
  /-- A write was taken (a dropped or ignored write is taken too: R66, R72). -/
  | done
  /-- The bus error response of R67 and R251. -/
  | busError
  deriving DecidableEq, Repr

/-- The machine. BUSY is not a field: it is 1 exactly while the latch is held (R31, R37); see `State.busy`. -/
structure State where
  /-- V0 to V15 (R21). -/
  vregs      : Vector VReg 16
  /-- P0 to P7 (R24). -/
  pregs      : Vector PReg 8
  /-- CTRL.IE (R30). -/
  ie         : Bool
  /-- CTRL.NMODE (R30). -/
  nmode      : Bool
  /-- STATUS.DONE (R31). -/
  done       : Bool
  /-- STATUS.FLAG (R29). -/
  flag       : Bool
  /-- STATUS.NONCE_VALID (R36). -/
  nonceValid : Bool
  /-- STATUS.BUSYERR (R250). -/
  busyErr    : Bool
  /-- STATUS.ERR (R242); `none` is OK. -/
  err        : Option Err
  /-- LASTCMD (R32). -/
  lastCmd    : Word
  /-- NONCE (R36). -/
  nonce      : W256
  /-- The command latch, held from acceptance to completion (R37(a)). -/
  latch      : Option Latch
  /-- The model's own: how many host inputs are still served before the command in progress completes (R240, R292). -/
  delay      : Nat
  /-- The model's own: how many free values have been taken. -/
  draws      : Nat
  /-- The model's own: the host's pending inputs, in the order the bus delivers them (R73). -/
  host       : List HostOp
  /-- The model's own: the response to the last access served. -/
  resp       : Option BusResp
  deriving DecidableEq, Repr

/-- Why a step could stop the machine with a fault. There is no such reason: an error of a command is a completion with
a code (R240, R241), a bus error is a response that changes no state (R67, R251), and an idle core waits (R257). -/
inductive Fault where
  deriving DecidableEq, Repr

/-- Why a step could be refused. -/
inductive Refusal where
  /-- Raised by an arm of `exec` for a command without a meaning; safe. No arm raises it: every command has a meaning. -/
  | notModelled (mnemonic : String)
  deriving DecidableEq, Repr

/-- A value register after reset: it holds no value (R39). -/
def VReg.empty : VReg := { val := 0#256, mod := 0#256, valid := false }

/-- A point register after reset: it holds no value (R39). -/
def PReg.empty : PReg :=
  { pt := { inf := false, x := 0#256, y := 0#256, a := 0#256, b := 0#256, p := 0#256 }, valid := false }

/-- The machine right after reset (R39): idle, no command latched, no host input pending. -/
def State.reset : State :=
  { vregs      := Vector.replicate 16 VReg.empty
    pregs      := Vector.replicate 8 PReg.empty
    ie         := false
    nmode      := false
    done       := false
    flag       := false
    nonceValid := false
    busyErr    := false
    err        := none
    lastCmd    := 0x00000000#32
    nonce      := 0#256
    latch      := none
    delay      := 0
    draws      := 0
    host       := []
    resp       := none }

end Sys2Proof.Machine
end

