-- ==== Sys2Proof/Machine/Ops.lean ====
section
/-! DEFINITION. The named operations over the registers: reading and writing V and P, the words of a 256-bit value, the
error codes and the STATUS and CTRL views, acceptance and completion of a command (60_exceptions.md R240, R241), and reset. -/

namespace Sys2Proof.Machine

/-! ### Value and point registers -/

/-- `V[i]` (R21). -/
def State.vreg (s : State) (i : VIdx) : VReg := s.vregs[i]

/-- `P[j]` (R24). -/
def State.preg (s : State) (j : PIdx) : PReg := s.pregs[j]

/-- Replaces `V[i]`. -/
def State.setV (s : State) (i : VIdx) (x : VReg) : State := { s with vregs := s.vregs.set i x }

/-- `P[j] <- pt`: writes all point fields and `valid := 1` (R14). -/
def State.setP (s : State) (j : PIdx) (pt : Point) : State :=
  { s with pregs := s.pregs.set j { pt := pt, valid := true } }

/-- The register contents of `V[i] <- (v, m)` (R14), for a result `v` and a modulus `m`. -/
def VReg.ofNat (v : Nat) (m : W256) : VReg := { val := BitVec.ofNat 256 v, mod := m, valid := true }

/-! ### The words of a 256-bit value -/

/-- Word `j` of a 256-bit value, word 0 the least significant (R64). -/
def wordAt (x : W256) (j : Fin 8) : Word := x.extractLsb' (32 * j.val) 32

/-- The value with word `j` replaced and the other seven kept (R65). -/
def setWordAt (x : W256) (j : Fin 8) (d : Word) : W256 :=
  (x &&& ~~~((0xFFFFFFFF#256) <<< (32 * j.val))) ||| ((d.setWidth 256) <<< (32 * j.val))

/-! ### Errors and status -/

/-- The 8-bit code of an error kind (R242). -/
def Err.code : Err → BitVec 8
  | .valueRange => 0x01#8
  | .fieldMismatch => 0x02#8
  | .curveMismatch => 0x03#8
  | .notOnCurve => 0x04#8
  | .divByZero => 0x05#8
  | .invalidScalar => 0x06#8
  | .invalidKey => 0x07#8
  | .illegalCmd => 0x10#8
  | .uninitOperand => 0x11#8
  | .operandKind => 0x12#8
  | .nonceEmpty => 0x13#8
  | .retryExhausted => 0x14#8

/-- STATUS.ERR (R31, R242). -/
def State.errCode (s : State) : BitVec 8 :=
  match s.err with
  | none => 0x00#8
  | some e => e.code

/-- STATUS.BUSY: 1 from the acceptance of a command to its completion, the span for which the latch is held
(R31, R37). -/
def State.busy (s : State) : Bool := s.latch.isSome

/-- STATUS as the host reads it (R31). -/
def State.statusWord (s : State) : Word :=
  0#16 ++ s.errCode ++ 0#3 ++ BitVec.ofBool s.busyErr ++ BitVec.ofBool s.nonceValid ++ BitVec.ofBool s.flag
    ++ BitVec.ofBool s.done ++ BitVec.ofBool s.busy

/-- CTRL as the host reads it: SRST and the reserved bits read 0 (R30). -/
def State.ctrlWord (s : State) : Word := 0#30 ++ BitVec.ofBool s.nmode ++ BitVec.ofBool s.ie

/-- VVALID (R34): bit `i` is `V[i].valid`. -/
def State.vvalidWord (s : State) : Word :=
  ((List.finRange 16).map (fun i => (BitVec.ofBool (s.vreg i).valid).setWidth 32 <<< i.val)).foldl (· ||| ·) 0#32

/-- PVALID (R35): bit `j` is `P[j].valid`. -/
def State.pvalidWord (s : State) : Word :=
  ((List.finRange 8).map (fun j => (BitVec.ofBool (s.preg j).valid).setWidth 32 <<< j.val)).foldl (· ||| ·) 0#32

/-- The interrupt output (R245). -/
def State.irq (s : State) : Bool := s.ie && s.done

/-! ### The life of a command -/

/-- CTRL.NMODE as the command in progress has it: the latched value (R37, D52). -/
def State.commandNmode (s : State) : Bool :=
  match s.latch with
  | some l => l.nmode
  | none => s.nmode

/-- ACCEPT(w) of R240. The latency is a free value (R292). -/
def State.accept (s : State) (w : Word) : State :=
  { s with
    lastCmd := w
    latch := some { word := w, nmode := s.nmode }
    done := false
    err := none
    delay := Config.latency s.draws
    draws := s.draws + 1 }

/-- The lifecycle writes of a completion (R240): ERR, BUSY := 0, DONE := 1. -/
def State.retire (s : State) (e : Option Err) : State :=
  { s with err := e, latch := none, done := true }

/-- What `raise E` does (R241, R248): the command completes with the code `e` and no destination is written; `s` holds
the side effects that persist. The core takes no trap, so there is nothing to return from (R249). -/
def State.raise (s : State) (e : Err) : Host.Outcome State Fault Refusal := .next (s.retire (some e))

/-- COMPLETE of R240: a command's writes `t`, or the error it raised, in which case only `s` persists. -/
def State.complete (s : State) (r : Except Err State) : Host.Outcome State Fault Refusal :=
  match r with
  | .ok t => .next (t.retire none)
  | .error e => s.raise e

/-- Whether the command in progress completes in the next step: its latency has run out, or no host input is pending
(R292: completion comes whatever the host does). -/
def State.completionDue (s : State) : Bool := s.delay == 0 || s.host.isEmpty

/-! ### Reset -/

/-- RESET of R281: every state of the core takes its value of R39. The host's inputs and the counter of free values are
not the core's and stay. -/
def State.resetCore (s : State) : State :=
  { State.reset with draws := s.draws, host := s.host, resp := s.resp }

end Sys2Proof.Machine
end

