-- ==== Sys2Proof/Machine/Bus.lean ====
section
/-! DEFINITION. The register window (20_memory.md): what stands at each offset (R61 to R63), reads and writes of it, the
bus errors (R67), and how one pending host input is served (R73). -/

namespace Sys2Proof.Machine

/-- What a 32-bit word of the window is (R61 to R63, R68). -/
inductive Loc where
  | ident
  | ctrl
  | status
  | cmd
  | vvalid
  | pvalid
  | nonceWord (j : Fin 8)
  | valWord (i : VIdx) (j : Fin 8)
  | modWord (i : VIdx) (j : Fin 8)
  | ptInf (j : PIdx)
  | ptX (j : PIdx) (k : Fin 8)
  | ptY (j : PIdx) (k : Fin 8)
  | ptA (j : PIdx) (k : Fin 8)
  | ptB (j : PIdx) (k : Fin 8)
  | ptP (j : PIdx) (k : Fin 8)
  /-- A word of the point window that reads as zero (R63). -/
  | ptZero (j : PIdx)
  /-- A reserved offset outside the point window (R68). -/
  | reserved
  deriving DecidableEq, Repr

/-- The control part of the map, offsets 0x000 to 0x0FC, by word number (R61). -/
def locateControl (w : Nat) : Loc :=
  match w with
  | 0 => .ident
  | 1 => .ctrl
  | 2 => .status
  | 3 => .cmd
  | 4 => .vvalid
  | 5 => .pvalid
  | _ => if 8 ≤ w ∧ w < 16 then .nonceWord (Fin.ofNat 8 (w - 8)) else .reserved

/-- The value window, by the word number from its start (R62): 16 words a register, `val` then `mod`. -/
def locateValue (w : Nat) : Loc :=
  if w % 16 < 8 then .valWord (Fin.ofNat 16 (w / 16)) (Fin.ofNat 8 (w % 16))
  else .modWord (Fin.ofNat 16 (w / 16)) (Fin.ofNat 8 (w % 16 - 8))

/-- The point window, by the word number from its start (R63): 64 words a register. -/
def locatePoint (w : Nat) : Loc :=
  let j : PIdx := Fin.ofNat 8 (w / 64)
  let k : Fin 8 := Fin.ofNat 8 (w % 8)
  match w % 64 / 8 with
  | 0 => if w % 8 = 0 then .ptInf j else .ptZero j
  | 1 => .ptX j k
  | 2 => .ptY j k
  | 3 => .ptA j k
  | 4 => .ptB j k
  | 5 => .ptP j k
  | _ => .ptZero j

/-- The map of the window (R61), for an aligned byte offset. -/
def locate (off : BitVec 12) : Loc :=
  let w := off.toNat / 4
  if w < 0x100 / 4 then locateControl w
  else if w < 0x500 / 4 then locateValue (w - 0x100 / 4)
  else if w < 0x800 / 4 then .reserved
  else locatePoint (w - 0x800 / 4)

/-- Whether a word is in the value window 0x100 to 0x4FC (R61, R72). -/
def Loc.inValueWindow : Loc → Bool
  | .valWord _ _ => true
  | .modWord _ _ => true
  | .ident => false
  | .ctrl => false
  | .status => false
  | .cmd => false
  | .vvalid => false
  | .pvalid => false
  | .nonceWord _ => false
  | .ptInf _ => false
  | .ptX _ _ => false
  | .ptY _ _ => false
  | .ptA _ _ => false
  | .ptB _ _ => false
  | .ptP _ _ => false
  | .ptZero _ => false
  | .reserved => false

/-- Whether a word is in the point window 0x800 to 0xFFC (R61, R72). -/
def Loc.inPointWindow : Loc → Bool
  | .ptInf _ => true
  | .ptX _ _ => true
  | .ptY _ _ => true
  | .ptA _ _ => true
  | .ptB _ _ => true
  | .ptP _ _ => true
  | .ptZero _ => true
  | .ident => false
  | .ctrl => false
  | .status => false
  | .cmd => false
  | .vvalid => false
  | .pvalid => false
  | .nonceWord _ => false
  | .valWord _ _ => false
  | .modWord _ _ => false
  | .reserved => false

/-- The value a word of the window has, from the state alone (R33, R61 to R63, R68). -/
def State.locValue (s : State) : Loc → Word
  | .ident => 0x45434331#32
  | .ctrl => s.ctrlWord
  | .status => s.statusWord
  | .cmd => s.lastCmd
  | .vvalid => s.vvalidWord
  | .pvalid => s.pvalidWord
  | .nonceWord _ => 0#32
  | .valWord i j => wordAt (s.vreg i).val j
  | .modWord i j => wordAt (s.vreg i).mod j
  | .ptInf j => (BitVec.ofBool (s.preg j).pt.inf).setWidth 32
  | .ptX j k => wordAt (s.preg j).pt.x k
  | .ptY j k => wordAt (s.preg j).pt.y k
  | .ptA j k => wordAt (s.preg j).pt.a k
  | .ptB j k => wordAt (s.preg j).pt.b k
  | .ptP j k => wordAt (s.preg j).pt.p k
  | .ptZero _ => 0#32
  | .reserved => 0#32

/-- Whether a read of this word returns a free value now: the value and point windows while BUSY = 1 (R72(b)). -/
def State.readsFree (s : State) (l : Loc) : Bool := s.busy && (l.inValueWindow || l.inPointWindow)

/-- What a 32-bit aligned read returns (R69, R72). -/
def State.readData (s : State) (l : Loc) : Word := if s.readsFree l then Config.busyRead s.draws else s.locValue l

/-- The state after a read: nothing of the core changes (R69); a free value taken is counted. -/
def State.afterRead (s : State) (l : Loc) : State := if s.readsFree l then { s with draws := s.draws + 1 } else s

/-- A dropped write (R72(a), R250). -/
def State.dropWrite (s : State) : State := { s with busyErr := true }

/-- A write to CTRL (R30, R280(b)): SRST = 1 resets and the other bits are ignored. -/
def State.writeCtrl (s : State) (d : Word) : State :=
  if d.getLsbD 31 then s.resetCore else { s with ie := d.getLsbD 0, nmode := d.getLsbD 1 }

/-- A write to STATUS (R31): only DONE and BUSYERR, each cleared where the written bit is 1. -/
def State.writeStatus (s : State) (d : Word) : State :=
  { s with done := s.done && !d.getLsbD 1, busyErr := s.busyErr && !d.getLsbD 4 }

/-- A write to CMD (R32, R72(a)). -/
def State.writeCmd (s : State) (d : Word) : State := if s.busy then s.dropWrite else s.accept d

/-- A write to a NONCE word (R36, R72(a)). -/
def State.writeNonce (s : State) (j : Fin 8) (d : Word) : State :=
  if s.busy then s.dropWrite else { s with nonce := setWordAt s.nonce j d, nonceValid := true }

/-- A write to a `val` word (R65, R72(a)): the register becomes an integer. -/
def State.writeVal (s : State) (i : VIdx) (j : Fin 8) (d : Word) : State :=
  if s.busy then s.dropWrite
  else s.setV i { val := setWordAt (s.vreg i).val j d, mod := 0#256, valid := true }

/-- A write to a `mod` word (R62, R66): ignored while idle, dropped with BUSYERR while busy. -/
def State.writeMod (s : State) : State := if s.busy then s.dropWrite else s

/-- A 32-bit aligned write (R61, R66, R68, R70). -/
def State.writeLoc (s : State) (l : Loc) (d : Word) : State :=
  match l with
  | .ident => s
  | .ctrl => s.writeCtrl d
  | .status => s.writeStatus d
  | .cmd => s.writeCmd d
  | .vvalid => s
  | .pvalid => s
  | .nonceWord j => s.writeNonce j d
  | .valWord i j => s.writeVal i j d
  | .modWord _ _ => s.writeMod
  | .ptInf _ => s
  | .ptX _ _ => s
  | .ptY _ _ => s
  | .ptA _ _ => s
  | .ptB _ _ => s
  | .ptP _ _ => s
  | .ptZero _ => s
  | .reserved => s

/-- The one defined access: 32 bits at an offset that is a multiple of 4 (R67). -/
def legalAccess (off : BitVec 12) (size : Nat) : Bool := size == 4 && off.toNat % 4 == 0

/-- A host read: the state after it and the response. -/
def State.busRead (s : State) (off : BitVec 12) (size : Nat) : State :=
  if legalAccess off size then
    { s.afterRead (locate off) with resp := some (.data (s.readData (locate off))) }
  else { s with resp := some .busError }

/-- A host write: the state after it and the response. -/
def State.busWrite (s : State) (off : BitVec 12) (size : Nat) (d : Word) : State :=
  if legalAccess off size then { s.writeLoc (locate off) d with resp := some .done }
  else { s with resp := some .busError }

/-- One STATUS poll of WAIT (R105): it is taken off the list when BUSY reads 0. -/
def State.poll (s : State) (rest : List HostOp) : State :=
  { s with host := if s.busy then .wait :: rest else rest, resp := some (.data s.statusWord) }

/-- Serves the first pending host input; `rest` is what stays pending (R73). -/
def State.serve (s : State) (op : HostOp) (rest : List HostOp) : State :=
  match op with
  | .read off size => { s with host := rest }.busRead off size
  | .write off size d => { s with host := rest }.busWrite off size d
  | .wait => s.poll rest
  | .hwReset => { s with host := rest }.resetCore

/-- A host input served while a command is in progress uses up one of the accesses its latency allows (R240, R292). -/
def State.serveBusy (s : State) (op : HostOp) (rest : List HostOp) : State :=
  { s with delay := s.delay - 1 }.serve op rest

end Sys2Proof.Machine
end

