-- ==== Sys2Proof/Machine/Arith.lean ====
section
/-! DEFINITION. The exact integer arithmetic of the units: `mod`, `powmod` (00_scope.md R13), POW (40_field.md R127) and
INV (R129). -/

namespace Sys2Proof.Machine

/-- `x mod m` for `m >= 1`, in `[0, m)` also for negative `x` (R13). -/
def modInt (x : Int) (m : Nat) : Nat := (x % (m : Int)).toNat

/-- The number of binary digits of `k`; 0 for `k = 0` (R195). -/
def bitLength (k : Nat) : Nat := if k = 0 then 0 else k.log2 + 1

/-- Square and multiply over the `n` low binary digits of `e`, least significant first. -/
def powLoop (m : Nat) : Nat → Nat → Nat → Nat → Nat
  | 0, _, _, acc => acc
  | n + 1, b, e, acc => powLoop m n (b * b % m) (e / 2) (if e % 2 = 1 then acc * b % m else acc)

/-- `powmod(x, e, m) = (x^e) mod m`, with `x^0 = 1` (R13), by repeated squaring. -/
def powmod (x e m : Nat) : Nat := powLoop m (bitLength e) (x % m) e (1 % m)

/-- `POW(x, e, m)` (R127): the exponent is always reduced modulo `m - 1`. -/
def powField (x e m : Nat) : Nat := if m = 1 then 0 else powmod x (e % (m - 1)) m

/-- `INV(x, m)` (R129): the Fermat power, for every modulus. -/
def invField (x m : Nat) : Except Err Nat := if x = 0 then .error .divByZero else .ok (powField x (m - 2) m)

end Sys2Proof.Machine
end

