-- ==== Sys2Proof/Machine/Flags.lean ====
section
/-! DEFINITION. The one condition flag of the core and the comparisons that set it (10_state.md R29, 40_field.md R132,
41_point.md R168). -/

namespace Sys2Proof.Machine

/-- Writes STATUS.FLAG (R29). -/
def State.setFlag (s : State) (b : Bool) : State := { s with flag := b }

/-- FEQ's comparison: `.val` and `.mod` are both compared, as R132 says of FEQ; the general sentence that a `vs` operand is
read by `.val` only (R92, R94, R103) is followed everywhere else (log entry 28). -/
def sameValue (x y : VReg) : Bool := x.val == y.val && x.mod == y.mod

/-- PEQ's comparison: all six fields are compared (R168). -/
def samePoint (p q : Point) : Bool :=
  p.inf == q.inf && p.x == q.x && p.y == q.y && p.a == q.a && p.b == q.b && p.p == q.p

end Sys2Proof.Machine
end

