-- ==== Sys2Proof/Machine/Operands.lean ====
section
/-! DEFINITION. The source operands of a command and the checks every command makes of them before its own
(30_encoding.md R92, R102, R103, R244). -/

namespace Sys2Proof.Machine

/-- A source operand with its role (R92). -/
inductive Src where
  /-- Role `vs`: read as an integer. -/
  | vs (i : VIdx)
  /-- Role `fs`: must hold a field element. -/
  | fs (i : VIdx)
  /-- Role `ps`: a point. -/
  | ps (j : PIdx)
  deriving DecidableEq, Repr

/-- Whether the register a source names holds a value (R102). -/
def Src.valid (s : State) : Src → Bool
  | .vs i => (s.vreg i).valid
  | .fs i => (s.vreg i).valid
  | .ps j => (s.preg j).valid

/-- Whether a source is of the kind its role asks for (R103): an `fs` register has `mod >= 1`. -/
def Src.kindOk (s : State) : Src → Bool
  | .vs _ => true
  | .fs i => (s.vreg i).mod != 0#256
  | .ps _ => true

/-- The checks of R102 and then R103, over the sources in the order FB, FC, FD, FE. Each check reports one code, so the
first failing field need not be named. -/
def State.operandError (s : State) (srcs : List Src) : Option Err :=
  if srcs.all (Src.valid s) then
    if srcs.all (Src.kindOk s) then none else some .operandKind
  else some .uninitOperand

/-- A command after decoding (R244): the operand checks, then the command's own work `r`, then COMPLETE. -/
def State.run (s : State) (srcs : List Src) (r : Except Err State) : Host.Outcome State Fault Refusal :=
  match s.operandError srcs with
  | some e => s.raise e
  | none => s.complete r

/-- `V[d] <- r` when `r` does not raise (R14, R241). -/
def State.putV (s : State) (d : VIdx) (r : Except Err VReg) : Except Err State := r.map (fun x => s.setV d x)

/-- `P[d] <- r` when `r` does not raise (R14, R241). -/
def State.putP (s : State) (d : PIdx) (r : Except Err Point) : Except Err State := r.map (fun pt => s.setP d pt)

end Sys2Proof.Machine
end

