-- ==== Sys2Proof/Machine/Point.lean ====
section
/-! DEFINITION. The point commands (41_point.md): PINF, PNEW, PADD, PNEG, PEQ, PLDG, the group law ADD (R164) and the
secp256k1 constants (00_scope.md R10, R11). -/

namespace Sys2Proof.Machine

/-! ### The secp256k1 domain -/

/-- `P = 2^256 - 2^32 - 977` (R10). -/
def secpP : W256 := 0xFFFFFFFFFFFFFFFFFFFFFFFFFFFFFFFFFFFFFFFFFFFFFFFFFFFFFFFEFFFFFC2F#256

/-- `N`, the order of `G` (R10; supplied from outside the source, log entry 11). -/
def secpN : Nat := 0xFFFFFFFFFFFFFFFFFFFFFFFFFFFFFFFEBAAEDCE6AF48A03BBFD25E8CD0364141

/-- `Gx` (R10; log entry 11). -/
def secpGx : W256 := 0x79BE667EF9DCBBAC55A06295CE870B07029BFCDB2DCE28D959F2815B16F81798#256

/-- `Gy` (R10; log entry 11). -/
def secpGy : W256 := 0x483ADA7726A3C4655DA4FBFC0E1108A8FD17B448A68554199C47D08FFB10D4B8#256

/-- The base point `G = (0, Gx, Gy, 0, 7, P)` (R169). -/
def pointG : Point := { inf := false, x := secpGx, y := secpGy, a := 0#256, b := 7#256, p := secpP }

/-! ### The group law -/

/-- `curve(pt)` (R16): two points are on the same curve exactly when these are equal (R27). -/
def Point.curve (pt : Point) : W256 × W256 × W256 := (pt.a, pt.b, pt.p)

/-- `SECP` (R11). -/
def secpCurve : W256 × W256 × W256 := (0#256, 7#256, secpP)

/-- `O(a, b, p)`, the identity (R16). -/
def identityOn (a b p : W256) : Point := { inf := true, x := 0#256, y := 0#256, a := a, b := b, p := p }

/-- `ONCURVE(x, y, a, b, p)` (R161), on exact integers. -/
def onCurve (x y a b p : Nat) : Bool := modInt ((y * y : Int) - (x * x * x + a * x + b)) p == 0

/-- `CHECKED` (R165): the point, or NOT_ON_CURVE when its coordinates fail the curve equation. -/
def checkedPoint (x y : Nat) (a b p : W256) : Except Err Point :=
  if onCurve x y a.toNat b.toNat p.toNat then
    .ok { inf := false, x := BitVec.ofNat 256 x, y := BitVec.ofNat 256 y, a := a, b := b, p := p }
  else .error .notOnCurve

/-- The slope of cases 4 and 6 of R164: numerator times the inverse of the denominator. -/
def slope (num den : Int) (p : Nat) : Except Err Nat :=
  (invField (modInt den p) p).map (fun i => modInt num p * i % p)

/-- The end of cases 4 and 6 of R164: the third point on the line of slope `sl` through `(x1, y1)` and abscissa `x2`. -/
def lineThird (sl : Nat) (x1 y1 x2 : Nat) (a b p : W256) : Except Err Point :=
  let x3 := modInt ((sl * sl : Int) - x1 - x2) p.toNat
  let y3 := modInt ((sl : Int) * ((x1 : Int) - x3) - y1) p.toNat
  checkedPoint x3 y3 a b p

/-- Case 4 of R164, the chord rule. -/
def chordRule (p1 p2 : Point) : Except Err Point :=
  (slope ((p2.y.toNat : Int) - p1.y.toNat) ((p2.x.toNat : Int) - p1.x.toNat) p1.p.toNat).bind
    (fun sl => lineThird sl p1.x.toNat p1.y.toNat p2.x.toNat p1.a p1.b p1.p)

/-- Case 6 of R164, the tangent rule. -/
def tangentRule (p1 : Point) : Except Err Point :=
  (slope (3 * p1.x.toNat * p1.x.toNat + p1.a.toNat) (2 * p1.y.toNat) p1.p.toNat).bind
    (fun sl => lineThird sl p1.x.toNat p1.y.toNat p1.x.toNat p1.a p1.b p1.p)

/-- `ADD(p1, p2)` (R164), the cases in the order the rule fixes. -/
def addPoints (p1 p2 : Point) : Except Err Point :=
  if p1.curve ≠ p2.curve then .error .curveMismatch
  else if p1.inf then .ok p2
  else if p2.inf then .ok p1
  else if p1.x = p2.x ∧ p1.y ≠ p2.y then .ok (identityOn p1.a p1.b p1.p)
  else if p1.x ≠ p2.x then chordRule p1 p2
  else if p1.y = 0#256 then .ok (identityOn p1.a p1.b p1.p)
  else tangentRule p1

/-- PNEG's work (R167). -/
def negPoint (q : Point) : Point :=
  if q.inf then q
  else { q with y := BitVec.ofNat 256 (modInt ((q.p.toNat : Int) - q.y.toNat) q.p.toNat) }

/-- PINF's work (R162): the two coefficients share one modulus (D21). -/
def newIdentity (a b : VReg) : Except Err Point :=
  if a.mod = b.mod then .ok (identityOn a.val b.val a.mod) else .error .fieldMismatch

/-- PNEW's work (R163): one modulus for all four (D22), then the curve equation. -/
def newPoint (x y a b : VReg) : Except Err Point :=
  if x.mod = y.mod ∧ y.mod = a.mod ∧ a.mod = b.mod then
    if onCurve x.val.toNat y.val.toNat a.val.toNat b.val.toNat x.mod.toNat then
      .ok { inf := false, x := x.val, y := y.val, a := a.val, b := b.val, p := x.mod }
    else .error .notOnCurve
  else .error .fieldMismatch

/-! ### The commands -/

/-- PINF pd, va, vb (R162). -/
def execPinf (d : PIdx) (a b : VIdx) (s : State) : Host.Outcome State Fault Refusal :=
  s.run [.fs a, .fs b] (s.putP d (newIdentity (s.vreg a) (s.vreg b)))

/-- PNEW pd, vx, vy, va, vb (R163). -/
def execPnew (d : PIdx) (x y a b : VIdx) (s : State) : Host.Outcome State Fault Refusal :=
  s.run [.fs x, .fs y, .fs a, .fs b] (s.putP d (newPoint (s.vreg x) (s.vreg y) (s.vreg a) (s.vreg b)))

/-- PADD pd, ps1, ps2 (R166). -/
def execPadd (d p q : PIdx) (s : State) : Host.Outcome State Fault Refusal :=
  s.run [.ps p, .ps q] (s.putP d (addPoints (s.preg p).pt (s.preg q).pt))

/-- PNEG pd, ps (R167). -/
def execPneg (d p : PIdx) (s : State) : Host.Outcome State Fault Refusal :=
  s.run [.ps p] (s.putP d (.ok (negPoint (s.preg p).pt)))

/-- PEQ ps1, ps2 (R168): only FLAG is written. -/
def execPeq (p q : PIdx) (s : State) : Host.Outcome State Fault Refusal :=
  s.run [.ps p, .ps q] (.ok (s.setFlag (samePoint (s.preg p).pt (s.preg q).pt)))

/-- PLDG pd (R169). -/
def execPldg (d : PIdx) (s : State) : Host.Outcome State Fault Refusal :=
  s.run [] (s.putP d (.ok pointG))

end Sys2Proof.Machine
end

