-- ==== Sys2Proof/Machine/Scalar.lean ====
section
/-! DEFINITION. The scalar commands (42_scalar.md): PMUL, SRED, and double-and-add (R190). -/

namespace Sys2Proof.Machine

/-- The loop of R190 over the `n` binary digits of `k`, least significant first; the doubling is done on every
iteration, the last included (C3). -/
def smulLoop : Nat → Nat → Point → Point → Except Err Point
  | 0, _, result, _ => .ok result
  | n + 1, k, result, current =>
    (if k % 2 = 1 then addPoints result current else .ok result).bind fun result' =>
      (addPoints current current).bind fun current' => smulLoop n (k / 2) result' current'

/-- The scalar SMUL uses: reduced modulo `N` exactly when the point's curve is SECP (R191). -/
def reducedScalar (pt : Point) (k : Nat) : Nat := if pt.curve = secpCurve then k % secpN else k

/-- `SMUL(pt, k)` (R190). -/
def smul (pt : Point) (k : Nat) : Except Err Point :=
  smulLoop (bitLength (reducedScalar pt k)) (reducedScalar pt k) (identityOn pt.a pt.b pt.p) pt

/-- PMUL pd, ps, vk (R192). -/
def execPmul (d p : PIdx) (k : VIdx) (s : State) : Host.Outcome State Fault Refusal :=
  s.run [.ps p, .vs k] (s.putP d (smul (s.preg p).pt (s.vreg k).val.toNat))

/-- SRED vd, vs (R193): a field element of modulus `N`. -/
def execSred (d a : VIdx) (s : State) : Host.Outcome State Fault Refusal :=
  s.run [.vs a] (s.putV d (.ok (VReg.ofNat ((s.vreg a).val.toNat % secpN) (BitVec.ofNat 256 secpN))))

end Sys2Proof.Machine
end

