-- ==== Sys2Proof/Machine/Ecdsa.lean ====
section
/-! DEFINITION. The ECDSA commands (43_ecdsa.md): EKEY, ESIGN, EVERIFY, with the nonce source (R214), the signing loop
(R213) and the verification procedure (R216). -/

namespace Sys2Proof.Machine

/-- What NEXT_NONCE reads and writes: STATUS.NONCE_VALID, NONCE, and the count of free values taken (R214). -/
structure NonceSource where
  valid : Bool
  nonce : W256
  draws : Nat
  deriving DecidableEq, Repr

/-- A scalar in `[1, N-1]` (R211, R214, R216). -/
def inScalarRange (k : Nat) : Bool := decide (1 ≤ k) && decide (k < secpN)

/-- `draw_nonce()`: any integer in `[1, N-1]` (R15, R214), a free value. -/
def drawNonce (n : Nat) : Nat := 1 + Config.nonceRaw n % (secpN - 1)

/-- `NEXT_NONCE(mode)` (R214), with what it leaves of the source; `mode` is the latched CTRL.NMODE. The clearing of
NONCE_VALID stays when the range check then raises. -/
def nextNonce (mode : Bool) (n : NonceSource) : NonceSource × Except Err Nat :=
  if mode then
    if n.valid then
      ({ n with valid := false }, if inScalarRange n.nonce.toNat then .ok n.nonce.toNat else .error .valueRange)
    else (n, .error .nonceEmpty)
  else ({ n with draws := n.draws + 1 }, .ok (drawNonce n.draws))

/-- Steps 2 to 5 of R213 for one nonce `k`: `none` when the nonce is degenerate and must be discarded. -/
def signAttempt (sec z k : Nat) : Except Err (Option (Nat × Nat)) :=
  (smul pointG k).map fun pt =>
    let r := pt.x.toNat
    let sg := (z + r * sec) * powmod k (secpN - 2) secpN % secpN
    if r = 0 ∨ secpN ≤ r then none else if sg = 0 then none else some (r, sg)

/-- The loop of R213 with `fuel` attempts left; its argument is the hidden attempt counter (R37(b)). -/
def signLoop (mode : Bool) (sec z : Nat) : Nat → NonceSource → NonceSource × Except Err (Nat × Nat)
  | 0, n => (n, .error .retryExhausted)
  | fuel + 1, n =>
    match nextNonce mode n with
    | (n', .error e) => (n', .error e)
    | (n', .ok k) =>
      match signAttempt sec z k with
      | .error e => (n', .error e)
      | .ok (some sig) => (n', .ok sig)
      | .ok none => signLoop mode sec z fuel n'

/-- `SIGN(sec, z, mode)` (R213). -/
def sign (mode : Bool) (sec z : Nat) (n : NonceSource) : NonceSource × Except Err (Nat × Nat) :=
  signLoop mode sec z Config.signMaxAttempts n

/-- The nonce source as the state holds it. -/
def State.nonceSource (s : State) : NonceSource := { valid := s.nonceValid, nonce := s.nonce, draws := s.draws }

/-- What ESIGN's nonce requests leave in the state, whether or not it then raises (R214, R241). -/
def State.setNonceSource (s : State) (n : NonceSource) : State :=
  { s with nonceValid := n.valid, draws := n.draws }

/-- `VERIFY(Q, z, r, s)` (R216); the curve check stands after the range check and before any multiplication (D34). -/
def verify (q : Point) (z r sg : Nat) : Except Err Bool :=
  if ¬ (inScalarRange r ∧ inScalarRange sg) then .ok false
  else if q.curve ≠ secpCurve then .error .curveMismatch
  else
    let sinv := powmod sg (secpN - 2) secpN
    (smul pointG (z * sinv % secpN)).bind fun c1 =>
      (smul q (r * sinv % secpN)).bind fun c2 =>
        (addPoints c1 c2).map fun c => if c.inf then false else c.x.toNat == r

/-- EKEY's work (R211): the secret is in `[1, N-1]`, else INVALID_KEY (C1). -/
def publicPoint (sec : Nat) : Except Err Point :=
  if inScalarRange sec then smul pointG sec else .error .invalidKey

/-- ESIGN's work after the operand checks (R212): INVALID_KEY comes before any nonce request (R244). -/
def State.signInto (s : State) (r sg : VIdx) (sec z : Nat) : Host.Outcome State Fault Refusal :=
  if inScalarRange sec then
    let out := sign s.commandNmode sec z s.nonceSource
    let t := s.setNonceSource out.1
    t.complete (out.2.map fun v => (t.setV r (VReg.ofNat v.1 0#256)).setV sg (VReg.ofNat v.2 0#256))
  else s.raise .invalidKey

/-- EKEY pd, vsec (R211). -/
def execEkey (d : PIdx) (sec : VIdx) (s : State) : Host.Outcome State Fault Refusal :=
  s.run [.vs sec] (s.putP d (publicPoint (s.vreg sec).val.toNat))

/-- ESIGN vr, vs, vsec, vz (R212). -/
def execEsign (r sg sec z : VIdx) (s : State) : Host.Outcome State Fault Refusal :=
  match s.operandError [.vs sec, .vs z] with
  | some e => s.raise e
  | none => s.signInto r sg (s.vreg sec).val.toNat (s.vreg z).val.toNat

/-- EVERIFY pq, vz, vr, vs (R215): only FLAG is written, and only without an error (R217). -/
def execEverify (q : PIdx) (z r sg : VIdx) (s : State) : Host.Outcome State Fault Refusal :=
  s.run [.ps q, .vs z, .vs r, .vs sg]
    ((verify (s.preg q).pt (s.vreg z).val.toNat (s.vreg r).val.toNat (s.vreg sg).val.toNat).map (fun b => s.setFlag b))

end Sys2Proof.Machine
end

