-- ==== Sys2Proof/Machine/Field.lean ====
section
/-! DEFINITION. The field commands (40_field.md): FNEW, FADD, FSUB, FMUL, FPOW, FINV, FDIV, FEQ. -/

namespace Sys2Proof.Machine

/-- FNEW's construction of a field element (R122). -/
def fieldNew (v m : W256) : Except Err VReg :=
  if m.toNat ≤ v.toNat then .error .valueRange else .ok { val := v, mod := m, valid := true }

/-- A binary field operation of R123 to R125: equal moduli, then the exact integer result reduced by the modulus. -/
def fieldBinary (op : Int → Int → Int) (x y : VReg) : Except Err VReg :=
  if x.mod = y.mod then .ok (VReg.ofNat (modInt (op x.val.toNat y.val.toNat) x.mod.toNat) x.mod)
  else .error .fieldMismatch

/-- FPOW's work (R128). -/
def fieldPow (x e : VReg) : VReg := VReg.ofNat (powField x.val.toNat e.val.toNat x.mod.toNat) x.mod

/-- FINV's work (R130). -/
def fieldInv (x : VReg) : Except Err VReg :=
  (invField x.val.toNat x.mod.toNat).map (fun r => VReg.ofNat r x.mod)

/-- FDIV's work (R131): the moduli are compared before the divisor is inverted (D18). -/
def fieldDiv (x y : VReg) : Except Err VReg :=
  if x.mod = y.mod then
    (invField y.val.toNat x.mod.toNat).map (fun r => VReg.ofNat (x.val.toNat * r % x.mod.toNat) x.mod)
  else .error .fieldMismatch

/-- FNEW vd, vs, vm (R122). -/
def execFnew (d v m : VIdx) (s : State) : Host.Outcome State Fault Refusal :=
  s.run [.vs v, .vs m] (s.putV d (fieldNew (s.vreg v).val (s.vreg m).val))

/-- FADD vd, vs1, vs2 (R123). -/
def execFadd (d a b : VIdx) (s : State) : Host.Outcome State Fault Refusal :=
  s.run [.fs a, .fs b] (s.putV d (fieldBinary (fun x y => x + y) (s.vreg a) (s.vreg b)))

/-- FSUB vd, vs1, vs2 (R124). -/
def execFsub (d a b : VIdx) (s : State) : Host.Outcome State Fault Refusal :=
  s.run [.fs a, .fs b] (s.putV d (fieldBinary (fun x y => x - y) (s.vreg a) (s.vreg b)))

/-- FMUL vd, vs1, vs2 (R125): the ordinary product, never a Montgomery form (R126, C5). -/
def execFmul (d a b : VIdx) (s : State) : Host.Outcome State Fault Refusal :=
  s.run [.fs a, .fs b] (s.putV d (fieldBinary (fun x y => x * y) (s.vreg a) (s.vreg b)))

/-- FPOW vd, vs, ve (R128). -/
def execFpow (d a e : VIdx) (s : State) : Host.Outcome State Fault Refusal :=
  s.run [.fs a, .vs e] (s.putV d (.ok (fieldPow (s.vreg a) (s.vreg e))))

/-- FINV vd, vs (R130). -/
def execFinv (d a : VIdx) (s : State) : Host.Outcome State Fault Refusal :=
  s.run [.fs a] (s.putV d (fieldInv (s.vreg a)))

/-- FDIV vd, vs1, vs2 (R131). -/
def execFdiv (d a b : VIdx) (s : State) : Host.Outcome State Fault Refusal :=
  s.run [.fs a, .fs b] (s.putV d (fieldDiv (s.vreg a) (s.vreg b)))

/-- FEQ vs1, vs2 (R132): only FLAG is written. -/
def execFeq (a b : VIdx) (s : State) : Host.Outcome State Fault Refusal :=
  s.run [.vs a, .vs b] (.ok (s.setFlag (sameValue (s.vreg a) (s.vreg b))))

end Sys2Proof.Machine
end

