-- ==== Sys2Proof/Machine/Dispatch.lean ====
section
/-! DEFINITION. The dispatch of a decoded command to its meaning, one arm per row of the opcode map (R95). -/

namespace Sys2Proof.Machine

def exec (i : Instr) (s : State) : Host.Outcome State Fault Refusal :=
  match i with
  | .fnew d v m => Sys2Proof.Machine.execFnew d v m s
  | .fadd d a b => Sys2Proof.Machine.execFadd d a b s
  | .fsub d a b => Sys2Proof.Machine.execFsub d a b s
  | .fmul d a b => Sys2Proof.Machine.execFmul d a b s
  | .fpow d a e => Sys2Proof.Machine.execFpow d a e s
  | .finv d a => Sys2Proof.Machine.execFinv d a s
  | .fdiv d a b => Sys2Proof.Machine.execFdiv d a b s
  | .feq a b => Sys2Proof.Machine.execFeq a b s
  | .pinf d a b => Sys2Proof.Machine.execPinf d a b s
  | .pnew d x y a b => Sys2Proof.Machine.execPnew d x y a b s
  | .padd d p q => Sys2Proof.Machine.execPadd d p q s
  | .pneg d p => Sys2Proof.Machine.execPneg d p s
  | .peq p q => Sys2Proof.Machine.execPeq p q s
  | .pldg d => Sys2Proof.Machine.execPldg d s
  | .pmul d p k => Sys2Proof.Machine.execPmul d p k s
  | .sred d a => Sys2Proof.Machine.execSred d a s
  | .ekey d sec => Sys2Proof.Machine.execEkey d sec s
  | .esign r sg sec z => Sys2Proof.Machine.execEsign r sg sec z s
  | .everify q z r sg => Sys2Proof.Machine.execEverify q z r sg s

end Sys2Proof.Machine
end

