-- ==== Sys2Proof/Machine/Step.lean ====
section
/-! DEFINITION. One atomic step of the machine (20_memory.md R73, 60_exceptions.md R240): the completion of the command in
progress, or one host input, or nothing when the core is idle and no input is pending (R257). -/

namespace Sys2Proof.Machine

/-- EXECUTE and COMPLETE of R240 for the latched word; an illegal word completes with ILLEGAL_CMD (R96). -/
def completeLatched (l : Latch) (s : State) : Host.Outcome State Fault Refusal :=
  match decode l.word with
  | .ok i => exec i s
  | .error _ => s.raise .illegalCmd

/-- One step. While a command is in progress it completes when it is due, and otherwise a host input is served first. -/
def step (s : State) : Host.Outcome State Fault Refusal :=
  match s.latch, s.host with
  | some l, [] => completeLatched l s
  | some l, op :: rest => if s.completionDue then completeLatched l s else .next (s.serveBusy op rest)
  | none, [] => .next s
  | none, op :: rest => .next (s.serve op rest)

/-- The state in which the command word has been accepted and its completion is the very next step: ACCEPT of R240 with
no host input before COMPLETE, one of the interleavings R240 admits (log entry 14). -/
def State.withFetchWord (s : State) (nbits w : Nat) : State :=
  { s.accept (tableWord nbits w) with delay := 0, draws := s.draws }

end Sys2Proof.Machine
end

