-- ==== Sys2Proof/Machine/HostProgram.lean ====
section
/-! DEFINITION. What the host's pseudo-instructions of 30_encoding.md R105 are on the bus: the accesses each expands to.
They are inputs of the core, not commands. -/

namespace Sys2Proof.Machine

/-- The bus address of a byte offset in the window (R60, R79); `BASE` is the platform's. -/
def busAddress (off : BitVec 12) : Nat := Config.base + off.toNat

/-- `MemRead(off, 4)` (R15). -/
def memRead (off : Nat) : HostOp := .read (BitVec.ofNat 12 off) 4

/-- `MemWrite(off, 4, d)` (R15). -/
def memWrite (off : Nat) (d : Word) : HostOp := .write (BitVec.ofNat 12 off) 4 d

/-- The eight word writes that store a 256-bit number from an offset up, least significant word first (R64, R105). -/
def memWrite256 (off : Nat) (n : W256) : List HostOp :=
  (List.finRange 8).map (fun j => memWrite (off + 4 * j.val) (n.extractLsb' (32 * j.val) 32))

/-- A line of a host program (R105). -/
inductive Pseudo where
  | command (i : Instr)
  | wrv (i : VIdx) (n : W256)
  | rdv (i : VIdx)
  | rdp (j : PIdx)
  | wrn (n : W256)
  | setctrl (n : Word)
  | wait
  | clrdone
  | ldfe (d t : VIdx) (n m : W256)
  | pdbl (d p : PIdx)
  deriving DecidableEq, Repr

/-- `WRV vI, n`. -/
def expandWrv (i : VIdx) (n : W256) : List HostOp := memWrite256 (0x100 + 0x40 * i.val) n

/-- The expansion of a line into host inputs (R105). -/
def Pseudo.expand : Pseudo → List HostOp
  | .command i => [memWrite 0x00C (encode i)]
  | .wrv i n => expandWrv i n
  | .rdv i =>
    (List.range 8).map (fun j => memRead (0x100 + 0x40 * i.val + 4 * j))
      ++ (List.range 8).map (fun j => memRead (0x120 + 0x40 * i.val + 4 * j))
  | .rdp j =>
    memRead (0x800 + 0x100 * j.val) :: (List.range 40).map (fun k => memRead (0x820 + 0x100 * j.val + 4 * k))
  | .wrn n => memWrite256 0x020 n
  | .setctrl n => [memWrite 0x004 n]
  | .wait => [.wait]
  | .clrdone => [memWrite 0x008 0x00000002#32]
  | .ldfe d t n m => expandWrv d n ++ expandWrv t m ++ [memWrite 0x00C (encode (.fnew d d t)), .wait]
  | .pdbl d p => [memWrite 0x00C (encode (.padd d p p))]

end Sys2Proof.Machine
end

