-- ==== Sys2Proof/Safety.lean ====
section
/-! DEFINITION. The terms claims use: the register invariants (10_state.md R22, R25), what a completed command may have
changed (60_exceptions.md R240, R241), and the source operands of each command (30_encoding.md R95). -/

namespace Sys2Proof.Machine

/-! ### Invariants -/

/-- The invariant of a value register: a field element is below its modulus (R22). -/
abbrev VReg.Ok (x : VReg) : Prop := x.valid = true → x.mod ≠ 0#256 → x.val.toNat < x.mod.toNat

/-- The invariants (a) to (d) of a point (R25). -/
abbrev Point.Ok (q : Point) : Prop :=
  1 ≤ q.p.toNat ∧ q.a.toNat < q.p.toNat ∧ q.b.toNat < q.p.toNat
    ∧ (q.inf = true → q.x = 0#256 ∧ q.y = 0#256)
    ∧ (q.inf = false → q.x.toNat < q.p.toNat ∧ q.y.toNat < q.p.toNat
        ∧ ((q.y.toNat * q.y.toNat : Int) - (q.x.toNat * q.x.toNat * q.x.toNat + q.a.toNat * q.x.toNat + q.b.toNat))
            % q.p.toNat = 0)

/-- The invariant of a point register (R25). -/
abbrev PReg.Ok (r : PReg) : Prop := r.valid = true → r.pt.Ok

/-- The invariant of the register files (R22, R25). -/
abbrev State.Inv (s : State) : Prop := (∀ i, (s.vreg i).Ok) ∧ ∀ j, (s.preg j).Ok

/-! ### Frames -/

/-- The registers no command writes: CTRL, BUSYERR, LASTCMD, NONCE, and the model's own inputs and response. -/
abbrev ControlKept (s t : State) : Prop :=
  t.ie = s.ie ∧ t.nmode = s.nmode ∧ t.busyErr = s.busyErr ∧ t.lastCmd = s.lastCmd ∧ t.nonce = s.nonce
    ∧ t.delay = s.delay ∧ t.host = s.host ∧ t.resp = s.resp

/-- NONCE_VALID is unchanged and no free value was taken: every command but ESIGN. -/
abbrev NonceKept (s t : State) : Prop := t.nonceValid = s.nonceValid ∧ t.draws = s.draws

/-- Every value register outside a list is unchanged. -/
abbrev VKeptExcept (ds : List VIdx) (s t : State) : Prop := ∀ j, j ∉ ds → t.vreg j = s.vreg j

/-- Every point register outside a list is unchanged. -/
abbrev PKeptExcept (ds : List PIdx) (s t : State) : Prop := ∀ j, j ∉ ds → t.preg j = s.preg j

/-- The lifecycle bits after a completion with a code (R240). -/
abbrev CompletedWith (e : Option Err) (t : State) : Prop := t.err = e ∧ t.busy = false ∧ t.latch = none ∧ t.done = true

/-- A command completed without error and wrote at most the value registers in the list. -/
abbrev WroteOnlyV (ds : List VIdx) (s t : State) : Prop :=
  CompletedWith none t ∧ VKeptExcept ds s t ∧ PKeptExcept [] s t ∧ t.flag = s.flag ∧ NonceKept s t ∧ ControlKept s t

/-- A command completed without error and wrote at most the point register named. -/
abbrev WroteOnlyP (d : PIdx) (s t : State) : Prop :=
  CompletedWith none t ∧ VKeptExcept [] s t ∧ PKeptExcept [d] s t ∧ t.flag = s.flag ∧ NonceKept s t ∧ ControlKept s t

/-- A command completed without error and wrote at most FLAG. -/
abbrev WroteOnlyFlag (s t : State) : Prop :=
  CompletedWith none t ∧ VKeptExcept [] s t ∧ PKeptExcept [] s t ∧ NonceKept s t ∧ ControlKept s t

/-- A command completed with an error and nothing but the lifecycle bits changed (R241). -/
abbrev RaisedOnly (e : Err) (s t : State) : Prop :=
  CompletedWith (some e) t ∧ VKeptExcept [] s t ∧ PKeptExcept [] s t ∧ t.flag = s.flag ∧ NonceKept s t ∧ ControlKept s t

/-! ### The register state of the core -/

/-- Two states that agree in everything the spec gives the core; the model's own fields may differ. -/
abbrev SameCore (s t : State) : Prop :=
  t.vregs = s.vregs ∧ t.pregs = s.pregs ∧ t.ie = s.ie ∧ t.nmode = s.nmode ∧ t.done = s.done ∧ t.flag = s.flag
    ∧ t.nonceValid = s.nonceValid ∧ t.busyErr = s.busyErr ∧ t.err = s.err ∧ t.lastCmd = s.lastCmd ∧ t.nonce = s.nonce
    ∧ t.latch = s.latch

/-! ### Operands -/

/-- The source operands of a command in the order FB, FC, FD, FE, with their roles (R95, R102). -/
def sourcesOf : Instr → List Src
  | .fnew _ v m => [.vs v, .vs m]
  | .fadd _ a b => [.fs a, .fs b]
  | .fsub _ a b => [.fs a, .fs b]
  | .fmul _ a b => [.fs a, .fs b]
  | .fpow _ a e => [.fs a, .vs e]
  | .finv _ a => [.fs a]
  | .fdiv _ a b => [.fs a, .fs b]
  | .feq a b => [.vs a, .vs b]
  | .pinf _ a b => [.fs a, .fs b]
  | .pnew _ x y a b => [.fs x, .fs y, .fs a, .fs b]
  | .padd _ p q => [.ps p, .ps q]
  | .pneg _ p => [.ps p]
  | .peq p q => [.ps p, .ps q]
  | .pldg _ => []
  | .pmul _ p k => [.ps p, .vs k]
  | .sred _ a => [.vs a]
  | .ekey _ sec => [.vs sec]
  | .esign _ _ sec z => [.vs sec, .vs z]
  | .everify q z r s => [.ps q, .vs z, .vs r, .vs s]

/-- A value register that holds a field element (R21). -/
abbrev VReg.isField (x : VReg) : Prop := x.valid = true ∧ x.mod ≠ 0#256

/-! ### Encodings -/

/-- The command word with an OPC and five field values, as a number (R91). -/
def commandWord (opc fa fb fc fd fe : Nat) : Word :=
  BitVec.ofNat 32 (opc + fa * 2 ^ 8 + fb * 2 ^ 12 + fc * 2 ^ 16 + fd * 2 ^ 20 + fe * 2 ^ 24)

/-- Field FA (0) to FE (4) of a word (R91). -/
def fieldAt (w : Word) (n : Fin 5) : BitVec 4 := w.extractLsb' (8 + 4 * n.val) 4

/-- The role of field FA (0) to FE (4) of a row (R95). -/
def roleAt (o : Op) (n : Fin 5) : Role :=
  match n with
  | 0 => o.roles.1
  | 1 => o.roles.2.1
  | 2 => o.roles.2.2.1
  | 3 => o.roles.2.2.2.1
  | 4 => o.roles.2.2.2.2

/-- The five conditions of R96. -/
def IllegalWord (w : Word) : Prop :=
  (∀ o : Op, w.extractLsb' 0 8 ≠ o.opc) ∨ w.extractLsb' 28 4 ≠ 0#4
    ∨ ∃ o : Op, w.extractLsb' 0 8 = o.opc
        ∧ ((∃ n, roleAt o n = .unused ∧ fieldAt w n ≠ 0#4)
          ∨ (∃ n, (roleAt o n = .pd ∨ roleAt o n = .ps) ∧ (fieldAt w n).getLsbD 3 = true)
          ∨ (o = .esign ∧ fieldAt w 0 = fieldAt w 1))

/-! ### Signing -/

/-- A nonce `k` for which steps 2 to 5 of R213 answer the signature `(r, sg)`. -/
def SignedWith (sec z k r sg : Nat) : Prop :=
  ∃ R, smul pointG k = .ok R ∧ r = R.x.toNat ∧ 1 ≤ r ∧ r < secpN
    ∧ sg = (z + r * sec) * (k ^ (secpN - 2) % secpN) % secpN ∧ sg ≠ 0

/-- A degenerate nonce (R18, R213): `r = 0`, `r >= N` or `s = 0`. -/
def DegenerateNonce (sec z k : Nat) : Prop :=
  ∃ R, smul pointG k = .ok R
    ∧ (R.x.toNat = 0 ∨ secpN ≤ R.x.toNat ∨ (z + R.x.toNat * sec) * (k ^ (secpN - 2) % secpN) % secpN = 0)

end Sys2Proof.Machine
end

