-- ==== Sys2Proof/Certificates/Slice0/Obligations.lean ====
section
/-! DEFINITION. The statements for the provers, one `def Obligations.<Name> : Prop` each; OBLIGATIONS.json lists them. -/

open Sys2Proof Sys2Proof.Machine

/-! ### Encoding -/

/-- The words 30_encoding.md R104 and 95_test_vectors.md section 2 spell out decode as they say. -/
def Obligations.SpecExampleWordsDecode : Prop :=
  decode 0x00010202#32 = .ok (.fadd 2 0 1) ∧ decode 0x00043008#32 = .ok (.feq 3 4)
    ∧ decode 0x00000112#32 = .ok (.padd 1 0 0) ∧ decode 0x00103221#32 = .ok (.esign 2 3 0 1)
    ∧ decode 0x03210022#32 = .ok (.everify 0 1 2 3) ∧ decode 0x08765011#32 = .ok (.pnew 0 5 6 7 8)
    ∧ decode 0x00087310#32 = .ok (.pinf 3 7 8) ∧ decode 0x00090218#32 = .ok (.pmul 2 0 9)
    ∧ decode 0x00001219#32 = .ok (.sred 2 1) ∧ decode 0x00000415#32 = .ok (.pldg 4)
    ∧ decode 0x00000020#32 = .ok (.ekey 0 0)

/-- Decoding the word of a well-formed command gives it back, for every command and every register operand (R91, R95). -/
def Obligations.DecodeOfEncodeIsTheCommand : Prop :=
  ∀ i : Instr, i.wellFormed = true → decode (encode i) = .ok i

/-- Every word the decoder accepts is the word of the command it reads, which is well formed: no bit is dropped (R96). -/
def Obligations.AcceptedWordsEncodeBack : Prop :=
  ∀ (w : Word) (i : Instr), decode w = .ok i → encode i = w ∧ i.wellFormed = true

/-- R99, whole: what the masks and matches are, when a word selects a row, and that no word selects two. -/
def Obligations.WordsSelectRowsByMaskAndMatch : Prop :=
  (∀ (w : Word) (o : Op), (∃ i, decode w = .ok i ∧ i.op = o) ↔
      (w &&& o.mask = o.matchBits ∧ (o = .esign → w.extractLsb' 8 4 ≠ w.extractLsb' 12 4)))
  ∧ (∀ o : Op, o.mask.extractLsb' 28 4 = 0xF#4 ∧ o.mask.extractLsb' 0 8 = 0xFF#8
      ∧ (∀ n, fieldAt o.mask n = if roleAt o n = .unused then 0xF#4 else if roleAt o n = .pd ∨ roleAt o n = .ps then 0x8#4
          else 0x0#4)
      ∧ o.matchBits.extractLsb' 0 8 = o.opc ∧ o.matchBits.extractLsb' 8 24 = 0#24)
  ∧ (∀ (w : Word) (o o' : Op), w &&& o.mask = o.matchBits → w &&& o'.mask = o'.matchBits → o = o')
  ∧ (Op.fadd.matchBits = 0x00000002#32 ∧ Op.fadd.mask = 0xFFF000FF#32)
  ∧ (Op.padd.matchBits = 0x00000012#32 ∧ Op.padd.mask = 0xFFF888FF#32)

/-- R96, whole: a word is illegal exactly under the five conditions; it is accepted all the same, and it completes with
ILLEGAL_CMD and no other effect. -/
def Obligations.IllegalWordsCompleteWithIllegalCmd : Prop :=
  ∀ w : Word,
    (IllegalWord w ↔ ∀ i, decode w ≠ .ok i)
    ∧ (IllegalWord w →
        (∀ (s : State) (rest : List HostOp), s.busy = false → s.host = .write 0x00C#12 4 w :: rest →
          ∃ t, step s = .next t ∧ t.busy = true ∧ t.lastCmd = w ∧ t.latch = some { word := w, nmode := s.nmode })
        ∧ ∀ (s : State) (l : Latch), s.latch = some l → l.word = w → (s.delay = 0 ∨ s.host = []) →
          ∃ t, step s = .next t ∧ RaisedOnly .illegalCmd s t)

/-! ### The step -/

/-- One step is the completion of the latched command when it is due, or one host input, or nothing (R73, R240, R257); and
serving a host input is the bus access it names, at every offset and width and with every datum, or one poll of STATUS by WAIT
(30_encoding.md R105), or the hardware reset (R281). The latency `delay`, the list `host`, the polling of WAIT and the reset
input as an entry of the list are the model's own (log entries 1, 3, 16 and 19). -/
def Obligations.StepRunsTheDecodedCommand : Prop :=
  (∀ (s : State) (l : Latch) (i : Instr), s.latch = some l → decode l.word = .ok i → (s.delay = 0 ∨ s.host = []) →
      step s = exec i s)
  ∧ (∀ (s : State) (l : Latch) (op : HostOp) (rest : List HostOp), s.latch = some l → s.host = op :: rest → s.delay ≠ 0 →
      step s = .next (({ s with delay := s.delay - 1 } : State).serve op rest))
  ∧ (∀ (s : State) (op : HostOp) (rest : List HostOp), s.latch = none → s.host = op :: rest →
      step s = .next (s.serve op rest))
  ∧ (∀ s : State, s.latch = none → s.host = [] → step s = .next s)
  ∧ (∀ (s : State) (rest : List HostOp),
      (∀ (off : BitVec 12) (size : Nat), s.serve (.read off size) rest = ({ s with host := rest } : State).busRead off size)
      ∧ (∀ (off : BitVec 12) (size : Nat) (d : Word),
        s.serve (.write off size d) rest = ({ s with host := rest } : State).busWrite off size d)
      ∧ s.serve .wait rest
          = { s with host := if s.busy then .wait :: rest else rest, resp := some (.data s.statusWord) }
      ∧ (s.serve .hwReset rest).host = rest ∧ SameCore State.reset (s.serve .hwReset rest))

/-- R32, whole: what a write and a read of CMD/LASTCMD do. -/
def Obligations.CmdRegisterIssuesCommands : Prop :=
  (∀ (s : State) (w : Word) (rest : List HostOp), s.busy = false → s.host = .write 0x00C#12 4 w :: rest →
    ∃ t, step s = .next t ∧ t.lastCmd = w ∧ t.latch = some { word := w, nmode := s.nmode } ∧ t.busy = true
      ∧ t.done = false ∧ t.err = none ∧ t.vregs = s.vregs ∧ t.pregs = s.pregs ∧ t.flag = s.flag
      ∧ t.nonceValid = s.nonceValid ∧ t.nonce = s.nonce ∧ t.busyErr = s.busyErr ∧ t.ie = s.ie ∧ t.nmode = s.nmode
      ∧ t.host = rest)
  ∧ (∀ (s : State) (w : Word) (rest : List HostOp), s.busy = true → s.delay ≠ 0 → s.host = .write 0x00C#12 4 w :: rest →
    ∃ t, step s = .next t ∧ SameCore { s with busyErr := true } t)
  ∧ (∀ (s : State) (rest : List HostOp), (s.busy = false ∨ s.delay ≠ 0) → s.host = .read 0x00C#12 4 :: rest →
    ∃ t, step s = .next t ∧ t.resp = some (.data s.lastCmd) ∧ SameCore s t)
  ∧ State.reset.lastCmd = 0x00000000#32

/-- Writes to CMD, to a NONCE word and to any word of the value window while BUSY = 1 are dropped and set BUSYERR
(20_memory.md R72(a)). -/
def Obligations.WritesWhileBusyAreDropped : Prop :=
  ∀ (s : State) (off : BitVec 12) (d : Word), s.busy = true → off.toNat % 4 = 0 →
    (off.toNat = 0x00C ∨ (0x020 ≤ off.toNat ∧ off.toNat ≤ 0x03C) ∨ (0x100 ≤ off.toNat ∧ off.toNat ≤ 0x4FC)) →
    SameCore { s with busyErr := true } (s.busWrite off 4 d) ∧ (s.busWrite off 4 d).resp = some .done

/-- R66, whole: writes to read-only words change nothing, never answer a bus error, and set BUSYERR only for a `mod` word
while BUSY = 1. A STATUS write changes nothing but DONE and BUSYERR, which it can only clear. -/
def Obligations.ReadOnlyWordsIgnoreWrites : Prop :=
  ∀ (s : State) (off : BitVec 12) (d : Word), off.toNat % 4 = 0 →
    ((off.toNat = 0x000 ∨ off.toNat = 0x010 ∨ off.toNat = 0x014 ∨ 0x800 ≤ off.toNat) →
      SameCore s (s.busWrite off 4 d) ∧ (s.busWrite off 4 d).resp = some .done)
    ∧ ((∃ (i : VIdx) (j : Fin 8), off.toNat = 0x120 + 0x40 * i.val + 4 * j.val) →
      SameCore (if s.busy then { s with busyErr := true } else s) (s.busWrite off 4 d)
      ∧ (s.busWrite off 4 d).resp = some .done)
    ∧ (off.toNat = 0x008 →
      SameCore { s with done := s.done && !(d.getLsbD 1), busyErr := s.busyErr && !(d.getLsbD 4) } (s.busWrite off 4 d)
      ∧ (s.busWrite off 4 d).resp = some .done)

/-- R69, whole: a read changes no state of the core, and a read of a word repeated after any number of other reads returns the
same value, except the value and point windows while BUSY = 1. -/
def Obligations.ReadsHaveNoSideEffects : Prop :=
  ∀ (s : State) (off : BitVec 12) (size : Nat),
    SameCore s (s.busRead off size)
    ∧ ((s.busy = false ∨ off.toNat < 0x100 ∨ (0x500 ≤ off.toNat ∧ off.toNat < 0x800)) →
        ∀ others : List (BitVec 12 × Nat),
          ((others.foldl (fun u r => u.busRead r.1 r.2) (s.busRead off size)).busRead off size).resp
            = (s.busRead off size).resp)

/-- While a command is in progress no step changes its operands, NONCE, the latch, FLAG or ERR, so the command sees the
operands as they stood at its acceptance (20_memory.md R72, R74). -/
def Obligations.OperandsFrozenWhileBusy : Prop :=
  ∀ s t : State, step s = .next t → s.busy = true → t.busy = true →
    t.vregs = s.vregs ∧ t.pregs = s.pregs ∧ t.nonce = s.nonce ∧ t.nonceValid = s.nonceValid ∧ t.latch = s.latch
      ∧ t.flag = s.flag ∧ t.err = s.err ∧ t.lastCmd = s.lastCmd

/-- Unless a reset is among the pending host inputs, the completion of the command in progress comes, as the step after at
most `delay` others; and with or without a reset BUSY is 0 after at most `delay + 1` steps. That a completion always comes is
60_exceptions.md R240 and 70_reset_and_hazards.md R292, that a reset aborts it is R281; the bound is the model's own latency
(log entry 3, DESIGN CHOICE), which the spec does not give. -/
def Obligations.EveryAcceptedCommandCompletes : Prop :=
  (∀ (s : State) (l : Latch), s.latch = some l → HostOp.hwReset ∉ s.host →
    (∀ d : Word, d.getLsbD 31 = true → HostOp.write 0x004#12 4 d ∉ s.host) →
    ∃ k, k ≤ s.delay ∧ ∃ u t : State, Host.Core.run Sys2Proof.core k s = .next u ∧ u.latch = some l
      ∧ step u = completeLatched l u ∧ step u = .next t ∧ t.busy = false ∧ t.done = true)
  ∧ ∀ s : State, s.busy = true →
    ∃ k, k ≤ s.delay + 1 ∧ ∃ t, Host.Core.run Sys2Proof.core k s = .next t ∧ State.busy t = false

/-- Every command answers a next state in every state, with BUSY = 0 and DONE = 1 (60_exceptions.md R240, R252). -/
def Obligations.EveryCommandAnswersANextState : Prop :=
  ∀ (i : Instr) (s : State), ∃ t, exec i s = .next t ∧ t.busy = false ∧ t.done = true

/-! ### Reset, control and status -/

/-- The state after reset, field by field (10_state.md R39). -/
def Obligations.ResetStateValues : Prop :=
  (∀ i, State.reset.vreg i = { val := 0#256, mod := 0#256, valid := false })
  ∧ (∀ j, State.reset.preg j
      = { pt := { inf := false, x := 0#256, y := 0#256, a := 0#256, b := 0#256, p := 0#256 }, valid := false })
  ∧ State.reset.ie = false ∧ State.reset.nmode = false ∧ State.reset.busy = false ∧ State.reset.done = false
  ∧ State.reset.flag = false ∧ State.reset.nonceValid = false ∧ State.reset.busyErr = false
  ∧ State.reset.errCode = 0x00#8 ∧ State.reset.lastCmd = 0x00000000#32 ∧ State.reset.nonce = 0#256
  ∧ State.reset.latch = none ∧ State.reset.locValue (locate 0x000#12) = 0x45434331#32

/-- R281, whole: both reset sources bring every state of the core to its reset value, from any state, also while BUSY = 1;
an aborted command sets no DONE and raises no irq. -/
def Obligations.ResetFromAnyState : Prop :=
  ∀ (s : State) (d : Word) (rest : List HostOp),
    (d.getLsbD 31 = true → SameCore State.reset (s.busWrite 0x004#12 4 d))
    ∧ SameCore State.reset (s.serve .hwReset rest)
    ∧ ∀ t, SameCore State.reset t →
        t.ctrlWord = 0#32 ∧ t.statusWord = 0#32 ∧ t.lastCmd = 0#32 ∧ t.nonce = 0#256 ∧ t.irq = false
        ∧ (∀ i, (t.vreg i).valid = false) ∧ ∀ j, (t.preg j).valid = false

/-- What writes to CTRL without SRST and to STATUS do, busy or not (10_state.md R30, R31). -/
def Obligations.ControlAndStatusWrites : Prop :=
  (∀ (s : State) (d : Word), d.getLsbD 31 = false →
    SameCore { s with ie := d.getLsbD 0, nmode := d.getLsbD 1 } (s.busWrite 0x004#12 4 d)
    ∧ (s.busWrite 0x004#12 4 d).ctrlWord = d &&& 0x00000003#32)
  ∧ (∀ (s : State) (d : Word),
    SameCore { s with done := s.done && !(d.getLsbD 1), busyErr := s.busyErr && !(d.getLsbD 4) } (s.busWrite 0x008#12 4 d))

/-- The layout of STATUS and CTRL as they read, the code the host reads in STATUS.ERR for each error kind, and the constant ID
(10_state.md R30, R31, R33; 60_exceptions.md R242). -/
def Obligations.StatusAndControlLayout : Prop :=
  ∀ s : State,
    s.statusWord.getLsbD 0 = s.busy ∧ s.statusWord.getLsbD 1 = s.done ∧ s.statusWord.getLsbD 2 = s.flag
    ∧ s.statusWord.getLsbD 3 = s.nonceValid ∧ s.statusWord.getLsbD 4 = s.busyErr
    ∧ s.statusWord.extractLsb' 5 3 = 0#3 ∧ s.statusWord.extractLsb' 8 8 = s.errCode
    ∧ s.statusWord.extractLsb' 16 16 = 0#16
    ∧ (∀ row ∈ ([(none, 0x00#8), (some .valueRange, 0x01#8), (some .fieldMismatch, 0x02#8), (some .curveMismatch, 0x03#8),
          (some .notOnCurve, 0x04#8), (some .divByZero, 0x05#8), (some .invalidScalar, 0x06#8), (some .invalidKey, 0x07#8),
          (some .illegalCmd, 0x10#8), (some .uninitOperand, 0x11#8), (some .operandKind, 0x12#8),
          (some .nonceEmpty, 0x13#8), (some .retryExhausted, 0x14#8)] : List (Option Err × BitVec 8)),
        s.err = row.1 → s.errCode = row.2)
    ∧ s.ctrlWord.getLsbD 0 = s.ie ∧ s.ctrlWord.getLsbD 1 = s.nmode ∧ s.ctrlWord.extractLsb' 2 30 = 0#30
    ∧ (s.busRead 0x008#12 4).resp = some (.data s.statusWord) ∧ (s.busRead 0x004#12 4).resp = some (.data s.ctrlWord)
    ∧ (s.busRead 0x000#12 4).resp = some (.data 0x45434331#32)

/-- R34 and R35, whole: the validity views. -/
def Obligations.ValidityViews : Prop :=
  ∀ s : State,
    (∃ w : Word, (s.busRead 0x010#12 4).resp = some (.data w) ∧ (∀ i : VIdx, w.getLsbD i.val = (s.vreg i).valid)
      ∧ ∀ b, 16 ≤ b → w.getLsbD b = false)
    ∧ (∃ w : Word, (s.busRead 0x014#12 4).resp = some (.data w) ∧ (∀ j : PIdx, w.getLsbD j.val = (s.preg j).valid)
      ∧ ∀ b, 8 ≤ b → w.getLsbD b = false)
    ∧ ∀ d : Word, SameCore s (s.busWrite 0x010#12 4 d) ∧ SameCore s (s.busWrite 0x014#12 4 d)

/-- A write of a NONCE word while idle, and reads of NONCE (10_state.md R36). -/
def Obligations.NonceWordWrites : Prop :=
  ∀ (s : State) (j : Fin 8) (d : Word),
    (s.busy = false →
      ∃ n : W256, SameCore { s with nonce := n, nonceValid := true } (s.busWrite (BitVec.ofNat 12 (0x020 + 4 * j.val)) 4 d)
        ∧ n.extractLsb' (32 * j.val) 32 = d
        ∧ ∀ k : Fin 8, k ≠ j → n.extractLsb' (32 * k.val) 32 = s.nonce.extractLsb' (32 * k.val) 32)
    ∧ (s.busRead (BitVec.ofNat 12 (0x020 + 4 * j.val)) 4).resp = some (.data 0#32)

/-- R65, whole: a host write to a `val` word makes an integer of the register and keeps its other seven words; while
BUSY = 1 it is dropped. -/
def Obligations.HostWriteMakesInteger : Prop :=
  ∀ (s : State) (i : VIdx) (j : Fin 8) (d : Word),
    (s.busy = false →
      ∃ x : VReg, SameCore (s.setV i x) (s.busWrite (BitVec.ofNat 12 (0x100 + 0x40 * i.val + 4 * j.val)) 4 d)
        ∧ x.mod = 0#256 ∧ x.valid = true ∧ x.val.extractLsb' (32 * j.val) 32 = d
        ∧ ∀ k : Fin 8, k ≠ j → x.val.extractLsb' (32 * k.val) 32 = (s.vreg i).val.extractLsb' (32 * k.val) 32)
    ∧ (s.busy = true →
      SameCore { s with busyErr := true } (s.busWrite (BitVec.ofNat 12 (0x100 + 0x40 * i.val + 4 * j.val)) 4 d))

/-- Eight word writes, least significant word first, load a 256-bit number and nothing else (20_memory.md R64, R65;
70_reset_and_hazards.md R287). -/
def Obligations.EightWordWritesLoadAValue : Prop :=
  ∀ (s : State) (i : VIdx) (n : W256), s.busy = false →
    let t := (List.finRange 8).foldl
      (fun u j => u.busWrite (BitVec.ofNat 12 (0x100 + 0x40 * i.val + 4 * j.val)) 4 (n.extractLsb' (32 * j.val) 32)) s
    SameCore (s.setV i { val := n, mod := 0#256, valid := true }) t

/-- While idle the window shows the registers, word by word (20_memory.md R62, R63, R64). -/
def Obligations.WindowShowsTheRegisters : Prop :=
  ∀ s : State, s.busy = false →
    (∀ (i : VIdx) (j : Fin 8),
      (s.busRead (BitVec.ofNat 12 (0x100 + 0x40 * i.val + 4 * j.val)) 4).resp
          = some (.data ((s.vreg i).val.extractLsb' (32 * j.val) 32))
      ∧ (s.busRead (BitVec.ofNat 12 (0x120 + 0x40 * i.val + 4 * j.val)) 4).resp
          = some (.data ((s.vreg i).mod.extractLsb' (32 * j.val) 32)))
    ∧ ∀ j : PIdx,
      (s.busRead (BitVec.ofNat 12 (0x800 + 0x100 * j.val)) 4).resp
          = some (.data (if (s.preg j).pt.inf then 1#32 else 0#32))
      ∧ ∀ k : Fin 8,
        (s.busRead (BitVec.ofNat 12 (0x820 + 0x100 * j.val + 4 * k.val)) 4).resp
            = some (.data ((s.preg j).pt.x.extractLsb' (32 * k.val) 32))
        ∧ (s.busRead (BitVec.ofNat 12 (0x840 + 0x100 * j.val + 4 * k.val)) 4).resp
            = some (.data ((s.preg j).pt.y.extractLsb' (32 * k.val) 32))
        ∧ (s.busRead (BitVec.ofNat 12 (0x860 + 0x100 * j.val + 4 * k.val)) 4).resp
            = some (.data ((s.preg j).pt.a.extractLsb' (32 * k.val) 32))
        ∧ (s.busRead (BitVec.ofNat 12 (0x880 + 0x100 * j.val + 4 * k.val)) 4).resp
            = some (.data ((s.preg j).pt.b.extractLsb' (32 * k.val) 32))
        ∧ (s.busRead (BitVec.ofNat 12 (0x8A0 + 0x100 * j.val + 4 * k.val)) 4).resp
            = some (.data ((s.preg j).pt.p.extractLsb' (32 * k.val) 32))

/-- Reserved offsets and the NONCE words read 0, and writes to reserved offsets are ignored (20_memory.md R68). The words of
the point window that read as zero are claimed only while idle (log entry 5). -/
def Obligations.ReservedOffsetsReadZero : Prop :=
  ∀ (s : State) (off : BitVec 12) (d : Word), off.toNat % 4 = 0 →
    ((off.toNat = 0x018 ∨ off.toNat = 0x01C ∨ (0x040 ≤ off.toNat ∧ off.toNat ≤ 0x0FC)
        ∨ (0x500 ≤ off.toNat ∧ off.toNat ≤ 0x7FC)) →
      (s.busRead off 4).resp = some (.data 0#32) ∧ SameCore s (s.busWrite off 4 d))
    ∧ ((0x020 ≤ off.toNat ∧ off.toNat ≤ 0x03C) → (s.busRead off 4).resp = some (.data 0#32))
    ∧ ((0x800 ≤ off.toNat ∧ ((0x004 ≤ off.toNat % 0x100 ∧ off.toNat % 0x100 ≤ 0x01C) ∨ 0x0C0 ≤ off.toNat % 0x100)) →
      (s.busy = false → (s.busRead off 4).resp = some (.data 0#32)) ∧ SameCore s (s.busWrite off 4 d))

/-- R67, whole: an access that is not 32 bits wide at a multiple of 4 gets a bus error and changes nothing; every other
access is answered. -/
def Obligations.UndefinedAccessesGetBusErrors : Prop :=
  ∀ (s : State) (off : BitVec 12) (size : Nat) (d : Word),
    ((size ≠ 4 ∨ off.toNat % 4 ≠ 0) →
      s.busRead off size = { s with resp := some .busError } ∧ s.busWrite off size d = { s with resp := some .busError })
    ∧ (size = 4 → off.toNat % 4 = 0 →
      (∃ w, (s.busRead off size).resp = some (.data w)) ∧ (s.busWrite off size d).resp = some .done)

/-- The interrupt output follows IE and DONE at every event that changes them (60_exceptions.md R245, R246). -/
def Obligations.InterruptFollowsEnableAndDone : Prop :=
  (∀ (i : Instr) (s t : State), exec i s = .next t → t.irq = s.ie)
  ∧ (∀ (s : State) (d : Word), d.getLsbD 1 = true → (s.busWrite 0x008#12 4 d).irq = false)
  ∧ (∀ (s : State) (d : Word), d.getLsbD 1 = false → (s.busWrite 0x008#12 4 d).irq = s.irq)
  ∧ (∀ (s : State) (d : Word), d.getLsbD 31 = false → (s.busWrite 0x004#12 4 d).irq = (d.getLsbD 0 && s.done))
  ∧ (∀ (s : State) (w : Word), s.busy = false → (s.busWrite 0x00C#12 4 w).irq = false)

/-! ### Invariants and rules of the whole machine -/

/-- Every step keeps the register invariants: a field element is below its modulus (10_state.md R22), and a point satisfies
(a) to (d) of R25. -/
def Obligations.StepKeepsRegisterInvariants : Prop :=
  ∀ s t : State, s.Inv → step s = .next t → t.Inv

/-- The reset state meets the register invariants. -/
def Obligations.ResetMeetsRegisterInvariants : Prop := State.reset.Inv

/-- The reserved code INVALID_SCALAR is never written by any step (60_exceptions.md R242, R243). -/
def Obligations.ReservedErrorCodeNeverWritten : Prop :=
  ∀ s t : State, step s = .next t → s.err ≠ some .invalidScalar → t.err ≠ some .invalidScalar

/-- A step that changes FLAG is the completion of FEQ, PEQ or EVERIFY with OK, or a reset (10_state.md R29). -/
def Obligations.FlagWrittenOnlyByComparisons : Prop :=
  ∀ s t : State, step s = .next t → t.flag ≠ s.flag →
    (∃ l i, s.latch = some l ∧ decode l.word = .ok i ∧ (i.op = .feq ∨ i.op = .peq ∨ i.op = .everify)
      ∧ exec i s = .next t ∧ CompletedWith none t)
    ∨ SameCore State.reset t

/-- A step that changes a point register is the completion of one of the seven commands that write them, with OK, or a
reset; so no other host input changes one (10_state.md R26). -/
def Obligations.PointRegistersWrittenOnlyByPointCommands : Prop :=
  ∀ s t : State, step s = .next t → t.pregs ≠ s.pregs →
    (∃ l i, s.latch = some l ∧ decode l.word = .ok i
      ∧ (i.op = .pinf ∨ i.op = .pnew ∨ i.op = .padd ∨ i.op = .pneg ∨ i.op = .pldg ∨ i.op = .pmul ∨ i.op = .ekey)
      ∧ exec i s = .next t ∧ CompletedWith none t)
    ∨ SameCore State.reset t

/-- A command that raises writes no register and no FLAG; only a nonce ESIGN consumed stays consumed (60_exceptions.md
R241). -/
def Obligations.ErrorsArePrecise : Prop :=
  ∀ (i : Instr) (s t : State), exec i s = .next t → t.err ≠ none →
    t.vregs = s.vregs ∧ t.pregs = s.pregs ∧ t.flag = s.flag ∧ ControlKept s t ∧ (i.op ≠ .esign → NonceKept s t)
      ∧ (t.nonceValid = true → s.nonceValid = true)

/-- A source register that holds no value gives UNINIT_OPERAND, before any other check after decoding (30_encoding.md R102,
60_exceptions.md R244). -/
def Obligations.UninitialisedOperandsReported : Prop :=
  ∀ (i : Instr) (s : State), (∃ x ∈ sourcesOf i, Src.valid s x = false) →
    ∃ t, exec i s = .next t ∧ RaisedOnly .uninitOperand s t

/-- When every source holds a value, an integer in a field with role `fs` gives OPERAND_KIND, before the command's own
checks (30_encoding.md R103, 60_exceptions.md R244). -/
def Obligations.IntegerOperandsReported : Prop :=
  ∀ (i : Instr) (s : State), (∀ x ∈ sourcesOf i, Src.valid s x = true) →
    (∃ v : VIdx, Src.fs v ∈ sourcesOf i ∧ (s.vreg v).mod = 0#256) →
    ∃ t, exec i s = .next t ∧ RaisedOnly .operandKind s t

/-! ### Field commands -/

/-- FNEW (40_field.md R122). -/
def Obligations.FnewBuildsAFieldElement : Prop :=
  ∀ (d v m : VIdx) (s : State),
    encode (.fnew d v m) = commandWord 0x01 d v m 0 0
    ∧ ((s.vreg v).valid = true → (s.vreg m).valid = true →
      ((s.vreg v).val.toNat < (s.vreg m).val.toNat →
        ∃ t, exec (.fnew d v m) s = .next t ∧ t.vreg d = { val := (s.vreg v).val, mod := (s.vreg m).val, valid := true }
          ∧ WroteOnlyV [d] s t)
      ∧ ((s.vreg m).val.toNat ≤ (s.vreg v).val.toNat →
        ∃ t, exec (.fnew d v m) s = .next t ∧ RaisedOnly .valueRange s t))

/-- FADD (40_field.md R123). -/
def Obligations.FaddAddsModulo : Prop :=
  ∀ (d a b : VIdx) (s : State),
    encode (.fadd d a b) = commandWord 0x02 d a b 0 0
    ∧ ((s.vreg a).isField → (s.vreg b).isField →
      ((s.vreg a).mod = (s.vreg b).mod →
        ∃ t, exec (.fadd d a b) s = .next t
          ∧ (t.vreg d).val.toNat = ((s.vreg a).val.toNat + (s.vreg b).val.toNat) % (s.vreg a).mod.toNat
          ∧ (t.vreg d).mod = (s.vreg a).mod ∧ (t.vreg d).valid = true ∧ WroteOnlyV [d] s t)
      ∧ ((s.vreg a).mod ≠ (s.vreg b).mod →
        ∃ t, exec (.fadd d a b) s = .next t ∧ RaisedOnly .fieldMismatch s t))

/-- FSUB (40_field.md R124): the result is the `mod` of 00_scope.md R13, also for a negative difference. -/
def Obligations.FsubSubtractsModulo : Prop :=
  ∀ (d a b : VIdx) (s : State),
    encode (.fsub d a b) = commandWord 0x03 d a b 0 0
    ∧ ((s.vreg a).isField → (s.vreg b).isField →
      ((s.vreg a).mod = (s.vreg b).mod →
        ∃ t, exec (.fsub d a b) s = .next t
          ∧ ((t.vreg d).val.toNat : Int) = ((s.vreg a).val.toNat - (s.vreg b).val.toNat : Int) % (s.vreg a).mod.toNat
          ∧ (t.vreg d).mod = (s.vreg a).mod ∧ (t.vreg d).valid = true ∧ WroteOnlyV [d] s t)
      ∧ ((s.vreg a).mod ≠ (s.vreg b).mod →
        ∃ t, exec (.fsub d a b) s = .next t ∧ RaisedOnly .fieldMismatch s t))

/-- FMUL (40_field.md R125, R126): the ordinary reduced product for every modulus. -/
def Obligations.FmulMultipliesModulo : Prop :=
  ∀ (d a b : VIdx) (s : State),
    encode (.fmul d a b) = commandWord 0x04 d a b 0 0
    ∧ ((s.vreg a).isField → (s.vreg b).isField →
      ((s.vreg a).mod = (s.vreg b).mod →
        ∃ t, exec (.fmul d a b) s = .next t
          ∧ (t.vreg d).val.toNat = ((s.vreg a).val.toNat * (s.vreg b).val.toNat) % (s.vreg a).mod.toNat
          ∧ (t.vreg d).mod = (s.vreg a).mod ∧ (t.vreg d).valid = true ∧ WroteOnlyV [d] s t)
      ∧ ((s.vreg a).mod ≠ (s.vreg b).mod →
        ∃ t, exec (.fmul d a b) s = .next t ∧ RaisedOnly .fieldMismatch s t))

/-- FPOW (40_field.md R127, R128): the plain power with the exponent reduced modulo `m - 1`, and 0 for `m = 1`. -/
def Obligations.FpowRaisesToReducedExponent : Prop :=
  ∀ (d a e : VIdx) (s : State),
    encode (.fpow d a e) = commandWord 0x05 d a e 0 0
    ∧ ((s.vreg a).isField → (s.vreg e).valid = true →
      ∃ t, exec (.fpow d a e) s = .next t
        ∧ (t.vreg d).val.toNat
            = (if (s.vreg a).mod.toNat = 1 then 0
               else (s.vreg a).val.toNat ^ ((s.vreg e).val.toNat % ((s.vreg a).mod.toNat - 1)) % (s.vreg a).mod.toNat)
        ∧ (t.vreg d).mod = (s.vreg a).mod ∧ (t.vreg d).valid = true ∧ WroteOnlyV [d] s t)

/-- FINV (40_field.md R129, R130): the Fermat power for every modulus, and DIV_BY_ZERO for the zero element. -/
def Obligations.FinvIsTheFermatPower : Prop :=
  ∀ (d a : VIdx) (s : State),
    encode (.finv d a) = commandWord 0x06 d a 0 0 0
    ∧ ((s.vreg a).isField → (s.vreg a).Ok →
      ((s.vreg a).val ≠ 0#256 →
        ∃ t, exec (.finv d a) s = .next t
          ∧ (t.vreg d).val.toNat = (s.vreg a).val.toNat ^ ((s.vreg a).mod.toNat - 2) % (s.vreg a).mod.toNat
          ∧ (t.vreg d).mod = (s.vreg a).mod ∧ (t.vreg d).valid = true ∧ WroteOnlyV [d] s t)
      ∧ ((s.vreg a).val = 0#256 → ∃ t, exec (.finv d a) s = .next t ∧ RaisedOnly .divByZero s t))

/-- FDIV (40_field.md R131): FIELD_MISMATCH before DIV_BY_ZERO, else the dividend times the divisor's Fermat power. -/
def Obligations.FdivMultipliesByTheFermatPower : Prop :=
  ∀ (d a b : VIdx) (s : State),
    encode (.fdiv d a b) = commandWord 0x07 d a b 0 0
    ∧ ((s.vreg a).isField → (s.vreg b).isField → (s.vreg b).Ok →
      ((s.vreg a).mod = (s.vreg b).mod → (s.vreg b).val ≠ 0#256 →
        ∃ t, exec (.fdiv d a b) s = .next t
          ∧ (t.vreg d).val.toNat
              = ((s.vreg a).val.toNat * ((s.vreg b).val.toNat ^ ((s.vreg a).mod.toNat - 2) % (s.vreg a).mod.toNat))
                  % (s.vreg a).mod.toNat
          ∧ (t.vreg d).mod = (s.vreg a).mod ∧ (t.vreg d).valid = true ∧ WroteOnlyV [d] s t)
      ∧ ((s.vreg a).mod = (s.vreg b).mod → (s.vreg b).val = 0#256 →
        ∃ t, exec (.fdiv d a b) s = .next t ∧ RaisedOnly .divByZero s t)
      ∧ ((s.vreg a).mod ≠ (s.vreg b).mod →
        ∃ t, exec (.fdiv d a b) s = .next t ∧ RaisedOnly .fieldMismatch s t))

/-- FEQ (40_field.md R132): FLAG is 1 exactly when value and modulus are both equal, for either kind; R132 says so of FEQ
beside the general sentence of 30_encoding.md R103 (log entry 28). -/
def Obligations.FeqComparesValueAndModulus : Prop :=
  ∀ (a b : VIdx) (s : State),
    encode (.feq a b) = commandWord 0x08 0 a b 0 0
    ∧ ((s.vreg a).valid = true → (s.vreg b).valid = true →
      ∃ t, exec (.feq a b) s = .next t
        ∧ (t.flag = true ↔ (s.vreg a).val = (s.vreg b).val ∧ (s.vreg a).mod = (s.vreg b).mod) ∧ WroteOnlyFlag s t)

/-- The source's field laws as the commands have them (40_field.md R134): `(a + b) - b = a` for every modulus, and
`a * inv(a) = 1` for a prime modulus. -/
def Obligations.FieldLawsOfTheSource : Prop :=
  (∀ (d a b : VIdx) (s : State), (s.vreg a).isField → (s.vreg b).isField → (s.vreg a).Ok → (s.vreg b).Ok →
    (s.vreg a).mod = (s.vreg b).mod → d ≠ b →
    ∃ t u, exec (.fadd d a b) s = .next t ∧ exec (.fsub d d b) t = .next u ∧ u.vreg d = s.vreg a)
  ∧ (∀ (d e a : VIdx) (s : State), (s.vreg a).isField → (s.vreg a).Ok → Nat.Prime (s.vreg a).mod.toNat →
    (s.vreg a).val ≠ 0#256 → d ≠ a →
    ∃ t u, exec (.finv d a) s = .next t ∧ exec (.fmul e a d) t = .next u ∧ (u.vreg e).val.toNat = 1)

/-! ### Point commands -/

/-- PINF (41_point.md R162). -/
def Obligations.PinfMakesTheIdentity : Prop :=
  ∀ (d : PIdx) (a b : VIdx) (s : State),
    encode (.pinf d a b) = commandWord 0x10 d a b 0 0
    ∧ ((s.vreg a).isField → (s.vreg b).isField →
      ((s.vreg a).mod = (s.vreg b).mod →
        ∃ t, exec (.pinf d a b) s = .next t
          ∧ t.preg d = { pt := { inf := true, x := 0#256, y := 0#256, a := (s.vreg a).val, b := (s.vreg b).val,
                                 p := (s.vreg a).mod }, valid := true }
          ∧ WroteOnlyP d s t)
      ∧ ((s.vreg a).mod ≠ (s.vreg b).mod →
        ∃ t, exec (.pinf d a b) s = .next t ∧ RaisedOnly .fieldMismatch s t))

/-- PNEW (41_point.md R161, R163): one modulus for all four, then the curve equation. -/
def Obligations.PnewChecksModuliThenCurve : Prop :=
  ∀ (d : PIdx) (x y a b : VIdx) (s : State),
    encode (.pnew d x y a b) = commandWord 0x11 d x y a b
    ∧ ((s.vreg x).isField → (s.vreg y).isField → (s.vreg a).isField → (s.vreg b).isField →
      ((s.vreg x).mod = (s.vreg y).mod ∧ (s.vreg x).mod = (s.vreg a).mod ∧ (s.vreg x).mod = (s.vreg b).mod →
        (((s.vreg y).val.toNat * (s.vreg y).val.toNat : Int)
            - ((s.vreg x).val.toNat * (s.vreg x).val.toNat * (s.vreg x).val.toNat
                + (s.vreg a).val.toNat * (s.vreg x).val.toNat + (s.vreg b).val.toNat)) % (s.vreg x).mod.toNat = 0 →
        ∃ t, exec (.pnew d x y a b) s = .next t
          ∧ t.preg d = { pt := { inf := false, x := (s.vreg x).val, y := (s.vreg y).val, a := (s.vreg a).val,
                                 b := (s.vreg b).val, p := (s.vreg x).mod }, valid := true }
          ∧ WroteOnlyP d s t)
      ∧ ((s.vreg x).mod = (s.vreg y).mod ∧ (s.vreg x).mod = (s.vreg a).mod ∧ (s.vreg x).mod = (s.vreg b).mod →
        (((s.vreg y).val.toNat * (s.vreg y).val.toNat : Int)
            - ((s.vreg x).val.toNat * (s.vreg x).val.toNat * (s.vreg x).val.toNat
                + (s.vreg a).val.toNat * (s.vreg x).val.toNat + (s.vreg b).val.toNat)) % (s.vreg x).mod.toNat ≠ 0 →
        ∃ t, exec (.pnew d x y a b) s = .next t ∧ RaisedOnly .notOnCurve s t)
      ∧ (¬ ((s.vreg x).mod = (s.vreg y).mod ∧ (s.vreg x).mod = (s.vreg a).mod ∧ (s.vreg x).mod = (s.vreg b).mod) →
        ∃ t, exec (.pnew d x y a b) s = .next t ∧ RaisedOnly .fieldMismatch s t))

/-- R164, whole: the six cases of ADD in their order, with the slope as a plain Fermat power and CHECKED written out, for points
that meet R25. The inversion raises only in case 6, exactly when `2 * y = p`, so never for an odd `p`. -/
def Obligations.GroupLawCases : Prop :=
  ∀ p1 p2 : Point, p1.Ok → p2.Ok →
    ((p1.a, p1.b, p1.p) ≠ (p2.a, p2.b, p2.p) → addPoints p1 p2 = .error .curveMismatch)
    ∧ ((p1.a, p1.b, p1.p) = (p2.a, p2.b, p2.p) →
      (p1.inf = true → addPoints p1 p2 = .ok p2)
      ∧ (p1.inf = false → p2.inf = true → addPoints p1 p2 = .ok p1)
      ∧ (p1.inf = false → p2.inf = false →
        (p1.x = p2.x → (p1.y ≠ p2.y ∨ p1.y = 0#256) →
          addPoints p1 p2 = .ok { inf := true, x := 0#256, y := 0#256, a := p1.a, b := p1.b, p := p1.p })
        ∧ (p1.x = p2.x → p1.y = p2.y → p1.y ≠ 0#256 →
          (2 * p1.y.toNat % p1.p.toNat = 0 ↔ 2 * p1.y.toNat = p1.p.toNat)
          ∧ (2 * p1.y.toNat = p1.p.toNat → addPoints p1 p2 = .error .divByZero))
        ∧ (∀ (num den : Int) (dn sl x3 y3 : Nat),
          ((p1.x ≠ p2.x ∧ num = (p2.y.toNat : Int) - p1.y.toNat ∧ den = (p2.x.toNat : Int) - p1.x.toNat)
            ∨ (p1.x = p2.x ∧ p1.y = p2.y ∧ p1.y ≠ 0#256 ∧ num = 3 * p1.x.toNat * p1.x.toNat + p1.a.toNat
                ∧ den = 2 * p1.y.toNat ∧ den % p1.p.toNat ≠ 0)) →
          (dn : Int) = den % p1.p.toNat →
          (sl : Int) = ((num % p1.p.toNat) * ((dn ^ (p1.p.toNat - 2) % p1.p.toNat : Nat) : Int)) % p1.p.toNat →
          (x3 : Int) = ((sl : Int) * sl - p1.x.toNat - p2.x.toNat) % p1.p.toNat →
          (y3 : Int) = ((sl : Int) * ((p1.x.toNat : Int) - x3) - p1.y.toNat) % p1.p.toNat →
          addPoints p1 p2
            = (if ((y3 * y3 : Int) - (x3 * x3 * x3 + p1.a.toNat * x3 + p1.b.toNat)) % p1.p.toNat = 0 then
                .ok { inf := false, x := BitVec.ofNat 256 x3, y := BitVec.ofNat 256 y3, a := p1.a, b := p1.b, p := p1.p }
               else .error .notOnCurve))))

/-- PADD (41_point.md R166): the destination is ADD of the two sources, or ADD's error. -/
def Obligations.PaddWritesTheSum : Prop :=
  ∀ (d p q : PIdx) (s : State),
    encode (.padd d p q) = commandWord 0x12 d p q 0 0
    ∧ ((s.preg p).valid = true → (s.preg q).valid = true →
      (∀ R, addPoints (s.preg p).pt (s.preg q).pt = .ok R →
        ∃ t, exec (.padd d p q) s = .next t ∧ t.preg d = { pt := R, valid := true } ∧ WroteOnlyP d s t)
      ∧ (∀ e, addPoints (s.preg p).pt (s.preg q).pt = .error e →
        (e = .curveMismatch ∨ e = .divByZero ∨ e = .notOnCurve)
        ∧ ∃ t, exec (.padd d p q) s = .next t ∧ RaisedOnly e s t))

/-- PNEG (41_point.md R167). -/
def Obligations.PnegNegatesTheOrdinate : Prop :=
  ∀ (d p : PIdx) (s : State),
    encode (.pneg d p) = commandWord 0x13 d p 0 0 0
    ∧ ((s.preg p).valid = true → (s.preg p).Ok →
      ((s.preg p).pt.inf = true →
        ∃ t, exec (.pneg d p) s = .next t ∧ t.preg d = s.preg p ∧ WroteOnlyP d s t)
      ∧ ((s.preg p).pt.inf = false →
        ∃ t, exec (.pneg d p) s = .next t ∧ (t.preg d).valid = true
          ∧ (∃ y : W256, (t.preg d).pt = { (s.preg p).pt with y := y }
            ∧ (y.toNat : Int) = ((s.preg p).pt.p.toNat - (s.preg p).pt.y.toNat : Int) % (s.preg p).pt.p.toNat)
          ∧ (t.preg d).Ok ∧ WroteOnlyP d s t))

/-- PEQ (41_point.md R168): FLAG is 1 exactly when all six fields are equal; points on different curves are unequal. -/
def Obligations.PeqComparesAllFields : Prop :=
  ∀ (p q : PIdx) (s : State),
    encode (.peq p q) = commandWord 0x14 0 p q 0 0
    ∧ ((s.preg p).valid = true → (s.preg q).valid = true →
      ∃ t, exec (.peq p q) s = .next t ∧ (t.flag = true ↔ (s.preg p).pt = (s.preg q).pt) ∧ WroteOnlyFlag s t)

/-- PLDG (41_point.md R169), with the constants of 00_scope.md R10 (log entry 11). -/
def Obligations.PldgLoadsTheBasePoint : Prop :=
  ∀ (d : PIdx) (s : State),
    encode (.pldg d) = commandWord 0x15 d 0 0 0 0
    ∧ ∃ t, exec (.pldg d) s = .next t
      ∧ t.preg d
          = { pt := { inf := false
                      x := 0x79BE667EF9DCBBAC55A06295CE870B07029BFCDB2DCE28D959F2815B16F81798#256
                      y := 0x483ADA7726A3C4655DA4FBFC0E1108A8FD17B448A68554199C47D08FFB10D4B8#256
                      a := 0#256, b := 7#256, p := BitVec.ofNat 256 (2 ^ 256 - 2 ^ 32 - 977) }, valid := true }
      ∧ (t.preg d).Ok ∧ WroteOnlyP d s t

/-- On an odd prime modulus ADD never raises for two points of one curve, and its result is a point of that curve
(41_point.md R164, R165; 60_exceptions.md R243: the errors are possible only for other moduli). -/
def Obligations.AddNeverRaisesOnOddPrimes : Prop :=
  ∀ p1 p2 : Point, p1.Ok → p2.Ok → p1.curve = p2.curve → Nat.Prime p1.p.toNat → p1.p.toNat ≠ 2 →
    ∃ R, addPoints p1 p2 = .ok R ∧ R.Ok ∧ R.curve = p1.curve

/-- The source's group-law properties (41_point.md R170). `P + (-P)` is the identity unless `2 * y = p`, where the two are
the same point and case 6 applies. -/
def Obligations.GroupLawProperties : Prop :=
  (∀ q : Point, q.Ok → addPoints q (identityOn q.a q.b q.p) = .ok q ∧ addPoints (identityOn q.a q.b q.p) q = .ok q)
  ∧ (∀ q : Point, q.Ok → 2 * q.y.toNat ≠ q.p.toNat → addPoints q (negPoint q) = .ok (identityOn q.a q.b q.p))
  ∧ (∀ p1 p2 : Point, p1.Ok → p2.Ok → p1.curve = p2.curve → Nat.Prime p1.p.toNat → p1 ≠ p2 →
    addPoints p1 p2 = addPoints p2 p1)

/-! ### Scalar commands -/

/-- PMUL (42_scalar.md R192): the destination is SMUL of the point and the scalar, or SMUL's error; on an odd prime modulus
it never raises. -/
def Obligations.PmulWritesTheMultiple : Prop :=
  ∀ (d p : PIdx) (k : VIdx) (s : State),
    encode (.pmul d p k) = commandWord 0x18 d p k 0 0
    ∧ ((s.preg p).valid = true → (s.vreg k).valid = true →
      (∀ R, smul (s.preg p).pt (s.vreg k).val.toNat = .ok R →
        ∃ t, exec (.pmul d p k) s = .next t ∧ t.preg d = { pt := R, valid := true } ∧ WroteOnlyP d s t)
      ∧ (∀ e, smul (s.preg p).pt (s.vreg k).val.toNat = .error e →
        (e = .divByZero ∨ e = .notOnCurve) ∧ ∃ t, exec (.pmul d p k) s = .next t ∧ RaisedOnly e s t)
      ∧ ((s.preg p).Ok → Nat.Prime (s.preg p).pt.p.toNat → (s.preg p).pt.p.toNat ≠ 2 →
        ∃ R t, smul (s.preg p).pt (s.vreg k).val.toNat = .ok R ∧ exec (.pmul d p k) s = .next t
          ∧ t.preg d = { pt := R, valid := true } ∧ WroteOnlyP d s t))

/-- What SMUL gives for the scalars 0 and 1, for a scalar on SECP in terms of its reduction, and for a scalar with one binary
digit more, on every curve (on SECP for scalars below `N`): with the digit 0 the multiple of the double; with the digit 1, on
an odd prime modulus, that multiple plus the point; and the doubling's error with either digit (42_scalar.md R190, R191, R194;
conflict C3: a doubling that raises makes even `1·P` raise). -/
def Obligations.ScalarMultiplicationLaws : Prop :=
  (∀ pt : Point, smul pt 0 = .ok (identityOn pt.a pt.b pt.p))
  ∧ (∀ (pt : Point) (n : Nat), pt.curve = (0#256, 7#256, BitVec.ofNat 256 (2 ^ 256 - 2 ^ 32 - 977)) →
      smul pt n = smul pt (n % secpN))
  ∧ (∀ pt : Point, pt.Ok → (∀ R, addPoints pt pt = .ok R → smul pt 1 = .ok pt)
      ∧ ∀ e, addPoints pt pt = .error e → smul pt 1 = .error e)
  ∧ (∀ (pt : Point) (n : Nat), 0 < n →
      (pt.curve = (0#256, 7#256, BitVec.ofNat 256 (2 ^ 256 - 2 ^ 32 - 977)) → 2 * n < secpN) →
      (∀ D, addPoints pt pt = .ok D → smul pt (2 * n) = smul D n)
      ∧ ∀ e, addPoints pt pt = .error e → smul pt (2 * n) = .error e)
  ∧ (∀ (pt : Point) (n : Nat),
      (pt.curve = (0#256, 7#256, BitVec.ofNat 256 (2 ^ 256 - 2 ^ 32 - 977)) → 2 * n + 1 < secpN) →
      (∀ e, addPoints pt pt = .error e → smul pt (2 * n + 1) = .error e)
      ∧ (pt.Ok → Nat.Prime pt.p.toNat → pt.p.toNat ≠ 2 →
        ∃ D T R, addPoints pt pt = .ok D ∧ smul D n = .ok T ∧ addPoints T pt = .ok R ∧ smul pt (2 * n + 1) = .ok R))

/-- SRED (42_scalar.md R193): a field element of modulus `N`. -/
def Obligations.SredReducesModuloTheOrder : Prop :=
  ∀ (d a : VIdx) (s : State),
    encode (.sred d a) = commandWord 0x19 d a 0 0 0
    ∧ ((s.vreg a).valid = true →
      ∃ t, exec (.sred d a) s = .next t
        ∧ (t.vreg d).val.toNat
            = (s.vreg a).val.toNat % 0xFFFFFFFFFFFFFFFFFFFFFFFFFFFFFFFEBAAEDCE6AF48A03BBFD25E8CD0364141
        ∧ (t.vreg d).mod = 0xFFFFFFFFFFFFFFFFFFFFFFFFFFFFFFFEBAAEDCE6AF48A03BBFD25E8CD0364141#256
        ∧ (t.vreg d).valid = true ∧ WroteOnlyV [d] s t)

/-! ### ECDSA commands -/

/-- EKEY (43_ecdsa.md R211): for a secret in `[1, N-1]` the public point is written and nothing is raised. -/
def Obligations.EkeyDerivesThePublicPoint : Prop :=
  ∀ (d : PIdx) (sec : VIdx) (s : State),
    encode (.ekey d sec) = commandWord 0x20 d sec 0 0 0
    ∧ ((s.vreg sec).valid = true →
      (1 ≤ (s.vreg sec).val.toNat → (s.vreg sec).val.toNat < secpN →
        ∃ R t, smul pointG (s.vreg sec).val.toNat = .ok R ∧ exec (.ekey d sec) s = .next t
          ∧ t.preg d = { pt := R, valid := true } ∧ WroteOnlyP d s t)
      ∧ (((s.vreg sec).val.toNat = 0 ∨ secpN ≤ (s.vreg sec).val.toNat) →
        ∃ t, exec (.ekey d sec) s = .next t ∧ RaisedOnly .invalidKey s t))

/-- ESIGN in host mode (43_ecdsa.md R212 to R214): INVALID_KEY, NONCE_EMPTY, VALUE_RANGE, a signature, or the retry that
finds NONCE empty; the nonce is consumed by the first request. -/
def Obligations.EsignWithAHostNonce : Prop :=
  ∀ (r sg sec z : VIdx) (s : State), r ≠ sg →
    encode (.esign r sg sec z) = commandWord 0x21 r sg sec z 0
    ∧ ((s.vreg sec).valid = true → (s.vreg z).valid = true → s.commandNmode = true →
      (1 ≤ (s.vreg sec).val.toNat → (s.vreg sec).val.toNat < secpN →
        (s.nonceValid = true → 1 ≤ s.nonce.toNat → s.nonce.toNat < secpN →
          (∀ v w, SignedWith (s.vreg sec).val.toNat (s.vreg z).val.toNat s.nonce.toNat v w →
            ∃ t, exec (.esign r sg sec z) s = .next t
              ∧ (t.vreg r).val.toNat = v ∧ (t.vreg r).mod = 0#256 ∧ (t.vreg r).valid = true
              ∧ (t.vreg sg).val.toNat = w ∧ (t.vreg sg).mod = 0#256 ∧ (t.vreg sg).valid = true
              ∧ CompletedWith none t ∧ VKeptExcept [r, sg] s t ∧ PKeptExcept [] s t ∧ t.flag = s.flag
              ∧ t.nonceValid = false ∧ t.draws = s.draws ∧ ControlKept s t)
          ∧ (DegenerateNonce (s.vreg sec).val.toNat (s.vreg z).val.toNat s.nonce.toNat →
            ∃ t, exec (.esign r sg sec z) s = .next t ∧ CompletedWith (some .nonceEmpty) t ∧ VKeptExcept [] s t
              ∧ PKeptExcept [] s t ∧ t.flag = s.flag ∧ t.nonceValid = false ∧ t.draws = s.draws ∧ ControlKept s t))
        ∧ (s.nonceValid = true → (s.nonce.toNat = 0 ∨ secpN ≤ s.nonce.toNat) →
          ∃ t, exec (.esign r sg sec z) s = .next t ∧ CompletedWith (some .valueRange) t ∧ VKeptExcept [] s t
            ∧ PKeptExcept [] s t ∧ t.flag = s.flag ∧ t.nonceValid = false ∧ t.draws = s.draws ∧ ControlKept s t)
        ∧ (s.nonceValid = false →
          ∃ t, exec (.esign r sg sec z) s = .next t ∧ RaisedOnly .nonceEmpty s t))
      ∧ (((s.vreg sec).val.toNat = 0 ∨ secpN ≤ (s.vreg sec).val.toNat) →
        ∃ t, exec (.esign r sg sec z) s = .next t ∧ RaisedOnly .invalidKey s t))

/-- ESIGN in TRNG mode (43_ecdsa.md R212 to R214): a secret outside `[1, N-1]` gives INVALID_KEY and no nonce is drawn; else
the first nonce drawn that is not degenerate signs, within 16 attempts, else RETRY_EXHAUSTED. NONCE_VALID is untouched. True whatever the nonce source draws (log entry 6); the bound 16 is the
spec's value (log entry 7). -/
def Obligations.EsignWithDrawnNonces : Prop :=
  (∀ n, 1 ≤ drawNonce n ∧ drawNonce n < secpN)
  ∧ ∀ (r sg sec z : VIdx) (s : State), r ≠ sg → (s.vreg sec).valid = true → (s.vreg z).valid = true →
    s.commandNmode = false →
    (((s.vreg sec).val.toNat = 0 ∨ secpN ≤ (s.vreg sec).val.toNat) →
      ∃ t, exec (.esign r sg sec z) s = .next t ∧ RaisedOnly .invalidKey s t)
    ∧ (1 ≤ (s.vreg sec).val.toNat → (s.vreg sec).val.toNat < secpN →
      ∃ t, exec (.esign r sg sec z) s = .next t
        ∧ PKeptExcept [] s t ∧ t.flag = s.flag ∧ t.nonceValid = s.nonceValid ∧ ControlKept s t
        ∧ ((∃ j v w, j < 16
              ∧ (∀ i, i < j → DegenerateNonce (s.vreg sec).val.toNat (s.vreg z).val.toNat (drawNonce (s.draws + i)))
              ∧ SignedWith (s.vreg sec).val.toNat (s.vreg z).val.toNat (drawNonce (s.draws + j)) v w
              ∧ (t.vreg r).val.toNat = v ∧ (t.vreg r).mod = 0#256 ∧ (t.vreg r).valid = true
              ∧ (t.vreg sg).val.toNat = w ∧ (t.vreg sg).mod = 0#256 ∧ (t.vreg sg).valid = true
              ∧ CompletedWith none t ∧ VKeptExcept [r, sg] s t ∧ t.draws = s.draws + j + 1)
          ∨ ((∀ i, i < 16 → DegenerateNonce (s.vreg sec).val.toNat (s.vreg z).val.toNat (drawNonce (s.draws + i)))
              ∧ CompletedWith (some .retryExhausted) t ∧ VKeptExcept [] s t ∧ t.draws = s.draws + 16)))

/-- EVERIFY (43_ecdsa.md R215 to R217): out of range gives FLAG = 0 before the curve check, a foreign curve raises, and
else FLAG is 1 exactly when `u·G + v·Q` is not the identity and has abscissa `r`. -/
def Obligations.EverifyChecksTheSignature : Prop :=
  ∀ (q : PIdx) (z r sg : VIdx) (s : State),
    encode (.everify q z r sg) = commandWord 0x22 0 q z r sg
    ∧ ((s.preg q).valid = true → (s.vreg z).valid = true → (s.vreg r).valid = true → (s.vreg sg).valid = true →
      (((s.vreg r).val.toNat = 0 ∨ secpN ≤ (s.vreg r).val.toNat ∨ (s.vreg sg).val.toNat = 0
          ∨ secpN ≤ (s.vreg sg).val.toNat) →
        ∃ t, exec (.everify q z r sg) s = .next t ∧ t.flag = false ∧ WroteOnlyFlag s t)
      ∧ (1 ≤ (s.vreg r).val.toNat → (s.vreg r).val.toNat < secpN → 1 ≤ (s.vreg sg).val.toNat →
        (s.vreg sg).val.toNat < secpN →
        ((s.preg q).pt.curve ≠ (0#256, 7#256, BitVec.ofNat 256 (2 ^ 256 - 2 ^ 32 - 977)) →
          ∃ t, exec (.everify q z r sg) s = .next t ∧ RaisedOnly .curveMismatch s t)
        ∧ ((s.preg q).pt.curve = (0#256, 7#256, BitVec.ofNat 256 (2 ^ 256 - 2 ^ 32 - 977)) → (s.preg q).Ok →
          ∀ sinv, sinv = (s.vreg sg).val.toNat ^ (secpN - 2) % secpN →
          ∃ A B C t, smul pointG ((s.vreg z).val.toNat * sinv % secpN) = .ok A
            ∧ smul (s.preg q).pt ((s.vreg r).val.toNat * sinv % secpN) = .ok B ∧ addPoints A B = .ok C
            ∧ exec (.everify q z r sg) s = .next t
            ∧ (t.flag = true ↔ C.inf = false ∧ C.x.toNat = (s.vreg r).val.toNat) ∧ WroteOnlyFlag s t)))

/-- A signature SIGN answers verifies under the public point of its secret, for every digest and every nonce (43_ecdsa.md
R218(a)). It rests on the group law of the curve, which the spec names as general knowledge. -/
def Obligations.SignaturesVerify : Prop :=
  ∀ (mode : Bool) (sec z : Nat) (n n' : NonceSource) (r sg : Nat) (Q : Point), 1 ≤ sec → sec < secpN →
    sign mode sec z n = (n', .ok (r, sg)) → smul pointG sec = .ok Q → verify Q z r sg = .ok true

/-! ### The scalar multiplication procedure, whole -/

/-- R190's loop, digit by digit, for every point and every modulus: whatever function `loop` of the remaining scalar, the
result and the current point stops at the scalar 0 and otherwise adds on an odd scalar, always doubles, and goes on with half
the scalar, an error of an ADD ending it, SMUL is that loop from the identity and the point, on the scalar that R191 reduces
modulo `N` exactly on SECP (42_scalar.md R190, R191). -/
def Obligations.ScalarMultiplicationIsDoubleAndAdd : Prop :=
  ∀ loop : Nat → Point → Point → Except Err Point,
    (∀ result current, loop 0 result current = .ok result) →
    (∀ k result current, k ≠ 0 →
      (∀ result' current', (if k % 2 = 1 then addPoints result current else .ok result) = .ok result' →
        addPoints current current = .ok current' → loop k result current = loop (k / 2) result' current')
      ∧ (∀ e, k % 2 = 1 → addPoints result current = .error e → loop k result current = .error e)
      ∧ (∀ e result', (if k % 2 = 1 then addPoints result current else .ok result) = .ok result' →
        addPoints current current = .error e → loop k result current = .error e)) →
    ∀ (pt : Point) (k : Nat),
      (pt.curve = (0#256, 7#256, BitVec.ofNat 256 (2 ^ 256 - 2 ^ 32 - 977)) →
        smul pt k = loop (k % secpN) (identityOn pt.a pt.b pt.p) pt)
      ∧ (pt.curve ≠ (0#256, 7#256, BitVec.ofNat 256 (2 ^ 256 - 2 ^ 32 - 977)) →
        smul pt k = loop k (identityOn pt.a pt.b pt.p) pt)
end

