-- ==== Sys2Proof/Laws/Arith.lean ====
section
/-! SUPPORT. What the arithmetic units compute: `powmod` is the power reduced, and the bounds of `mod`, POW and INV. -/

namespace Sys2Proof.Machine

/-- R13: for `m >= 1` the result is congruent to `x` and lies in `[0, m)`. -/
theorem modInt_cast (x : Int) {m : Nat} (hm : 0 < m) : (modInt x m : Int) = x % (m : Int) := by
  unfold modInt
  exact Int.toNat_of_nonneg (Int.emod_nonneg _ (by omega))

theorem modInt_lt (x : Int) {m : Nat} (hm : 0 < m) : modInt x m < m := by
  have h := Int.emod_lt_of_pos x (show (0 : Int) < m by omega)
  have := modInt_cast x hm
  omega

theorem modInt_natCast (x m : Nat) : modInt (x : Int) m = x % m := by
  unfold modInt
  rw [← Int.natCast_emod]
  exact Int.toNat_natCast _

theorem lt_two_pow_bitLength (k : Nat) : k < 2 ^ bitLength k := by
  unfold bitLength
  split
  · simp_all
  · exact Nat.lt_log2_self

/-- A shift right by one takes one binary digit off (R190). -/
theorem bitLength_half {k : Nat} (hk : k ≠ 0) : bitLength k = bitLength (k / 2) + 1 := by
  unfold bitLength
  rw [if_neg hk, Nat.log2_def]
  split <;> rename_i h2
  · rw [if_neg (by omega)]
  · rw [if_pos (by omega)]

theorem bitLength_le {k n : Nat} (h : k < 2 ^ n) : bitLength k ≤ n := by
  unfold bitLength
  split
  · omega
  · rename_i hk
    have := (Nat.log2_lt hk).mpr h
    omega

/-- The invariant of square and multiply. -/
theorem powLoop_eq (m n : Nat) : ∀ b e acc : Nat, e < 2 ^ n → acc % m = acc → powLoop m n b e acc = acc * b ^ e % m := by
  induction n with
  | zero =>
    intro b e acc he ha
    have : e = 0 := by omega
    subst this
    simp [powLoop, ha]
  | succ n ih =>
    intro b e acc he ha
    have hdiv : e / 2 < 2 ^ n := by omega
    have he2 : e = 2 * (e / 2) + e % 2 := by omega
    simp only [powLoop]
    split
    · rename_i hodd
      rw [ih _ _ _ hdiv (Nat.mod_mod _ _)]
      have hb : b ^ e = b * (b * b) ^ (e / 2) := by
        conv_lhs => rw [he2, hodd]
        rw [pow_succ, pow_mul, pow_two, Nat.mul_comm]
      rw [hb, Nat.mul_mod, Nat.mod_mod, Nat.pow_mod, Nat.mod_mod, ← Nat.pow_mod, ← Nat.mul_mod, Nat.mul_assoc]
    · rename_i heven
      rw [ih _ _ _ hdiv ha]
      have h0 : e % 2 = 0 := by omega
      have hb : b ^ e = (b * b) ^ (e / 2) := by
        conv_lhs => rw [he2, h0]
        rw [Nat.add_zero, pow_mul, pow_two]
      rw [hb, Nat.mul_mod, Nat.pow_mod, Nat.mod_mod, ← Nat.pow_mod, ← Nat.mul_mod]

/-- R13: `powmod(x, e, m) = (x^e) mod m`, with `x^0 = 1`. -/
theorem powmod_eq (x e m : Nat) : powmod x e m = x ^ e % m := by
  unfold powmod
  rw [powLoop_eq _ _ _ _ _ (lt_two_pow_bitLength e) (Nat.mod_mod _ _), Nat.mul_mod, Nat.mod_mod, Nat.pow_mod, Nat.mod_mod,
    ← Nat.pow_mod, ← Nat.mul_mod, Nat.one_mul]

/-- R127 in terms of the plain power. -/
theorem powField_eq (x e m : Nat) : powField x e m = if m = 1 then 0 else x ^ (e % (m - 1)) % m := by
  unfold powField
  split
  · rfl
  · exact powmod_eq _ _ _

theorem powField_lt (x e : Nat) {m : Nat} (hm : 0 < m) : powField x e m < m := by
  rw [powField_eq]
  split
  · omega
  · exact Nat.mod_lt _ hm

theorem invField_zero (m : Nat) : invField 0 m = .error .divByZero := rfl

/-- R129: for a nonzero element of a modulus of 2 or more, INV is the plain Fermat power. -/
theorem invField_eq {x m : Nat} (hx : x ≠ 0) (hm : 2 ≤ m) : invField x m = .ok (x ^ (m - 2) % m) := by
  have h1 : ¬ m = 1 := by omega
  have h2 : (m - 2) % (m - 1) = m - 2 := Nat.mod_eq_of_lt (by omega)
  simp [invField, hx, powField_eq, h1, h2]

/-- Everything INV can answer. -/
theorem invField_cases (x m : Nat) :
    (x = 0 ∧ invField x m = .error .divByZero) ∨ (x ≠ 0 ∧ invField x m = .ok (powField x (m - 2) m)) := by
  unfold invField
  split <;> simp_all

end Sys2Proof.Machine
end

