-- ==== Sys2Proof/Laws/State.lean ====
section
/-! SUPPORT. One lemma per field per update of the state, true by definition. -/

namespace Sys2Proof.Machine

/-! ### `setV` -/

@[simp] theorem setV_vregs (s : State) (i : VIdx) (x : VReg) : (s.setV i x).vregs = s.vregs.set i x := rfl
@[simp] theorem setV_pregs (s : State) (i : VIdx) (x : VReg) : (s.setV i x).pregs = s.pregs := rfl
@[simp] theorem setV_ie (s : State) (i : VIdx) (x : VReg) : (s.setV i x).ie = s.ie := rfl
@[simp] theorem setV_nmode (s : State) (i : VIdx) (x : VReg) : (s.setV i x).nmode = s.nmode := rfl
@[simp] theorem setV_done (s : State) (i : VIdx) (x : VReg) : (s.setV i x).done = s.done := rfl
@[simp] theorem setV_flag (s : State) (i : VIdx) (x : VReg) : (s.setV i x).flag = s.flag := rfl
@[simp] theorem setV_nonceValid (s : State) (i : VIdx) (x : VReg) : (s.setV i x).nonceValid = s.nonceValid := rfl
@[simp] theorem setV_busyErr (s : State) (i : VIdx) (x : VReg) : (s.setV i x).busyErr = s.busyErr := rfl
@[simp] theorem setV_err (s : State) (i : VIdx) (x : VReg) : (s.setV i x).err = s.err := rfl
@[simp] theorem setV_lastCmd (s : State) (i : VIdx) (x : VReg) : (s.setV i x).lastCmd = s.lastCmd := rfl
@[simp] theorem setV_nonce (s : State) (i : VIdx) (x : VReg) : (s.setV i x).nonce = s.nonce := rfl
@[simp] theorem setV_latch (s : State) (i : VIdx) (x : VReg) : (s.setV i x).latch = s.latch := rfl
@[simp] theorem setV_delay (s : State) (i : VIdx) (x : VReg) : (s.setV i x).delay = s.delay := rfl
@[simp] theorem setV_draws (s : State) (i : VIdx) (x : VReg) : (s.setV i x).draws = s.draws := rfl
@[simp] theorem setV_host (s : State) (i : VIdx) (x : VReg) : (s.setV i x).host = s.host := rfl
@[simp] theorem setV_resp (s : State) (i : VIdx) (x : VReg) : (s.setV i x).resp = s.resp := rfl

/-! ### `setP` -/

@[simp] theorem setP_vregs (s : State) (j : PIdx) (pt : Point) : (s.setP j pt).vregs = s.vregs := rfl
@[simp] theorem setP_pregs (s : State) (j : PIdx) (pt : Point) : (s.setP j pt).pregs = s.pregs.set j { pt := pt, valid := true } := rfl
@[simp] theorem setP_ie (s : State) (j : PIdx) (pt : Point) : (s.setP j pt).ie = s.ie := rfl
@[simp] theorem setP_nmode (s : State) (j : PIdx) (pt : Point) : (s.setP j pt).nmode = s.nmode := rfl
@[simp] theorem setP_done (s : State) (j : PIdx) (pt : Point) : (s.setP j pt).done = s.done := rfl
@[simp] theorem setP_flag (s : State) (j : PIdx) (pt : Point) : (s.setP j pt).flag = s.flag := rfl
@[simp] theorem setP_nonceValid (s : State) (j : PIdx) (pt : Point) : (s.setP j pt).nonceValid = s.nonceValid := rfl
@[simp] theorem setP_busyErr (s : State) (j : PIdx) (pt : Point) : (s.setP j pt).busyErr = s.busyErr := rfl
@[simp] theorem setP_err (s : State) (j : PIdx) (pt : Point) : (s.setP j pt).err = s.err := rfl
@[simp] theorem setP_lastCmd (s : State) (j : PIdx) (pt : Point) : (s.setP j pt).lastCmd = s.lastCmd := rfl
@[simp] theorem setP_nonce (s : State) (j : PIdx) (pt : Point) : (s.setP j pt).nonce = s.nonce := rfl
@[simp] theorem setP_latch (s : State) (j : PIdx) (pt : Point) : (s.setP j pt).latch = s.latch := rfl
@[simp] theorem setP_delay (s : State) (j : PIdx) (pt : Point) : (s.setP j pt).delay = s.delay := rfl
@[simp] theorem setP_draws (s : State) (j : PIdx) (pt : Point) : (s.setP j pt).draws = s.draws := rfl
@[simp] theorem setP_host (s : State) (j : PIdx) (pt : Point) : (s.setP j pt).host = s.host := rfl
@[simp] theorem setP_resp (s : State) (j : PIdx) (pt : Point) : (s.setP j pt).resp = s.resp := rfl

/-! ### `setFlag` -/

@[simp] theorem setFlag_vregs (s : State) (b : Bool) : (s.setFlag b).vregs = s.vregs := rfl
@[simp] theorem setFlag_pregs (s : State) (b : Bool) : (s.setFlag b).pregs = s.pregs := rfl
@[simp] theorem setFlag_ie (s : State) (b : Bool) : (s.setFlag b).ie = s.ie := rfl
@[simp] theorem setFlag_nmode (s : State) (b : Bool) : (s.setFlag b).nmode = s.nmode := rfl
@[simp] theorem setFlag_done (s : State) (b : Bool) : (s.setFlag b).done = s.done := rfl
@[simp] theorem setFlag_flag (s : State) (b : Bool) : (s.setFlag b).flag = b := rfl
@[simp] theorem setFlag_nonceValid (s : State) (b : Bool) : (s.setFlag b).nonceValid = s.nonceValid := rfl
@[simp] theorem setFlag_busyErr (s : State) (b : Bool) : (s.setFlag b).busyErr = s.busyErr := rfl
@[simp] theorem setFlag_err (s : State) (b : Bool) : (s.setFlag b).err = s.err := rfl
@[simp] theorem setFlag_lastCmd (s : State) (b : Bool) : (s.setFlag b).lastCmd = s.lastCmd := rfl
@[simp] theorem setFlag_nonce (s : State) (b : Bool) : (s.setFlag b).nonce = s.nonce := rfl
@[simp] theorem setFlag_latch (s : State) (b : Bool) : (s.setFlag b).latch = s.latch := rfl
@[simp] theorem setFlag_delay (s : State) (b : Bool) : (s.setFlag b).delay = s.delay := rfl
@[simp] theorem setFlag_draws (s : State) (b : Bool) : (s.setFlag b).draws = s.draws := rfl
@[simp] theorem setFlag_host (s : State) (b : Bool) : (s.setFlag b).host = s.host := rfl
@[simp] theorem setFlag_resp (s : State) (b : Bool) : (s.setFlag b).resp = s.resp := rfl

/-! ### `retire` -/

@[simp] theorem retire_vregs (s : State) (e : Option Err) : (s.retire e).vregs = s.vregs := rfl
@[simp] theorem retire_pregs (s : State) (e : Option Err) : (s.retire e).pregs = s.pregs := rfl
@[simp] theorem retire_ie (s : State) (e : Option Err) : (s.retire e).ie = s.ie := rfl
@[simp] theorem retire_nmode (s : State) (e : Option Err) : (s.retire e).nmode = s.nmode := rfl
@[simp] theorem retire_done (s : State) (e : Option Err) : (s.retire e).done = true := rfl
@[simp] theorem retire_flag (s : State) (e : Option Err) : (s.retire e).flag = s.flag := rfl
@[simp] theorem retire_nonceValid (s : State) (e : Option Err) : (s.retire e).nonceValid = s.nonceValid := rfl
@[simp] theorem retire_busyErr (s : State) (e : Option Err) : (s.retire e).busyErr = s.busyErr := rfl
@[simp] theorem retire_err (s : State) (e : Option Err) : (s.retire e).err = e := rfl
@[simp] theorem retire_lastCmd (s : State) (e : Option Err) : (s.retire e).lastCmd = s.lastCmd := rfl
@[simp] theorem retire_nonce (s : State) (e : Option Err) : (s.retire e).nonce = s.nonce := rfl
@[simp] theorem retire_latch (s : State) (e : Option Err) : (s.retire e).latch = none := rfl
@[simp] theorem retire_delay (s : State) (e : Option Err) : (s.retire e).delay = s.delay := rfl
@[simp] theorem retire_draws (s : State) (e : Option Err) : (s.retire e).draws = s.draws := rfl
@[simp] theorem retire_host (s : State) (e : Option Err) : (s.retire e).host = s.host := rfl
@[simp] theorem retire_resp (s : State) (e : Option Err) : (s.retire e).resp = s.resp := rfl

/-! ### `setNonceSource` -/

@[simp] theorem setNonceSource_vregs (s : State) (n : NonceSource) : (s.setNonceSource n).vregs = s.vregs := rfl
@[simp] theorem setNonceSource_pregs (s : State) (n : NonceSource) : (s.setNonceSource n).pregs = s.pregs := rfl
@[simp] theorem setNonceSource_ie (s : State) (n : NonceSource) : (s.setNonceSource n).ie = s.ie := rfl
@[simp] theorem setNonceSource_nmode (s : State) (n : NonceSource) : (s.setNonceSource n).nmode = s.nmode := rfl
@[simp] theorem setNonceSource_done (s : State) (n : NonceSource) : (s.setNonceSource n).done = s.done := rfl
@[simp] theorem setNonceSource_flag (s : State) (n : NonceSource) : (s.setNonceSource n).flag = s.flag := rfl
@[simp] theorem setNonceSource_nonceValid (s : State) (n : NonceSource) : (s.setNonceSource n).nonceValid = n.valid := rfl
@[simp] theorem setNonceSource_busyErr (s : State) (n : NonceSource) : (s.setNonceSource n).busyErr = s.busyErr := rfl
@[simp] theorem setNonceSource_err (s : State) (n : NonceSource) : (s.setNonceSource n).err = s.err := rfl
@[simp] theorem setNonceSource_lastCmd (s : State) (n : NonceSource) : (s.setNonceSource n).lastCmd = s.lastCmd := rfl
@[simp] theorem setNonceSource_nonce (s : State) (n : NonceSource) : (s.setNonceSource n).nonce = s.nonce := rfl
@[simp] theorem setNonceSource_latch (s : State) (n : NonceSource) : (s.setNonceSource n).latch = s.latch := rfl
@[simp] theorem setNonceSource_delay (s : State) (n : NonceSource) : (s.setNonceSource n).delay = s.delay := rfl
@[simp] theorem setNonceSource_draws (s : State) (n : NonceSource) : (s.setNonceSource n).draws = n.draws := rfl
@[simp] theorem setNonceSource_host (s : State) (n : NonceSource) : (s.setNonceSource n).host = s.host := rfl
@[simp] theorem setNonceSource_resp (s : State) (n : NonceSource) : (s.setNonceSource n).resp = s.resp := rfl

/-! ### `accept` -/

@[simp] theorem accept_vregs (s : State) (w : Word) : (s.accept w).vregs = s.vregs := rfl
@[simp] theorem accept_pregs (s : State) (w : Word) : (s.accept w).pregs = s.pregs := rfl
@[simp] theorem accept_ie (s : State) (w : Word) : (s.accept w).ie = s.ie := rfl
@[simp] theorem accept_nmode (s : State) (w : Word) : (s.accept w).nmode = s.nmode := rfl
@[simp] theorem accept_done (s : State) (w : Word) : (s.accept w).done = false := rfl
@[simp] theorem accept_flag (s : State) (w : Word) : (s.accept w).flag = s.flag := rfl
@[simp] theorem accept_nonceValid (s : State) (w : Word) : (s.accept w).nonceValid = s.nonceValid := rfl
@[simp] theorem accept_busyErr (s : State) (w : Word) : (s.accept w).busyErr = s.busyErr := rfl
@[simp] theorem accept_err (s : State) (w : Word) : (s.accept w).err = none := rfl
@[simp] theorem accept_lastCmd (s : State) (w : Word) : (s.accept w).lastCmd = w := rfl
@[simp] theorem accept_nonce (s : State) (w : Word) : (s.accept w).nonce = s.nonce := rfl
@[simp] theorem accept_latch (s : State) (w : Word) : (s.accept w).latch = some { word := w, nmode := s.nmode } := rfl
@[simp] theorem accept_delay (s : State) (w : Word) : (s.accept w).delay = Config.latency s.draws := rfl
@[simp] theorem accept_draws (s : State) (w : Word) : (s.accept w).draws = s.draws + 1 := rfl
@[simp] theorem accept_host (s : State) (w : Word) : (s.accept w).host = s.host := rfl
@[simp] theorem accept_resp (s : State) (w : Word) : (s.accept w).resp = s.resp := rfl

/-! ### `dropWrite` -/

@[simp] theorem dropWrite_vregs (s : State) : s.dropWrite.vregs = s.vregs := rfl
@[simp] theorem dropWrite_pregs (s : State) : s.dropWrite.pregs = s.pregs := rfl
@[simp] theorem dropWrite_ie (s : State) : s.dropWrite.ie = s.ie := rfl
@[simp] theorem dropWrite_nmode (s : State) : s.dropWrite.nmode = s.nmode := rfl
@[simp] theorem dropWrite_done (s : State) : s.dropWrite.done = s.done := rfl
@[simp] theorem dropWrite_flag (s : State) : s.dropWrite.flag = s.flag := rfl
@[simp] theorem dropWrite_nonceValid (s : State) : s.dropWrite.nonceValid = s.nonceValid := rfl
@[simp] theorem dropWrite_busyErr (s : State) : s.dropWrite.busyErr = true := rfl
@[simp] theorem dropWrite_err (s : State) : s.dropWrite.err = s.err := rfl
@[simp] theorem dropWrite_lastCmd (s : State) : s.dropWrite.lastCmd = s.lastCmd := rfl
@[simp] theorem dropWrite_nonce (s : State) : s.dropWrite.nonce = s.nonce := rfl
@[simp] theorem dropWrite_latch (s : State) : s.dropWrite.latch = s.latch := rfl
@[simp] theorem dropWrite_delay (s : State) : s.dropWrite.delay = s.delay := rfl
@[simp] theorem dropWrite_draws (s : State) : s.dropWrite.draws = s.draws := rfl
@[simp] theorem dropWrite_host (s : State) : s.dropWrite.host = s.host := rfl
@[simp] theorem dropWrite_resp (s : State) : s.dropWrite.resp = s.resp := rfl

/-! ### `writeStatus` -/

@[simp] theorem writeStatus_vregs (s : State) (d : Word) : (s.writeStatus d).vregs = s.vregs := rfl
@[simp] theorem writeStatus_pregs (s : State) (d : Word) : (s.writeStatus d).pregs = s.pregs := rfl
@[simp] theorem writeStatus_ie (s : State) (d : Word) : (s.writeStatus d).ie = s.ie := rfl
@[simp] theorem writeStatus_nmode (s : State) (d : Word) : (s.writeStatus d).nmode = s.nmode := rfl
@[simp] theorem writeStatus_done (s : State) (d : Word) : (s.writeStatus d).done = (s.done && !d.getLsbD 1) := rfl
@[simp] theorem writeStatus_flag (s : State) (d : Word) : (s.writeStatus d).flag = s.flag := rfl
@[simp] theorem writeStatus_nonceValid (s : State) (d : Word) : (s.writeStatus d).nonceValid = s.nonceValid := rfl
@[simp] theorem writeStatus_busyErr (s : State) (d : Word) : (s.writeStatus d).busyErr = (s.busyErr && !d.getLsbD 4) := rfl
@[simp] theorem writeStatus_err (s : State) (d : Word) : (s.writeStatus d).err = s.err := rfl
@[simp] theorem writeStatus_lastCmd (s : State) (d : Word) : (s.writeStatus d).lastCmd = s.lastCmd := rfl
@[simp] theorem writeStatus_nonce (s : State) (d : Word) : (s.writeStatus d).nonce = s.nonce := rfl
@[simp] theorem writeStatus_latch (s : State) (d : Word) : (s.writeStatus d).latch = s.latch := rfl
@[simp] theorem writeStatus_delay (s : State) (d : Word) : (s.writeStatus d).delay = s.delay := rfl
@[simp] theorem writeStatus_draws (s : State) (d : Word) : (s.writeStatus d).draws = s.draws := rfl
@[simp] theorem writeStatus_host (s : State) (d : Word) : (s.writeStatus d).host = s.host := rfl
@[simp] theorem writeStatus_resp (s : State) (d : Word) : (s.writeStatus d).resp = s.resp := rfl

/-! ### `resetCore` -/

@[simp] theorem resetCore_vregs (s : State) : s.resetCore.vregs = State.reset.vregs := rfl
@[simp] theorem resetCore_pregs (s : State) : s.resetCore.pregs = State.reset.pregs := rfl
@[simp] theorem resetCore_ie (s : State) : s.resetCore.ie = State.reset.ie := rfl
@[simp] theorem resetCore_nmode (s : State) : s.resetCore.nmode = State.reset.nmode := rfl
@[simp] theorem resetCore_done (s : State) : s.resetCore.done = State.reset.done := rfl
@[simp] theorem resetCore_flag (s : State) : s.resetCore.flag = State.reset.flag := rfl
@[simp] theorem resetCore_nonceValid (s : State) : s.resetCore.nonceValid = State.reset.nonceValid := rfl
@[simp] theorem resetCore_busyErr (s : State) : s.resetCore.busyErr = State.reset.busyErr := rfl
@[simp] theorem resetCore_err (s : State) : s.resetCore.err = State.reset.err := rfl
@[simp] theorem resetCore_lastCmd (s : State) : s.resetCore.lastCmd = State.reset.lastCmd := rfl
@[simp] theorem resetCore_nonce (s : State) : s.resetCore.nonce = State.reset.nonce := rfl
@[simp] theorem resetCore_latch (s : State) : s.resetCore.latch = State.reset.latch := rfl
@[simp] theorem resetCore_delay (s : State) : s.resetCore.delay = State.reset.delay := rfl
@[simp] theorem resetCore_draws (s : State) : s.resetCore.draws = s.draws := rfl
@[simp] theorem resetCore_host (s : State) : s.resetCore.host = s.host := rfl
@[simp] theorem resetCore_resp (s : State) : s.resetCore.resp = s.resp := rfl

/-! ### Reading a register after an update -/

@[simp] theorem vreg_setV_same (s : State) (i : VIdx) (x : VReg) : (s.setV i x).vreg i = x := by
  simp [State.vreg]

theorem vreg_setV_ne (s : State) {i j : VIdx} (x : VReg) (h : j ≠ i) : (s.setV i x).vreg j = s.vreg j := by
  have hv : (i : Nat) ≠ (j : Nat) := fun e => h (Fin.ext e.symm)
  simp [State.vreg, hv]

@[simp] theorem preg_setP_same (s : State) (j : PIdx) (pt : Point) : (s.setP j pt).preg j = { pt := pt, valid := true } := by
  simp [State.preg]

theorem preg_setP_ne (s : State) {i j : PIdx} (pt : Point) (h : j ≠ i) : (s.setP i pt).preg j = s.preg j := by
  have hv : (i : Nat) ≠ (j : Nat) := fun e => h (Fin.ext e.symm)
  simp [State.preg, hv]

@[simp] theorem preg_setV (s : State) (i : VIdx) (x : VReg) (j : PIdx) : (s.setV i x).preg j = s.preg j := rfl
@[simp] theorem vreg_setP (s : State) (j : PIdx) (pt : Point) (i : VIdx) : (s.setP j pt).vreg i = s.vreg i := rfl
@[simp] theorem vreg_setFlag (s : State) (b : Bool) (i : VIdx) : (s.setFlag b).vreg i = s.vreg i := rfl
@[simp] theorem preg_setFlag (s : State) (b : Bool) (j : PIdx) : (s.setFlag b).preg j = s.preg j := rfl
@[simp] theorem vreg_retire (s : State) (e : Option Err) (i : VIdx) : (s.retire e).vreg i = s.vreg i := rfl
@[simp] theorem preg_retire (s : State) (e : Option Err) (j : PIdx) : (s.retire e).preg j = s.preg j := rfl
@[simp] theorem vreg_setNonceSource (s : State) (n : NonceSource) (i : VIdx) : (s.setNonceSource n).vreg i = s.vreg i := rfl
@[simp] theorem preg_setNonceSource (s : State) (n : NonceSource) (j : PIdx) : (s.setNonceSource n).preg j = s.preg j := rfl
@[simp] theorem vreg_accept (s : State) (w : Word) (i : VIdx) : (s.accept w).vreg i = s.vreg i := rfl
@[simp] theorem preg_accept (s : State) (w : Word) (j : PIdx) : (s.accept w).preg j = s.preg j := rfl
@[simp] theorem busy_retire (s : State) (e : Option Err) : (s.retire e).busy = false := rfl
@[simp] theorem busy_accept (s : State) (w : Word) : (s.accept w).busy = true := rfl
@[simp] theorem busy_resetCore (s : State) : s.resetCore.busy = false := rfl

@[simp] theorem vreg_reset (i : VIdx) : State.reset.vreg i = VReg.empty := by simp [State.vreg, State.reset]
@[simp] theorem preg_reset (j : PIdx) : State.reset.preg j = PReg.empty := by simp [State.preg, State.reset]

theorem vregs_ext {s t : State} (h : ∀ i, t.vreg i = s.vreg i) : t.vregs = s.vregs := by
  apply Vector.ext
  intro i hi
  exact h ⟨i, hi⟩

theorem pregs_ext {s t : State} (h : ∀ j, t.preg j = s.preg j) : t.pregs = s.pregs := by
  apply Vector.ext
  intro j hj
  exact h ⟨j, hj⟩

theorem busy_iff_latch (s : State) : s.busy = true ↔ ∃ l, s.latch = some l := by
  simp [State.busy, Option.isSome_iff_exists]

end Sys2Proof.Machine
end

