-- ==== Sys2Proof/Laws/Bus.lean ====
section
/-! SUPPORT. Where each register stands in the window (20_memory.md R61 to R63), and everything a read or a write of the
window can do. -/

namespace Sys2Proof.Machine

/-! ### The map -/

theorem locate_val (i : VIdx) (j : Fin 8) :
    locate (BitVec.ofNat 12 (0x100 + 0x40 * i.val + 4 * j.val)) = .valWord i j := by revert i j; decide +kernel
theorem locate_mod (i : VIdx) (j : Fin 8) :
    locate (BitVec.ofNat 12 (0x120 + 0x40 * i.val + 4 * j.val)) = .modWord i j := by revert i j; decide +kernel
theorem locate_nonce (j : Fin 8) : locate (BitVec.ofNat 12 (0x020 + 4 * j.val)) = .nonceWord j := by revert j; decide +kernel
theorem locate_ptInf (j : PIdx) : locate (BitVec.ofNat 12 (0x800 + 0x100 * j.val)) = .ptInf j := by revert j; decide +kernel
theorem locate_ptX (j : PIdx) (k : Fin 8) :
    locate (BitVec.ofNat 12 (0x820 + 0x100 * j.val + 4 * k.val)) = .ptX j k := by revert j k; decide +kernel
theorem locate_ptY (j : PIdx) (k : Fin 8) :
    locate (BitVec.ofNat 12 (0x840 + 0x100 * j.val + 4 * k.val)) = .ptY j k := by revert j k; decide +kernel
theorem locate_ptA (j : PIdx) (k : Fin 8) :
    locate (BitVec.ofNat 12 (0x860 + 0x100 * j.val + 4 * k.val)) = .ptA j k := by revert j k; decide +kernel
theorem locate_ptB (j : PIdx) (k : Fin 8) :
    locate (BitVec.ofNat 12 (0x880 + 0x100 * j.val + 4 * k.val)) = .ptB j k := by revert j k; decide +kernel
theorem locate_ptP (j : PIdx) (k : Fin 8) :
    locate (BitVec.ofNat 12 (0x8A0 + 0x100 * j.val + 4 * k.val)) = .ptP j k := by revert j k; decide +kernel

/-- The point window is exactly the offsets from 0x800 up (R61). -/
theorem inPointWindow_iff (off : BitVec 12) : (locate off).inPointWindow = decide (0x800 ≤ off.toNat) := by
  revert off; decide +kernel

/-- The value window is exactly the offsets 0x100 to 0x4FF (R61). -/
theorem inValueWindow_iff (off : BitVec 12) :
    (locate off).inValueWindow = (decide (0x100 ≤ off.toNat) && decide (off.toNat < 0x500)) := by
  revert off; decide +kernel

/-! ### What a read and a write can do -/

/-- A read changes nothing but the count of free values (R69, R72(b)). -/
theorem afterRead_cases (s : State) (l : Loc) :
    (s.readsFree l = false ∧ s.afterRead l = s) ∨ (s.readsFree l = true ∧ s.afterRead l = { s with draws := s.draws + 1 }) := by
  unfold State.afterRead
  cases h : s.readsFree l <;> simp

/-- An idle core reads back its registers, never a free value (R69). -/
theorem readData_idle {s : State} (h : s.busy = false) (l : Loc) : s.readData l = s.locValue l := by
  simp [State.readData, State.readsFree, h]

/-- Everything a write of one word of the window can do (R66, R70, R72). -/
theorem writeLoc_cases (s : State) (l : Loc) (d : Word) :
    s.writeLoc l d = s
    ∨ (l = .ctrl ∧ d.getLsbD 31 = true ∧ s.writeLoc l d = s.resetCore)
    ∨ (l = .ctrl ∧ d.getLsbD 31 = false ∧ s.writeLoc l d = { s with ie := d.getLsbD 0, nmode := d.getLsbD 1 })
    ∨ (l = .status ∧ s.writeLoc l d = s.writeStatus d)
    ∨ (l = .cmd ∧ s.busy = false ∧ s.writeLoc l d = s.accept d)
    ∨ ((l = .cmd ∨ (∃ j, l = .nonceWord j) ∨ l.inValueWindow = true) ∧ s.busy = true ∧ s.writeLoc l d = s.dropWrite)
    ∨ (∃ j, l = .nonceWord j ∧ s.busy = false
        ∧ s.writeLoc l d = { s with nonce := setWordAt s.nonce j d, nonceValid := true })
    ∨ (∃ i j, l = .valWord i j ∧ s.busy = false
        ∧ s.writeLoc l d = s.setV i { val := setWordAt (s.vreg i).val j d, mod := 0#256, valid := true }) := by
  cases hb : s.busy <;> cases l <;>
    simp [State.writeLoc, State.writeCtrl, State.writeCmd, State.writeNonce, State.writeVal, State.writeMod, hb,
      Loc.inValueWindow]
  all_goals by_cases hd : d[31] = true <;> simp [hd]

end Sys2Proof.Machine
end

