-- ==== Sys2Proof/Laws/Decode.lean ====
section
/-! SUPPORT. The fields of a packed word, the index of a field, and the small facts of the opcode map. -/

namespace Sys2Proof

@[simp] theorem opcBits_pack (opc : BitVec 8) (f : Fields) : opcBits (pack opc f) = opc := by
  apply BitVec.eq_of_getLsbD_eq
  intro b hb
  simp only [opcBits, pack, BitVec.getLsbD_extractLsb', BitVec.getLsbD_append, hb, decide_true, Bool.true_and]
  simp [hb]

@[simp] theorem rsvBits_pack (opc : BitVec 8) (f : Fields) : rsvBits (pack opc f) = 0#4 := by
  apply BitVec.eq_of_getLsbD_eq
  intro b hb
  simp only [rsvBits, pack, BitVec.getLsbD_extractLsb', BitVec.getLsbD_append, hb, decide_true, Bool.true_and]
  have h1 : ¬ 28 + b < 8 := by omega
  have h2 : ¬ 28 + b - 8 < 4 := by omega
  have h3 : ¬ 28 + b - 8 - 4 < 4 := by omega
  have h4 : ¬ 28 + b - 8 - 4 - 4 < 4 := by omega
  have h5 : ¬ 28 + b - 8 - 4 - 4 - 4 < 4 := by omega
  have h6 : ¬ 28 + b - 8 - 4 - 4 - 4 - 4 < 4 := by omega
  simp [h1, h2, h3, h4, h5, h6]

@[simp] theorem fieldsOf_pack (opc : BitVec 8) (f : Fields) : fieldsOf (pack opc f) = f := by
  have key : ∀ (k n : Nat) (g : BitVec 4), n < 5 → k = 8 + 4 * n →
      g = (if n = 0 then f.fa else if n = 1 then f.fb else if n = 2 then f.fc else if n = 3 then f.fd else f.fe) →
      (pack opc f).extractLsb' k 4 = g := by
    intro k n g hn hk hg
    apply BitVec.eq_of_getLsbD_eq
    intro b hb
    simp only [pack, BitVec.getLsbD_extractLsb', BitVec.getLsbD_append, hb, decide_true, Bool.true_and]
    have h1 : ¬ k + b < 8 := by omega
    rw [if_neg h1]
    subst hk
    match n, hn with
    | 0, _ =>
      have h3 : 8 + 4 * 0 + b - 8 = b := by omega
      simp [h3, hg, hb]
    | 1, _ =>
      have h2 : ¬ 8 + 4 * 1 + b - 8 < 4 := by omega
      have h3 : 8 + 4 * 1 + b - 8 - 4 < 4 := by omega
      have h4 : 8 + 4 * 1 + b - 8 - 4 = b := by omega
      simp [h2, h4, hb, hg]
    | 2, _ =>
      have h2 : ¬ 8 + 4 * 2 + b - 8 < 4 := by omega
      have h3 : ¬ 8 + 4 * 2 + b - 8 - 4 < 4 := by omega
      have h4 : 8 + 4 * 2 + b - 8 - 4 - 4 = b := by omega
      simp [h2, h3, h4, hb, hg]
    | 3, _ =>
      have h2 : ¬ 8 + 4 * 3 + b - 8 < 4 := by omega
      have h3 : ¬ 8 + 4 * 3 + b - 8 - 4 < 4 := by omega
      have h4 : ¬ 8 + 4 * 3 + b - 8 - 4 - 4 < 4 := by omega
      have h5 : 8 + 4 * 3 + b - 8 - 4 - 4 - 4 = b := by omega
      simp [h2, h3, h4, h5, hb, hg]
    | 4, _ =>
      have h2 : ¬ 8 + 4 * 4 + b - 8 < 4 := by omega
      have h3 : ¬ 8 + 4 * 4 + b - 8 - 4 < 4 := by omega
      have h4 : ¬ 8 + 4 * 4 + b - 8 - 4 - 4 < 4 := by omega
      have h5 : ¬ 8 + 4 * 4 + b - 8 - 4 - 4 - 4 < 4 := by omega
      have h6 : 8 + 4 * 4 + b - 8 - 4 - 4 - 4 - 4 = b := by omega
      simp [h2, h3, h4, h5, h6, hb, hg]
  unfold fieldsOf
  rw [key 8 0 f.fa (by omega) rfl rfl, key 12 1 f.fb (by omega) rfl rfl, key 16 2 f.fc (by omega) rfl rfl,
    key 20 3 f.fd (by omega) rfl rfl, key 24 4 f.fe (by omega) rfl rfl]

/-- A word with RSV = 0 is packed from its own fields (R91). -/
theorem pack_fieldsOf (w : Word) (h : rsvBits w = 0#4) : pack (opcBits w) (fieldsOf w) = w := by
  apply BitVec.eq_of_getLsbD_eq
  intro b hb
  have hr : ∀ c, c < 4 → w.getLsbD (28 + c) = false := by
    intro c hc
    have := congrArg (fun v => v.getLsbD c) h
    simpa [rsvBits, BitVec.getLsbD_extractLsb', hc] using this
  simp only [pack, fieldsOf, opcBits, BitVec.getLsbD_append, BitVec.getLsbD_extractLsb']
  by_cases h0 : b < 8
  · simp [h0]
  by_cases h1 : b - 8 < 4
  · have : 8 + (b - 8) = b := by omega
    simp [h0, h1, this]
  by_cases h2 : b - 8 - 4 < 4
  · have : 12 + (b - 8 - 4) = b := by omega
    simp [h0, h1, h2, this]
  by_cases h3 : b - 8 - 4 - 4 < 4
  · have : 16 + (b - 8 - 4 - 4) = b := by omega
    simp [h0, h1, h2, h3, this]
  by_cases h4 : b - 8 - 4 - 4 - 4 < 4
  · have : 20 + (b - 8 - 4 - 4 - 4) = b := by omega
    simp [h0, h1, h2, h3, h4, this]
  by_cases h5 : b - 8 - 4 - 4 - 4 - 4 < 4
  · have : 24 + (b - 8 - 4 - 4 - 4 - 4) = b := by omega
    simp [h0, h1, h2, h3, h4, h5, this]
  · have hz := hr (b - 28) (by omega)
    have : 28 + (b - 28) = b := by omega
    rw [this] at hz
    simp [h0, h1, h2, h3, h4, h5, hz]

@[simp] theorem opOf_opc (o : Op) : opOf o.opc = some o := by cases o <;> decide

/-- An OPC selects a row exactly when it is that row's OPC (R95). -/
theorem opOf_eq_some {opc : BitVec 8} {o : Op} (h : opOf opc = some o) : opc = o.opc := by
  have := List.find?_some h
  exact (by simpa using this : o.opc = opc).symm

@[simp] theorem vIdx_vField (i : VIdx) : vIdx (vField i) = i := by revert i; decide
@[simp] theorem pIdx_pField (j : PIdx) : pIdx (pField j) = j := by revert j; decide
@[simp] theorem pField_bit3 (j : PIdx) : (pField j).getLsbD 3 = false := by revert j; decide
@[simp] theorem vField_vIdx (f : BitVec 4) : vField (vIdx f) = f := by revert f; decide
theorem pField_pIdx {f : BitVec 4} (h : f.getLsbD 3 = false) : pField (pIdx f) = f := by revert f; decide
theorem vField_injective {i j : VIdx} (h : vField i = vField j) : i = j := by
  have := congrArg vIdx h
  simpa using this

/-- The masks of spec/opcode_table.json are the masks R99 builds from the roles. -/
theorem mask_eq_maskOfRoles (o : Op) : o.mask = o.maskOfRoles := by cases o <;> decide

@[simp] theorem op_build (o : Op) (f : Fields) : (o.build f).op = o := by cases o <;> rfl

/-- Everything the decoder can accept: the row, the RSV field, the field checks and ESIGN's destinations (R100). -/
theorem decode_ok_cases {w : Word} {i : Instr} (h : decode w = .ok i) :
    ∃ o, opOf (opcBits w) = some o ∧ rsvBits w = 0#4 ∧ o.fieldsError (fieldsOf w) = none
      ∧ ¬ (o = .esign ∧ (fieldsOf w).fa = (fieldsOf w).fb) ∧ i = o.build (fieldsOf w) := by
  unfold decode at h
  split at h
  · cases h
  · rename_i o ho
    split at h
    · cases h
    · rename_i hr
      split at h
      · cases h
      · rename_i hf
        split at h
        · cases h
        · rename_i he
          exact ⟨o, ho, by simpa using hr, hf, he, by simpa using h.symm⟩

/-- When the checks of R100 pass, the decoder accepts. -/
theorem decode_of_checks {w : Word} {o : Op} (ho : opOf (opcBits w) = some o) (hr : rsvBits w = 0#4)
    (hf : o.fieldsError (fieldsOf w) = none) (he : ¬ (o = .esign ∧ (fieldsOf w).fa = (fieldsOf w).fb)) :
    decode w = .ok (o.build (fieldsOf w)) := by
  simp [decode, ho, hr, hf, he]

end Sys2Proof
end

