-- ==== Sys2Proof/Laws/Ops.lean ====
section
/-! SUPPORT. What the shared operations of a command can do: the operand checks, COMPLETE and `raise`, and everything a
command run through them can answer. -/

namespace Sys2Proof.Machine

@[simp] theorem complete_ok (s t : State) : s.complete (.ok t) = .next (t.retire none) := rfl
@[simp] theorem complete_error (s : State) (e : Err) : s.complete (.error e) = .next (s.retire (some e)) := rfl
@[simp] theorem raise_eq (s : State) (e : Err) : s.raise e = .next (s.retire (some e)) := rfl
@[simp] theorem putV_ok (s : State) (d : VIdx) (x : VReg) : s.putV d (.ok x) = .ok (s.setV d x) := rfl
@[simp] theorem putV_error (s : State) (d : VIdx) (e : Err) : s.putV d (.error e) = .error e := rfl
@[simp] theorem putP_ok (s : State) (d : PIdx) (p : Point) : s.putP d (.ok p) = .ok (s.setP d p) := rfl
@[simp] theorem putP_error (s : State) (d : PIdx) (e : Err) : s.putP d (.error e) = .error e := rfl

/-- The operand checks pass exactly when every source holds a value and every `fs` source a field element (R102, R103). -/
theorem operandError_none_iff (s : State) (srcs : List Src) :
    s.operandError srcs = none ↔ (∀ x ∈ srcs, x.valid s = true) ∧ ∀ x ∈ srcs, x.kindOk s = true := by
  rw [← List.all_eq_true, ← List.all_eq_true, State.operandError]
  cases srcs.all (Src.valid s) <;> cases srcs.all (Src.kindOk s) <;> simp

/-- UNINIT_OPERAND is reported whenever some source holds no value, whatever its kind (R102, R244). -/
theorem operandError_uninit (s : State) (srcs : List Src) (h : ∃ x ∈ srcs, x.valid s = false) :
    s.operandError srcs = some .uninitOperand := by
  obtain ⟨x, hx, hf⟩ := h
  have : srcs.all (Src.valid s) = false := by
    rw [Bool.eq_false_iff]
    intro hall
    rw [List.all_eq_true.mp hall x hx] at hf
    cases hf
  simp [State.operandError, this]

/-- OPERAND_KIND is reported when every source holds a value and some `fs` source an integer (R103, R244). -/
theorem operandError_kind (s : State) (srcs : List Src) (hv : ∀ x ∈ srcs, x.valid s = true)
    (h : ∃ x ∈ srcs, x.kindOk s = false) : s.operandError srcs = some .operandKind := by
  obtain ⟨x, hx, hf⟩ := h
  have hk : srcs.all (Src.kindOk s) = false := by
    rw [Bool.eq_false_iff]
    intro hall
    rw [List.all_eq_true.mp hall x hx] at hf
    cases hf
  have hva : srcs.all (Src.valid s) = true := List.all_eq_true.mpr hv
  simp [State.operandError, hk, hva]

/-- The operand checks report one of two codes. -/
theorem operandError_cases (s : State) (srcs : List Src) :
    s.operandError srcs = none ∨ s.operandError srcs = some .uninitOperand ∨ s.operandError srcs = some .operandKind := by
  rw [State.operandError]
  cases srcs.all (Src.valid s) <;> cases srcs.all (Src.kindOk s) <;> simp

theorem run_of_checks {s : State} {srcs : List Src} (h : s.operandError srcs = none) (r : Except Err State) :
    s.run srcs r = s.complete r := by
  simp [State.run, h]

theorem run_of_error {s : State} {srcs : List Src} {e : Err} (h : s.operandError srcs = some e) (r : Except Err State) :
    s.run srcs r = .next (s.retire (some e)) := by
  simp [State.run, h]

/-- Everything a command run through the operand checks and COMPLETE can answer. -/
theorem run_cases {s t : State} {srcs : List Src} {r : Except Err State} (h : s.run srcs r = .next t) :
    (∃ e, (e = .uninitOperand ∨ e = .operandKind) ∧ s.operandError srcs = some e ∧ t = s.retire (some e)) ∨
    (s.operandError srcs = none ∧ ∃ e, r = .error e ∧ t = s.retire (some e)) ∨
    (s.operandError srcs = none ∧ ∃ u, r = .ok u ∧ t = u.retire none) := by
  rcases operandError_cases s srcs with hn | hu | hk
  · rw [run_of_checks hn] at h
    cases r with
    | error e => exact .inr (.inl ⟨hn, e, rfl, by simpa using h.symm⟩)
    | ok u => exact .inr (.inr ⟨hn, u, rfl, by simpa using h.symm⟩)
  · rw [run_of_error hu] at h
    exact .inl ⟨_, .inl rfl, hu, by simpa using h.symm⟩
  · rw [run_of_error hk] at h
    exact .inl ⟨_, .inr rfl, hk, by simpa using h.symm⟩

/-- A command run through the operand checks and COMPLETE always answers a next state, with BUSY = 0 and DONE = 1. -/
theorem run_completes (s : State) (srcs : List Src) (r : Except Err State) :
    ∃ t, s.run srcs r = .next t ∧ t.latch = none ∧ t.done = true := by
  rcases ho : s.operandError srcs with _ | e
  · rw [run_of_checks ho]
    cases r with
    | error e => exact ⟨_, rfl, rfl, rfl⟩
    | ok u => exact ⟨_, rfl, rfl, rfl⟩
  · rw [run_of_error ho]
    exact ⟨_, rfl, rfl, rfl⟩

theorem putV_eq_ok {s u : State} {d : VIdx} {r : Except Err VReg} (h : s.putV d r = .ok u) :
    ∃ x, r = .ok x ∧ u = s.setV d x := by
  cases r with
  | error e => simp at h
  | ok x => exact ⟨x, rfl, by simpa using h.symm⟩

theorem putP_eq_ok {s u : State} {d : PIdx} {r : Except Err Point} (h : s.putP d r = .ok u) :
    ∃ q, r = .ok q ∧ u = s.setP d q := by
  cases r with
  | error e => simp at h
  | ok q => exact ⟨q, rfl, by simpa using h.symm⟩

theorem putV_eq_error {s : State} {d : VIdx} {r : Except Err VReg} {e : Err} (h : s.putV d r = .error e) :
    r = .error e := by
  cases r with
  | error e' => simpa using h
  | ok x => simp at h

theorem putP_eq_error {s : State} {d : PIdx} {r : Except Err Point} {e : Err} (h : s.putP d r = .error e) :
    r = .error e := by
  cases r with
  | error e' => simpa using h
  | ok q => simp at h

/-- The code of an error is never the code of OK. -/
theorem code_ne_zero (e : Err) : e.code ≠ 0#8 := by cases e <;> decide

/-- Different errors have different codes (R242). -/
theorem code_injective {e f : Err} (h : e.code = f.code) : e = f := by
  cases e <;> cases f <;> first | rfl | exact absurd h (by decide)

end Sys2Proof.Machine
end

