-- ==== Sys2Proof/Laws/Point.lean ====
section
/-! SUPPORT. Everything the point procedures can answer (41_point.md R161 to R167). -/

namespace Sys2Proof.Machine

/-- `ONCURVE` is the curve equation modulo `p` (R161). -/
theorem onCurve_iff (x y a b : Nat) {p : Nat} (hp : 0 < p) :
    onCurve x y a b p = true ↔ ((y * y : Int) - (x * x * x + a * x + b)) % p = 0 := by
  unfold onCurve
  rw [beq_iff_eq, ← modInt_cast _ hp]
  exact Int.natCast_eq_zero.symm

/-- R165. -/
theorem checkedPoint_cases (x y : Nat) (a b p : W256) :
    (onCurve x y a.toNat b.toNat p.toNat = true
      ∧ checkedPoint x y a b p = .ok { inf := false, x := BitVec.ofNat 256 x, y := BitVec.ofNat 256 y, a := a, b := b, p := p })
    ∨ (onCurve x y a.toNat b.toNat p.toNat = false ∧ checkedPoint x y a b p = .error .notOnCurve) := by
  unfold checkedPoint
  cases onCurve x y a.toNat b.toNat p.toNat <;> simp

theorem slope_cases (num den : Int) (p : Nat) :
    (modInt den p = 0 ∧ slope num den p = .error .divByZero)
    ∨ (modInt den p ≠ 0 ∧ slope num den p = .ok (modInt num p * powField (modInt den p) (p - 2) p % p)) := by
  unfold slope
  rcases invField_cases (modInt den p) p with ⟨h, e⟩ | ⟨h, e⟩
  · exact .inl ⟨h, by rw [e]; rfl⟩
  · exact .inr ⟨h, by rw [e]; rfl⟩

theorem addPoints_mismatch {p1 p2 : Point} (h : p1.curve ≠ p2.curve) : addPoints p1 p2 = .error .curveMismatch := by
  simp [addPoints, h]

theorem addPoints_left_identity {p1 p2 : Point} (hc : p1.curve = p2.curve) (h : p1.inf = true) : addPoints p1 p2 = .ok p2 := by
  simp [addPoints, hc, h]

theorem addPoints_right_identity {p1 p2 : Point} (hc : p1.curve = p2.curve) (h1 : p1.inf = false) (h2 : p2.inf = true) :
    addPoints p1 p2 = .ok p1 := by
  simp [addPoints, hc, h1, h2]

theorem addPoints_inverse {p1 p2 : Point} (hc : p1.curve = p2.curve) (h1 : p1.inf = false) (h2 : p2.inf = false)
    (hx : p1.x = p2.x) (hy : p1.y ≠ p2.y) : addPoints p1 p2 = .ok (identityOn p1.a p1.b p1.p) := by
  simp [addPoints, hc, h1, h2, hx, hy]

theorem addPoints_chord {p1 p2 : Point} (hc : p1.curve = p2.curve) (h1 : p1.inf = false) (h2 : p2.inf = false)
    (hx : p1.x ≠ p2.x) : addPoints p1 p2 = chordRule p1 p2 := by
  simp [addPoints, hc, h1, h2, hx]

theorem addPoints_vertical {p1 p2 : Point} (hc : p1.curve = p2.curve) (h1 : p1.inf = false) (h2 : p2.inf = false)
    (hx : p1.x = p2.x) (hy : p1.y = p2.y) (h0 : p1.y = 0#256) : addPoints p1 p2 = .ok (identityOn p1.a p1.b p1.p) := by
  have hy2 : p2.y = 0#256 := by rw [← hy, h0]
  simp [addPoints, hc, h1, h2, hx, h0, hy2]

theorem addPoints_tangent {p1 p2 : Point} (hc : p1.curve = p2.curve) (h1 : p1.inf = false) (h2 : p2.inf = false)
    (hx : p1.x = p2.x) (hy : p1.y = p2.y) (h0 : p1.y ≠ 0#256) : addPoints p1 p2 = tangentRule p1 := by
  have hy2 : p2.y ≠ 0#256 := by rw [← hy]; exact h0
  simp [addPoints, hc, h1, h2, hx, hy, hy2]

/-- What the end of cases 4 and 6 can answer. -/
theorem lineThird_cases (sl x1 y1 x2 : Nat) (a b p : W256) :
    (∃ x3 y3 : Nat, x3 = modInt ((sl * sl : Int) - x1 - x2) p.toNat
        ∧ y3 = modInt ((sl : Int) * ((x1 : Int) - x3) - y1) p.toNat
        ∧ onCurve x3 y3 a.toNat b.toNat p.toNat = true
        ∧ lineThird sl x1 y1 x2 a b p
            = .ok { inf := false, x := BitVec.ofNat 256 x3, y := BitVec.ofNat 256 y3, a := a, b := b, p := p })
    ∨ lineThird sl x1 y1 x2 a b p = .error .notOnCurve := by
  unfold lineThird
  rcases checkedPoint_cases (modInt ((sl * sl : Int) - x1 - x2) p.toNat)
      (modInt ((sl : Int) * ((x1 : Int) - (modInt ((sl * sl : Int) - x1 - x2) p.toNat : Nat)) - y1) p.toNat) a b p
    with ⟨hc, e⟩ | ⟨_, e⟩
  · exact .inl ⟨_, _, rfl, rfl, hc, e⟩
  · exact .inr e

/-- The shape of cases 4 and 6: the slope's error, or a point of the curve, or NOT_ON_CURVE. -/
theorem lineRule_cases (num den : Int) (x1 y1 x2 : Nat) (a b p : W256) :
    (slope num den p.toNat).bind (fun sl => lineThird sl x1 y1 x2 a b p) = .error .divByZero
    ∨ (slope num den p.toNat).bind (fun sl => lineThird sl x1 y1 x2 a b p) = .error .notOnCurve
    ∨ ∃ (sl x3 y3 : Nat), slope num den p.toNat = .ok sl
        ∧ x3 = modInt ((sl * sl : Int) - x1 - x2) p.toNat
        ∧ y3 = modInt ((sl : Int) * ((x1 : Int) - x3) - y1) p.toNat
        ∧ onCurve x3 y3 a.toNat b.toNat p.toNat = true
        ∧ (slope num den p.toNat).bind (fun sl => lineThird sl x1 y1 x2 a b p)
            = .ok { inf := false, x := BitVec.ofNat 256 x3, y := BitVec.ofNat 256 y3, a := a, b := b, p := p } := by
  rcases slope_cases num den p.toNat with ⟨_, e⟩ | ⟨_, e⟩
  · exact .inl (by rw [e]; rfl)
  · rw [e]
    rcases lineThird_cases _ x1 y1 x2 a b p with ⟨x3, y3, h1, h2, h3, h4⟩ | h
    · exact .inr (.inr ⟨_, x3, y3, rfl, h1, h2, h3, h4⟩)
    · exact .inr (.inl h)

/-- Everything ADD can answer (R164): an error of three kinds, one of its operands, the identity of the operands' curve, or
a point that passed CHECKED on that curve. -/
theorem addPoints_cases (p1 p2 : Point) :
    addPoints p1 p2 = .error .curveMismatch ∨ addPoints p1 p2 = .error .divByZero ∨ addPoints p1 p2 = .error .notOnCurve
    ∨ (p1.curve = p2.curve ∧ addPoints p1 p2 = .ok p2)
    ∨ (p1.curve = p2.curve ∧ addPoints p1 p2 = .ok p1)
    ∨ (p1.curve = p2.curve ∧ addPoints p1 p2 = .ok (identityOn p1.a p1.b p1.p))
    ∨ (p1.curve = p2.curve ∧ ∃ (v1 v2 : Int),
        onCurve (modInt v1 p1.p.toNat) (modInt v2 p1.p.toNat) p1.a.toNat p1.b.toNat p1.p.toNat = true
        ∧ addPoints p1 p2
            = .ok { inf := false, x := BitVec.ofNat 256 (modInt v1 p1.p.toNat), y := BitVec.ofNat 256 (modInt v2 p1.p.toNat),
                    a := p1.a, b := p1.b, p := p1.p }) := by
  by_cases hc : p1.curve = p2.curve
  swap
  · exact .inl (addPoints_mismatch hc)
  cases h1 : p1.inf
  swap
  · exact .inr (.inr (.inr (.inl ⟨hc, addPoints_left_identity hc h1⟩)))
  cases h2 : p2.inf
  swap
  · exact .inr (.inr (.inr (.inr (.inl ⟨hc, addPoints_right_identity hc h1 h2⟩))))
  by_cases hx : p1.x = p2.x
  · by_cases hy : p1.y = p2.y
    · by_cases h0 : p1.y = 0#256
      · exact .inr (.inr (.inr (.inr (.inr (.inl ⟨hc, addPoints_vertical hc h1 h2 hx hy h0⟩)))))
      · rw [addPoints_tangent hc h1 h2 hx hy h0, tangentRule]
        rcases lineRule_cases (3 * p1.x.toNat * p1.x.toNat + p1.a.toNat) (2 * p1.y.toNat) p1.x.toNat p1.y.toNat p1.x.toNat
          p1.a p1.b p1.p with h | h | ⟨sl, x3, y3, _, rfl, rfl, h3, h4⟩
        · exact .inr (.inl h)
        · exact .inr (.inr (.inl h))
        · exact .inr (.inr (.inr (.inr (.inr (.inr ⟨hc, _, _, h3, h4⟩)))))
    · exact .inr (.inr (.inr (.inr (.inr (.inl ⟨hc, addPoints_inverse hc h1 h2 hx hy⟩)))))
  · rw [addPoints_chord hc h1 h2 hx, chordRule]
    rcases lineRule_cases ((p2.y.toNat : Int) - p1.y.toNat) ((p2.x.toNat : Int) - p1.x.toNat) p1.x.toNat p1.y.toNat p2.x.toNat
      p1.a p1.b p1.p with h | h | ⟨sl, x3, y3, _, rfl, rfl, h3, h4⟩
    · exact .inr (.inl h)
    · exact .inr (.inr (.inl h))
    · exact .inr (.inr (.inr (.inr (.inr (.inr ⟨hc, _, _, h3, h4⟩)))))

end Sys2Proof.Machine
end

