-- ==== Sys2Proof/Laws/Scalar.lean ====
section
/-! SUPPORT. The unfolding of double-and-add, and the induction over its loop packaged once (42_scalar.md R190). -/

namespace Sys2Proof.Machine

theorem smulLoop_zero (k : Nat) (r c : Point) : smulLoop 0 k r c = .ok r := rfl

/-- One iteration that answers: the addition (on an odd scalar), the doubling, and the rest of the loop (R190). -/
theorem smulLoop_succ_ok {n k : Nat} {r c q : Point} (h : smulLoop (n + 1) k r c = .ok q) :
    ∃ r' c', (if k % 2 = 1 then addPoints r c else .ok r) = .ok r' ∧ addPoints c c = .ok c'
      ∧ smulLoop n (k / 2) r' c' = .ok q := by
  simp only [smulLoop] at h
  rcases h1 : (if k % 2 = 1 then addPoints r c else .ok r) with e | r'
  · rw [h1] at h
    cases h
  · rw [h1] at h
    rcases h2 : addPoints c c with e | c'
    · simp [Except.bind, h2] at h
    · simp [Except.bind, h2] at h
      exact ⟨r', c', rfl, rfl, h⟩

theorem smulLoop_succ {n k : Nat} {r c r' c' : Point} (h1 : (if k % 2 = 1 then addPoints r c else .ok r) = .ok r')
    (h2 : addPoints c c = .ok c') : smulLoop (n + 1) k r c = smulLoop n (k / 2) r' c' := by
  simp [smulLoop, Except.bind, h1, h2]

/-- An iteration whose addition raises (R190). -/
theorem smulLoop_add_error {n k : Nat} {r c : Point} {e : Err} (hk : k % 2 = 1) (h : addPoints r c = .error e) :
    smulLoop (n + 1) k r c = .error e := by
  simp [smulLoop, Except.bind, hk, h]

/-- An iteration whose doubling raises (R190, C3). -/
theorem smulLoop_double_error {n k : Nat} {r c r' : Point} {e : Err}
    (h1 : (if k % 2 = 1 then addPoints r c else .ok r) = .ok r') (h2 : addPoints c c = .error e) :
    smulLoop (n + 1) k r c = .error e := by
  simp [smulLoop, Except.bind, h1, h2]

/-- A property of points that ADD keeps holds of everything the loop answers. -/
theorem smulLoop_keeps (I : Point → Prop) (hadd : ∀ p q r, I p → I q → addPoints p q = .ok r → I r) :
    ∀ (n k : Nat) (r c q : Point), I r → I c → smulLoop n k r c = .ok q → I q := by
  intro n
  induction n with
  | zero =>
    intro k r c q hr _ h
    rw [smulLoop_zero] at h
    cases h
    exact hr
  | succ n ih =>
    intro k r c q hr hc h
    obtain ⟨r', c', h1, h2, h3⟩ := smulLoop_succ_ok h
    refine ih _ _ _ _ ?_ (hadd _ _ _ hc hc h2) h3
    split at h1
    · exact hadd _ _ _ hr hc h1
    · cases h1
      exact hr

/-- When ADD answers on every two points with a property it keeps, the loop answers. -/
theorem smulLoop_answers (I : Point → Prop) (hadd : ∀ p q, I p → I q → ∃ r, addPoints p q = .ok r ∧ I r) :
    ∀ (n k : Nat) (r c : Point), I r → I c → ∃ q, smulLoop n k r c = .ok q ∧ I q := by
  intro n
  induction n with
  | zero => exact fun k r c hr _ => ⟨r, rfl, hr⟩
  | succ n ih =>
    intro k r c hr hc
    obtain ⟨c', h2, hc'⟩ := hadd c c hc hc
    by_cases hk : k % 2 = 1
    · obtain ⟨r', h1, hr'⟩ := hadd r c hr hc
      obtain ⟨q, hq, hI⟩ := ih (k / 2) r' c' hr' hc'
      exact ⟨q, by rw [smulLoop_succ (by rw [if_pos hk, h1]) h2]; exact hq, hI⟩
    · obtain ⟨q, hq, hI⟩ := ih (k / 2) r c' hr hc'
      exact ⟨q, by rw [smulLoop_succ (if_neg hk) h2]; exact hq, hI⟩

/-- The loop runs at most 256 times for a scalar read from a register (R195, R292). -/
theorem bitLength_reducedScalar_le (pt : Point) (k : W256) : bitLength (reducedScalar pt k.toNat) ≤ 256 := by
  apply bitLength_le
  unfold reducedScalar
  split
  · exact lt_of_le_of_lt (Nat.mod_le _ _) k.isLt
  · exact k.isLt

end Sys2Proof.Machine
end

