-- ==== Sys2Proof/Laws/Ecdsa.lean ====
section
/-! SUPPORT. Everything the nonce source, a signing attempt, the signing loop and ESIGN can do (43_ecdsa.md R211 to R216). -/

namespace Sys2Proof.Machine

theorem inScalarRange_iff (k : Nat) : inScalarRange k = true ↔ 1 ≤ k ∧ k < secpN := by
  simp [inScalarRange]

/-- Every draw of the nonce source is in `[1, N-1]` (R214). -/
theorem drawNonce_inRange (n : Nat) : inScalarRange (drawNonce n) = true := by
  rw [inScalarRange_iff]
  unfold drawNonce
  have h : Config.nonceRaw n % (secpN - 1) < secpN - 1 := Nat.mod_lt _ (by decide)
  have h2 : 1 ≤ secpN := by decide
  omega

/-- Everything NEXT_NONCE can do (R214). -/
theorem nextNonce_cases (mode : Bool) (n : NonceSource) :
    (mode = false ∧ nextNonce mode n = ({ n with draws := n.draws + 1 }, .ok (drawNonce n.draws)))
    ∨ (mode = true ∧ n.valid = false ∧ nextNonce mode n = (n, .error .nonceEmpty))
    ∨ (mode = true ∧ n.valid = true ∧ inScalarRange n.nonce.toNat = false
        ∧ nextNonce mode n = ({ n with valid := false }, .error .valueRange))
    ∨ (mode = true ∧ n.valid = true ∧ inScalarRange n.nonce.toNat = true
        ∧ nextNonce mode n = ({ n with valid := false }, .ok n.nonce.toNat)) := by
  cases mode
  · exact .inl ⟨rfl, rfl⟩
  · cases hv : n.valid
    · exact .inr (.inl ⟨rfl, rfl, by simp [nextNonce, hv]⟩)
    · cases hr : inScalarRange n.nonce.toNat
      · exact .inr (.inr (.inl ⟨rfl, rfl, rfl, by simp [nextNonce, hv, hr]⟩))
      · exact .inr (.inr (.inr ⟨rfl, rfl, rfl, by simp [nextNonce, hv, hr]⟩))

/-- A nonce the source answers is in `[1, N-1]` (R214). -/
theorem nextNonce_ok_inRange {mode : Bool} {n n' : NonceSource} {k : Nat} (h : nextNonce mode n = (n', .ok k)) :
    inScalarRange k = true := by
  rcases nextNonce_cases mode n with ⟨_, e⟩ | ⟨_, _, e⟩ | ⟨_, _, _, e⟩ | ⟨_, _, hr, e⟩ <;> rw [e] at h <;> cases h
  · exact drawNonce_inRange _
  · exact hr

/-- What an attempt answers for a nonce whose point is `pt` (R213 steps 2 to 5). -/
theorem signAttempt_eq {sec z k : Nat} {pt : Point} (h : smul pointG k = .ok pt) :
    signAttempt sec z k = .ok
      (if pt.x.toNat = 0 ∨ secpN ≤ pt.x.toNat then none
       else if (z + pt.x.toNat * sec) * powmod k (secpN - 2) secpN % secpN = 0 then none
       else some (pt.x.toNat, (z + pt.x.toNat * sec) * powmod k (secpN - 2) secpN % secpN)) := by
  simp [signAttempt, h, Except.map]

/-- A signature an attempt answers has both components in `[1, N-1]` (R213, C2). -/
theorem signAttempt_range {sec z k r sg : Nat} (h : signAttempt sec z k = .ok (some (r, sg))) :
    (1 ≤ r ∧ r < secpN) ∧ 1 ≤ sg ∧ sg < secpN := by
  rcases hp : smul pointG k with e | pt
  · simp [signAttempt, hp, Except.map] at h
  · rw [signAttempt_eq hp] at h
    simp only [Except.ok.injEq] at h
    split at h
    · cases h
    · split at h
      · cases h
      · rename_i h1 h2
        simp only [Option.some.injEq, Prod.mk.injEq] at h
        obtain ⟨rfl, rfl⟩ := h
        have := Nat.mod_lt ((z + pt.x.toNat * sec) * powmod k (secpN - 2) secpN) (show 0 < secpN by decide)
        omega

theorem signLoop_zero (mode : Bool) (sec z : Nat) (n : NonceSource) :
    signLoop mode sec z 0 n = (n, .error .retryExhausted) := rfl

theorem signLoop_nonce_error {mode : Bool} {sec z fuel : Nat} {n n' : NonceSource} {e : Err}
    (h : nextNonce mode n = (n', .error e)) : signLoop mode sec z (fuel + 1) n = (n', .error e) := by
  simp [signLoop, h]

theorem signLoop_attempt_error {mode : Bool} {sec z fuel k : Nat} {n n' : NonceSource} {e : Err}
    (h : nextNonce mode n = (n', .ok k)) (ha : signAttempt sec z k = .error e) :
    signLoop mode sec z (fuel + 1) n = (n', .error e) := by
  simp [signLoop, h, ha]

theorem signLoop_signed {mode : Bool} {sec z fuel k : Nat} {n n' : NonceSource} {sig : Nat × Nat}
    (h : nextNonce mode n = (n', .ok k)) (ha : signAttempt sec z k = .ok (some sig)) :
    signLoop mode sec z (fuel + 1) n = (n', .ok sig) := by
  simp [signLoop, h, ha]

theorem signLoop_retry {mode : Bool} {sec z fuel k : Nat} {n n' : NonceSource}
    (h : nextNonce mode n = (n', .ok k)) (ha : signAttempt sec z k = .ok none) :
    signLoop mode sec z (fuel + 1) n = signLoop mode sec z fuel n' := by
  simp [signLoop, h, ha]

/-- A property of the nonce source that each request keeps holds after the whole loop. -/
theorem signLoop_source (J : NonceSource → Prop) (mode : Bool) (hj : ∀ n, J n → J (nextNonce mode n).1) (sec z : Nat) :
    ∀ (fuel : Nat) (n : NonceSource), J n → J (signLoop mode sec z fuel n).1 := by
  intro fuel
  induction fuel with
  | zero => exact fun n h => h
  | succ fuel ih =>
    intro n h
    have h1 := hj n h
    rcases hn : nextNonce mode n with ⟨n', e | k⟩
    · rw [signLoop_nonce_error hn]
      rwa [hn] at h1
    · rw [hn] at h1
      rcases ha : signAttempt sec z k with e | o
      · rw [signLoop_attempt_error hn ha]
        exact h1
      · rcases o with _ | sig
        · rw [signLoop_retry hn ha]
          exact ih n' h1
        · rw [signLoop_signed hn ha]
          exact h1

/-- Everything ESIGN can answer: an error of the operand checks, INVALID_KEY, or what SIGN answers, with the nonce source as
SIGN left it (R212, R241). -/
theorem execEsign_cases {r sg sec z : VIdx} {s t : State} (h : execEsign r sg sec z s = .next t) :
    (∃ e, (e = .uninitOperand ∨ e = .operandKind) ∧ s.operandError [.vs sec, .vs z] = some e ∧ t = s.retire (some e))
    ∨ (inScalarRange (s.vreg sec).val.toNat = false ∧ t = s.retire (some .invalidKey))
    ∨ (inScalarRange (s.vreg sec).val.toNat = true ∧ ∃ n e,
        sign s.commandNmode (s.vreg sec).val.toNat (s.vreg z).val.toNat s.nonceSource = (n, .error e)
        ∧ t = (s.setNonceSource n).retire (some e))
    ∨ (inScalarRange (s.vreg sec).val.toNat = true ∧ ∃ n v w,
        sign s.commandNmode (s.vreg sec).val.toNat (s.vreg z).val.toNat s.nonceSource = (n, .ok (v, w))
        ∧ t = (((s.setNonceSource n).setV r (VReg.ofNat v 0#256)).setV sg (VReg.ofNat w 0#256)).retire none) := by
  unfold execEsign at h
  rcases operandError_cases s [.vs sec, .vs z] with ho | ho | ho
  · rw [ho] at h
    simp only [State.signInto] at h
    cases hr : inScalarRange (s.vreg sec).val.toNat
    · simp [hr] at h
      exact .inr (.inl ⟨rfl, h.symm⟩)
    · rcases hs : sign s.commandNmode (s.vreg sec).val.toNat (s.vreg z).val.toNat s.nonceSource with ⟨n, e | ⟨v, w⟩⟩
      · simp [hr, hs, Except.map] at h
        exact .inr (.inr (.inl ⟨rfl, n, e, rfl, h.symm⟩))
      · simp [hr, hs, Except.map] at h
        exact .inr (.inr (.inr ⟨rfl, n, v, w, rfl, h.symm⟩))
  · rw [ho] at h
    exact .inl ⟨_, .inl rfl, ho, by simpa using h.symm⟩
  · rw [ho] at h
    exact .inl ⟨_, .inr rfl, ho, by simpa using h.symm⟩

end Sys2Proof.Machine
end

