-- ==== Sys2Proof/Laws/Step.lean ====
section
/-! SUPPORT. The inversion of `step`: if it answers a next state, then one of these cases holds. -/

namespace Sys2Proof.Machine

theorem step_idle {s : State} (hl : s.latch = none) (hh : s.host = []) : step s = .next s := by simp [step, hl, hh]

theorem step_serve {s : State} {op : HostOp} {rest : List HostOp} (hl : s.latch = none) (hh : s.host = op :: rest) :
    step s = .next (s.serve op rest) := by
  simp [step, hl, hh]

theorem step_serveBusy {s : State} {l : Latch} {op : HostOp} {rest : List HostOp} (hl : s.latch = some l)
    (hh : s.host = op :: rest) (hd : s.delay ≠ 0) : step s = .next (s.serveBusy op rest) := by
  have : s.completionDue = false := by simp [State.completionDue, hh, hd]
  simp [step, hl, hh, this]

theorem step_complete {s : State} {l : Latch} (hl : s.latch = some l) (hd : s.completionDue = true) :
    step s = completeLatched l s := by
  rcases hh : s.host with _ | ⟨op, rest⟩ <;> simp [step, hl, hh, hd]

theorem completeLatched_ok {l : Latch} {i : Instr} (h : decode l.word = .ok i) (s : State) :
    completeLatched l s = exec i s := by
  simp [completeLatched, h]

theorem completeLatched_error {l : Latch} {e : DecodeError} (h : decode l.word = .error e) (s : State) :
    completeLatched l s = .next (s.retire (some .illegalCmd)) := by
  simp [completeLatched, h]

/-- Everything a step can do. -/
theorem step_cases {s t : State} (h : step s = .next t) :
    (∃ l, s.latch = some l ∧ s.completionDue = true ∧ completeLatched l s = .next t)
    ∨ (∃ l op rest, s.latch = some l ∧ s.host = op :: rest ∧ s.delay ≠ 0 ∧ t = s.serveBusy op rest)
    ∨ (∃ op rest, s.latch = none ∧ s.host = op :: rest ∧ t = s.serve op rest)
    ∨ (s.latch = none ∧ s.host = [] ∧ t = s) := by
  rcases hl : s.latch with _ | l
  · rcases hh : s.host with _ | ⟨op, rest⟩
    · rw [step_idle hl hh] at h
      exact .inr (.inr (.inr ⟨rfl, rfl, by simpa using h.symm⟩))
    · rw [step_serve hl hh] at h
      exact .inr (.inr (.inl ⟨op, rest, rfl, rfl, by simpa using h.symm⟩))
  · by_cases hd : s.completionDue = true
    · rw [step_complete hl hd] at h
      exact .inl ⟨l, rfl, hd, h⟩
    · rcases hh : s.host with _ | ⟨op, rest⟩
      · simp [State.completionDue, hh] at hd
      · have hz : s.delay ≠ 0 := by
          intro hz
          simp [State.completionDue, hz] at hd
        rw [step_serveBusy hl hh hz] at h
        exact .inr (.inl ⟨l, op, rest, rfl, rfl, hz, by simpa using h.symm⟩)

end Sys2Proof.Machine
end

