-- ==== Sys2Proof/Laws/Exec.lean ====
section
/-! SUPPORT. The inversions of `exec` and `serve`: everything a command can answer, and everything one host input can do. -/

namespace Sys2Proof.Machine

/-! ### Commands -/

/-- The nonce source of a state, put back, changes nothing. -/
theorem setNonceSource_self (s : State) : s.setNonceSource s.nonceSource = s := rfl

/-- A draw or a consumption never sets NONCE_VALID (R214). -/
theorem nextNonce_valid (mode : Bool) (n : NonceSource) (h : (nextNonce mode n).1.valid = true) : n.valid = true := by
  rcases nextNonce_cases mode n with ⟨_, e⟩ | ⟨_, hv, e⟩ | ⟨_, hv, _, e⟩ | ⟨_, hv, _, e⟩ <;> rw [e] at h
  · exact h
  · exact h
  · cases h
  · cases h

/-- SIGN never sets NONCE_VALID (R214). -/
theorem sign_valid (mode : Bool) (sec z : Nat) (n : NonceSource) (h : (sign mode sec z n).1.valid = true) : n.valid = true := by
  by_contra hv
  have key := signLoop_source (fun m => m.valid ≠ true) mode (fun m hm hc => hm (nextNonce_valid mode m hc)) sec z
    Config.signMaxAttempts n hv
  exact key h

/-- What a command run through the operand checks can answer, in terms of a completion with or without a code. -/
theorem run_answer {s t : State} {srcs : List Src} {r : Except Err State} (h : s.run srcs r = .next t) :
    (∃ e, t = s.retire (some e) ∧ (e = .uninitOperand ∨ e = .operandKind ∨ r = .error e)) ∨ ∃ u, r = .ok u ∧ t = u.retire none := by
  rcases run_cases h with ⟨e, he, _, rfl⟩ | ⟨_, e, he, rfl⟩ | ⟨_, u, hu, rfl⟩
  · exact .inl ⟨e, rfl, he.elim .inl (fun h' => .inr (.inl h'))⟩
  · exact .inl ⟨e, rfl, .inr (.inr he)⟩
  · exact .inr ⟨u, hu, rfl⟩

/-- A command that writes one value register. -/
theorem run_putV_cases {s t : State} {srcs : List Src} {d : VIdx} {r : Except Err VReg}
    (h : s.run srcs (s.putV d r) = .next t) :
    (∃ e, t = s.retire (some e) ∧ (e = .uninitOperand ∨ e = .operandKind ∨ r = .error e))
    ∨ ∃ x, r = .ok x ∧ t = (s.setV d x).retire none := by
  rcases run_answer h with ⟨e, rfl, he⟩ | ⟨u, hu, rfl⟩
  · exact .inl ⟨e, rfl, he.imp id (fun h' => h'.imp id putV_eq_error)⟩
  · obtain ⟨x, hx, rfl⟩ := putV_eq_ok hu
    exact .inr ⟨x, hx, rfl⟩

/-- A command that writes one point register. -/
theorem run_putP_cases {s t : State} {srcs : List Src} {d : PIdx} {r : Except Err Point}
    (h : s.run srcs (s.putP d r) = .next t) :
    (∃ e, t = s.retire (some e) ∧ (e = .uninitOperand ∨ e = .operandKind ∨ r = .error e))
    ∨ ∃ q, r = .ok q ∧ t = (s.setP d q).retire none := by
  rcases run_answer h with ⟨e, rfl, he⟩ | ⟨u, hu, rfl⟩
  · exact .inl ⟨e, rfl, he.imp id (fun h' => h'.imp id putP_eq_error)⟩
  · obtain ⟨q, hq, rfl⟩ := putP_eq_ok hu
    exact .inr ⟨q, hq, rfl⟩

/-- A command completes in every state (R240). -/
theorem exec_completes (i : Instr) (s : State) : ∃ t, exec i s = .next t ∧ t.latch = none ∧ t.done = true := by
  cases i
  case esign r sg sec z =>
    change ∃ t, execEsign r sg sec z s = .next t ∧ t.latch = none ∧ t.done = true
    unfold execEsign
    rcases operandError_cases s [.vs sec, .vs z] with h | h | h <;> rw [h]
    case inl =>
      simp only [State.signInto]
      cases inScalarRange (s.vreg sec).val.toNat
      case false => exact ⟨_, rfl, rfl, rfl⟩
      rcases sign s.commandNmode (s.vreg sec).val.toNat (s.vreg z).val.toNat s.nonceSource with ⟨n, e | v⟩
      all_goals exact ⟨_, rfl, rfl, rfl⟩
    all_goals exact ⟨_, rfl, rfl, rfl⟩
  case pldg d => exact run_completes s [] (s.putP d (.ok pointG))
  all_goals exact run_completes s _ _

/-- A latched word completes in every state, legal or not (R96, R240). -/
theorem completeLatched_completes (l : Latch) (s : State) :
    ∃ t, completeLatched l s = .next t ∧ t.busy = false ∧ t.done = true := by
  rcases h : decode l.word with e | i
  · exact ⟨_, completeLatched_error h s, rfl, rfl⟩
  · rw [completeLatched_ok h]
    obtain ⟨t, ht, hl, hd⟩ := exec_completes i s
    exact ⟨t, ht, by simp [State.busy, hl], hd⟩

/-! ### Host inputs -/

/-- Everything one host input can do: it changes nothing of the core, or it resets it, or it is one of the writes of
R30 to R32, R36, R65 and R72. `u` is the state before it, but for the model's own inputs and free values. -/
theorem serve_cases (s : State) (op : HostOp) (rest : List HostOp) :
    ∃ (u v : State), SameCore s u ∧ u.delay = s.delay ∧ SameCore v (s.serve op rest) ∧ (s.serve op rest).delay = v.delay
      ∧ (v = u
        ∨ v = u.resetCore
        ∨ (∃ d : Word, v = { u with ie := d.getLsbD 0, nmode := d.getLsbD 1 })
        ∨ (∃ d : Word, v = u.writeStatus d)
        ∨ (∃ d : Word, u.latch = none ∧ v = u.accept d)
        ∨ v = u.dropWrite
        ∨ (∃ (j : Fin 8) (d : Word), u.latch = none ∧ v = { u with nonce := setWordAt u.nonce j d, nonceValid := true })
        ∨ ∃ (i : VIdx) (j : Fin 8) (d : Word), u.latch = none
            ∧ v = u.setV i { val := setWordAt (u.vreg i).val j d, mod := 0#256, valid := true }) := by
  have hbusy : ∀ u : State, u.busy = false → u.latch = none := fun u h => by simpa [State.busy] using h
  have refl : ∀ u : State, SameCore u u := fun u => ⟨rfl, rfl, rfl, rfl, rfl, rfl, rfl, rfl, rfl, rfl, rfl, rfl⟩
  cases op with
  | read off size =>
    refine ⟨s, s, refl s, rfl, ?_, ?_, .inl rfl⟩
    all_goals
      simp only [State.serve, State.busRead]
      split
      · rcases afterRead_cases ({ s with host := rest } : State) (locate off) with ⟨_, e⟩ | ⟨_, e⟩ <;> rw [e]
        all_goals first | rfl | exact refl s
      · first | rfl | exact refl s
  | write off size d =>
    simp only [State.serve, State.busWrite]
    split
    · refine ⟨({ s with host := rest } : State), ({ s with host := rest } : State).writeLoc (locate off) d, refl s, rfl,
        refl _, rfl, ?_⟩
      rcases writeLoc_cases ({ s with host := rest } : State) (locate off) d with e | ⟨_, _, e⟩ | ⟨_, _, e⟩ | ⟨_, e⟩
        | ⟨_, hb, e⟩ | ⟨_, _, e⟩ | ⟨j, _, hb, e⟩ | ⟨i, j, _, hb, e⟩ <;> rw [e]
      · exact .inl rfl
      · exact .inr (.inl rfl)
      · exact .inr (.inr (.inl ⟨d, rfl⟩))
      · exact .inr (.inr (.inr (.inl ⟨d, rfl⟩)))
      · exact .inr (.inr (.inr (.inr (.inl ⟨d, hbusy _ hb, rfl⟩))))
      · exact .inr (.inr (.inr (.inr (.inr (.inl rfl)))))
      · exact .inr (.inr (.inr (.inr (.inr (.inr (.inl ⟨j, d, hbusy _ hb, rfl⟩))))))
      · exact .inr (.inr (.inr (.inr (.inr (.inr (.inr ⟨i, j, d, hbusy _ hb, rfl⟩))))))
    · exact ⟨s, s, refl s, rfl, refl s, rfl, .inl rfl⟩
  | wait => exact ⟨s, s, refl s, rfl, refl s, rfl, .inl rfl⟩
  | hwReset => exact ⟨s, s.resetCore, refl s, rfl, refl _, rfl, .inr (.inl rfl)⟩

end Sys2Proof.Machine
end

