-- ==== Sys2Proof/Laws/SecpPrime.lean ====
section
/-! SUPPORT. The secp256k1 field modulus and the subgroup order are prime, by Pocklington's criterion along a chain of known
factors. 00_scope.md R10 calls P and N probably prime; here the kernel checks it. -/

namespace Sys2Proof.Machine

/-- The step of Pocklington's criterion: a base `a` and a prime `q` dividing `n - 1` force `q ∣ r - 1` for every prime
divisor `r` of `n`. -/
theorem pocklington_dvd {n q r a : Nat} (hn : 1 < n) (hq : q.Prime) (hr : r.Prime) (hrn : r ∣ n) (hqn : q ∣ n - 1)
    (h1 : powmod a (n - 1) n = 1) (h2 : Nat.gcd (powmod a ((n - 1) / q) n + (n - 1)) n = 1) : q ∣ r - 1 := by
  have : Fact r.Prime := ⟨hr⟩
  rw [powmod_eq] at h1 h2
  have hcast : ∀ x : Nat, ((x % n : Nat) : ZMod r) = (x : ZMod r) := by
    intro x
    rw [ZMod.natCast_eq_natCast_iff]
    exact (Nat.mod_modEq x n).of_dvd hrn
  have hpow : ((a : ZMod r) ^ ((n - 1) / q)) ^ q = 1 := by
    rw [← pow_mul, Nat.div_mul_cancel hqn, ← Nat.cast_pow, ← hcast, h1, Nat.cast_one]
  have hne : (a : ZMod r) ^ ((n - 1) / q) ≠ 1 := by
    intro he
    have hz : ((a ^ ((n - 1) / q) % n + (n - 1) : Nat) : ZMod r) = 0 := by
      rw [Nat.cast_add, hcast, Nat.cast_pow, he, Nat.cast_sub (le_of_lt hn), Nat.cast_one,
        (ZMod.natCast_eq_zero_iff n r).mpr hrn]
      ring
    have hd : r ∣ Nat.gcd (a ^ ((n - 1) / q) % n + (n - 1)) n :=
      Nat.dvd_gcd ((ZMod.natCast_eq_zero_iff _ r).mp hz) hrn
    rw [h2] at hd
    exact hr.one_lt.ne' (Nat.dvd_one.mp hd)
  have : Fact q.Prime := ⟨hq⟩
  have hord : orderOf ((a : ZMod r) ^ ((n - 1) / q)) = q := orderOf_eq_prime hpow hne
  have h0 : (a : ZMod r) ^ ((n - 1) / q) ≠ 0 := by
    intro hz
    rw [hz, zero_pow hq.ne_zero] at hpow
    exact zero_ne_one hpow
  rw [← hord]
  exact ZMod.orderOf_dvd_card_sub_one h0

/-- A number whose prime divisors are all 1 modulo some `f` with `f * f >= n` is prime. -/
theorem prime_of_dvd_sub_one {n f : Nat} (hn : 1 < n) (hf : n < (f + 1) * (f + 1))
    (h : ∀ r, r.Prime → r ∣ n → f ∣ r - 1) : n.Prime := by
  by_contra hc
  have hm := Nat.minFac_prime (ne_of_gt hn)
  have hd := h _ hm (Nat.minFac_dvd n)
  have hlt : f + 1 ≤ n.minFac := by
    have h2 := hm.two_le
    have := Nat.le_of_dvd (by omega) hd
    omega
  have hsq := Nat.minFac_sq_le_self (by omega) hc
  rw [pow_two] at hsq
  have := Nat.mul_le_mul hlt hlt
  omega

/-- Distinct primes that divide a number divide it together. -/
theorem prod_dvd_of_distinct_primes {m : Nat} :
    ∀ qs : List Nat, qs.Forall Nat.Prime → qs.Nodup → (∀ q ∈ qs, q ∣ m) → qs.prod ∣ m
  | [], _, _, _ => by simp
  | q :: qs, hp, hn, hd => by
    rw [List.forall_cons] at hp
    rw [List.nodup_cons] at hn
    rw [List.prod_cons]
    refine Nat.Coprime.mul_dvd_of_dvd_of_dvd (Nat.coprime_list_prod_right_iff.mpr fun r hr => ?_) (hd q (by simp))
      (prod_dvd_of_distinct_primes qs hp.2 hn.2 fun r hr => hd r (List.mem_cons_of_mem q hr))
    exact (Nat.coprime_primes hp.1 (List.forall_iff_forall_mem.mp hp.2 r hr)).mpr (fun h => hn.1 (h ▸ hr))

/-- What the kernel evaluates of Pocklington's criterion: `qs` are distinct divisors of `n - 1` whose product passes the
square root of `n`, and `a` is a base for each of them. -/
def certifies (n a : Nat) (qs : List Nat) : Bool :=
  decide (1 < n ∧ n < (qs.prod + 1) * (qs.prod + 1) ∧ qs.Nodup) && powmod a (n - 1) n == 1
    && qs.all fun q => (n - 1) % q == 0 && Nat.gcd (powmod a ((n - 1) / q) n + (n - 1)) n == 1

/-- Pocklington's criterion. -/
theorem prime_of_certificate {n : Nat} (a : Nat) (qs : List Nat) (hq : qs.Forall Nat.Prime) (h : certifies n a qs = true) :
    n.Prime := by
  simp only [certifies, Bool.and_eq_true, decide_eq_true_eq, beq_iff_eq, List.all_eq_true] at h
  obtain ⟨⟨⟨hn, hs, hd⟩, h1⟩, ha⟩ := h
  exact prime_of_dvd_sub_one hn hs fun r hr hrn => prod_dvd_of_distinct_primes qs hq hd fun q hqs =>
    pocklington_dvd hn (List.forall_iff_forall_mem.mp hq q hqs) hr hrn (Nat.dvd_of_mod_eq_zero (ha q hqs).1) h1 (ha q hqs).2

theorem prime_30bit : Nat.Prime 545358713 := prime_of_certificate 2 [28181] (by norm_num) (by decide +kernel)

theorem prime_27bit : Nat.Prime 107590001 := prime_of_certificate 3 [53, 29, 7] (by norm_num) (by decide +kernel)

theorem prime_26bit : Nat.Prime 44706919 := prime_of_certificate 2 [9349] (by norm_num) (by decide +kernel)

theorem prime_23bit : Nat.Prime 7240687 := prime_of_certificate 2 [1206781] (by norm_num) (by decide +kernel)

theorem prime_128bit : Nat.Prime 255515944373312847190720520512484175977 :=
  prime_of_certificate 2 [107590001, 7240687, 96557] ⟨prime_27bit, prime_23bit, by norm_num⟩ (by decide +kernel)

theorem prime_237bit : Nat.Prime 205115282021455665897114700593932402728804164701536103180137503955397371 :=
  prime_of_certificate 2 [255515944373312847190720520512484175977] prime_128bit (by decide +kernel)

theorem prime_256bit : Nat.Prime 115792089237316195423570985008687907853269984665640564039457584007908834671663 :=
  prime_of_certificate 2 [205115282021455665897114700593932402728804164701536103180137503955397371] prime_237bit
    (by decide +kernel)

theorem secpP_toNat : secpP.toNat = 115792089237316195423570985008687907853269984665640564039457584007908834671663 := by
  decide

/-- The secp256k1 field modulus is prime. -/
theorem secpP_prime : Nat.Prime secpP.toNat := by
  rw [secpP_toNat]
  exact prime_256bit

theorem prime_95bit : Nat.Prime 29047611873442575647497758179 :=
  prime_of_certificate 2 [545358713, 305873, 293] ⟨prime_30bit, by norm_num, by norm_num⟩ (by decide +kernel)

theorem prime_108bit : Nat.Prime 341948486974166000522343609283189 :=
  prime_of_certificate 2 [29047611873442575647497758179] prime_95bit (by decide +kernel)

theorem prime_67bit : Nat.Prime 174723607534414371449 :=
  prime_of_certificate 2 [44706919, 120233] ⟨prime_26bit, by norm_num⟩ (by decide +kernel)

/-- The subgroup order is prime. -/
theorem secpN_prime : Nat.Prime secpN :=
  prime_of_certificate 2 [341948486974166000522343609283189, 174723607534414371449] ⟨prime_108bit, prime_67bit⟩
    (by decide +kernel)

end Sys2Proof.Machine
end

