-- ==== Sys2Proof/Laws/Group.lean ====
section
/-! SUPPORT. The model's points over a prime modulus as points of Mathlib's Weierstrass curves: the casts into `ZMod p`, and the
chord and tangent of R164 as Mathlib's addition formulas. -/

namespace Sys2Proof.Machine

/-- `y^2 = x^3 + a*x + b` over `ZMod p`. -/
def weierstrass (p a b : Nat) : WeierstrassCurve.Affine (ZMod p) :=
  { a₁ := 0, a₂ := 0, a₃ := 0, a₄ := (a : ZMod p), a₆ := (b : ZMod p) }

theorem cast_modInt (v : Int) {p : Nat} (hp : 0 < p) : ((modInt v p : Nat) : ZMod p) = (v : ZMod p) := by
  have h : ((modInt v p : Nat) : ZMod p) = (((modInt v p : Nat) : Int) : ZMod p) := by push_cast; rfl
  rw [h, modInt_cast v hp, ZMod.intCast_mod]

/-- Numbers below the modulus are equal when their casts are. -/
theorem eq_of_cast_eq {p x y : Nat} (hx : x < p) (hy : y < p) (h : (x : ZMod p) = (y : ZMod p)) : x = y := by
  have := (ZMod.natCast_eq_natCast_iff' x y p).mp h
  rwa [Nat.mod_eq_of_lt hx, Nat.mod_eq_of_lt hy] at this

/-- `ONCURVE` is Mathlib's equation of the curve (R161). -/
theorem onCurve_iff_equation (x y a b : Nat) {p : Nat} (hp : 0 < p) :
    onCurve x y a b p = true ↔ (weierstrass p a b).Equation (x : ZMod p) (y : ZMod p) := by
  rw [onCurve_iff x y a b hp, WeierstrassCurve.Affine.equation_iff, ← Int.dvd_iff_emod_eq_zero,
    ← ZMod.intCast_zmod_eq_zero_iff_dvd]
  simp only [weierstrass]
  push_cast
  constructor
  · intro h
    linear_combination h
  · intro h
    linear_combination h

/-- The Fermat power is the inverse over a prime modulus (R129). -/
theorem cast_fermat {p : Nat} [hf : Fact p.Prime] {x : Nat} (hx : (x : ZMod p) ≠ 0) :
    ((powField x (p - 2) p : Nat) : ZMod p) = (x : ZMod p)⁻¹ := by
  have h2 := hf.out.two_le
  rw [powField_eq, if_neg (by omega), Nat.mod_eq_of_lt (show p - 2 < p - 1 by omega), ZMod.natCast_mod, Nat.cast_pow]
  apply eq_inv_of_mul_eq_one_left
  rw [← pow_succ, show p - 2 + 1 = p - 1 by omega]
  exact ZMod.pow_card_sub_one_eq_one hx

/-- The slope over a prime modulus is the quotient. -/
theorem slope_of_prime {p : Nat} [hf : Fact p.Prime] (num den : Int) (hd : (den : ZMod p) ≠ 0) :
    ∃ sl : Nat, slope num den p = .ok sl ∧ (sl : ZMod p) = (num : ZMod p) / (den : ZMod p) := by
  have hc := cast_modInt den hf.out.pos
  rcases slope_cases num den p with ⟨h, _⟩ | ⟨_, e⟩
  · exact absurd (by rw [← hc, h]; simp) hd
  · refine ⟨_, e, ?_⟩
    have hne : ((modInt den p : Nat) : ZMod p) ≠ 0 := by rw [hc]; exact hd
    rw [ZMod.natCast_mod, Nat.cast_mul, cast_fermat hne, cast_modInt num hf.out.pos, hc, div_eq_mul_inv]

/-- A residue fits in a register. -/
theorem toNat_ofNat_modInt (v : Int) (p : W256) (hp : 0 < p.toNat) :
    (BitVec.ofNat 256 (modInt v p.toNat)).toNat = modInt v p.toNat := by
  rw [BitVec.toNat_ofNat]
  exact Nat.mod_eq_of_lt (lt_trans (modInt_lt v hp) p.isLt)

/-- The end of cases 4 and 6 of R164 for a slope that puts the third point on the curve. -/
theorem lineThird_of_equation (sl x1 y1 x2 : Nat) (a b p : W256) (hp : 0 < p.toNat)
    (h : (weierstrass p.toNat a.toNat b.toNat).Equation
      ((weierstrass p.toNat a.toNat b.toNat).addX (x1 : ZMod p.toNat) x2 sl)
      ((weierstrass p.toNat a.toNat b.toNat).addY (x1 : ZMod p.toNat) x2 y1 sl)) :
    ∃ R : Point, lineThird sl x1 y1 x2 a b p = .ok R ∧ R.inf = false ∧ R.curve = (a, b, p)
      ∧ R.x.toNat < p.toNat ∧ R.y.toNat < p.toNat
      ∧ (R.x.toNat : ZMod p.toNat) = (weierstrass p.toNat a.toNat b.toNat).addX (x1 : ZMod p.toNat) x2 sl
      ∧ (R.y.toNat : ZMod p.toNat) = (weierstrass p.toNat a.toNat b.toNat).addY (x1 : ZMod p.toNat) x2 y1 sl
      ∧ onCurve R.x.toNat R.y.toNat a.toNat b.toNat p.toNat = true := by
  generalize hx3 : modInt ((sl * sl : Int) - x1 - x2) p.toNat = x3
  generalize hy3 : modInt ((sl : Int) * ((x1 : Int) - x3) - y1) p.toNat = y3
  have cx : (x3 : ZMod p.toNat) = (weierstrass p.toNat a.toNat b.toNat).addX (x1 : ZMod p.toNat) x2 sl := by
    rw [← hx3, cast_modInt _ hp, WeierstrassCurve.Affine.addX]
    simp only [weierstrass]
    push_cast
    ring
  have cy : (y3 : ZMod p.toNat) = (weierstrass p.toNat a.toNat b.toNat).addY (x1 : ZMod p.toNat) x2 y1 sl := by
    rw [WeierstrassCurve.Affine.addY, WeierstrassCurve.Affine.negAddY, WeierstrassCurve.Affine.negY, ← cx, ← hy3,
      cast_modInt _ hp]
    simp only [weierstrass]
    push_cast
    ring
  have hoc : onCurve x3 y3 a.toNat b.toNat p.toNat = true := by
    rw [onCurve_iff_equation _ _ _ _ hp, cx, cy]
    exact h
  have tx : (BitVec.ofNat 256 x3).toNat = x3 := by rw [← hx3]; exact toNat_ofNat_modInt _ _ hp
  have ty : (BitVec.ofNat 256 y3).toNat = y3 := by rw [← hy3]; exact toNat_ofNat_modInt _ _ hp
  refine ⟨{ inf := false, x := BitVec.ofNat 256 x3, y := BitVec.ofNat 256 y3, a := a, b := b, p := p }, ?_, rfl, rfl, ?_, ?_, ?_,
    ?_, ?_⟩
  · unfold lineThird
    simp only [hx3, hy3, checkedPoint, hoc, if_true]
  · rw [tx, ← hx3]
    exact modInt_lt _ hp
  · rw [ty, ← hy3]
    exact modInt_lt _ hp
  · rw [tx]
    exact cx
  · rw [ty]
    exact cy
  · rw [tx, ty]
    exact hoc

/-- A finite point that meets R25 satisfies Mathlib's equation. -/
theorem equation_of_ok {q : Point} (h : q.Ok) (hi : q.inf = false) :
    (weierstrass q.p.toNat q.a.toNat q.b.toNat).Equation (q.x.toNat : ZMod q.p.toNat) (q.y.toNat : ZMod q.p.toNat) := by
  rw [← onCurve_iff_equation _ _ _ _ h.1, onCurve_iff _ _ _ _ h.1]
  exact (h.2.2.2.2 hi).2.2

/-- Cases 4 and 6 of R164 over an odd prime modulus: the sum that Mathlib's formulas give, and it is a point of the curve. -/
theorem addPoints_of_prime {p1 p2 : Point} (h1 : p1.Ok) (h2 : p2.Ok) (hc : p1.curve = p2.curve) [hf : Fact p1.p.toNat.Prime]
    (hodd : p1.p.toNat ≠ 2) (hi : p1.inf = false) (hj : p2.inf = false)
    (hn : ¬ (p1.x = p2.x ∧ (p1.y ≠ p2.y ∨ p1.y = 0#256))) :
    ∃ R, addPoints p1 p2 = .ok R ∧ R.Ok ∧ R.curve = p1.curve ∧ R.inf = false
      ∧ (R.x.toNat : ZMod p1.p.toNat) = (weierstrass p1.p.toNat p1.a.toNat p1.b.toNat).addX (p1.x.toNat : ZMod p1.p.toNat)
          p2.x.toNat ((weierstrass p1.p.toNat p1.a.toNat p1.b.toNat).slope (p1.x.toNat : ZMod p1.p.toNat) p2.x.toNat p1.y.toNat
            p2.y.toNat)
      ∧ (R.y.toNat : ZMod p1.p.toNat) = (weierstrass p1.p.toNat p1.a.toNat p1.b.toNat).addY (p1.x.toNat : ZMod p1.p.toNat)
          p2.x.toNat p1.y.toNat ((weierstrass p1.p.toNat p1.a.toNat p1.b.toNat).slope (p1.x.toNat : ZMod p1.p.toNat) p2.x.toNat
            p1.y.toNat p2.y.toNat) := by
  have hp := hf.out
  obtain ⟨ea, eb, ep⟩ : p2.a = p1.a ∧ p2.b = p1.b ∧ p2.p = p1.p := by
    simp only [Point.curve, Prod.mk.injEq] at hc
    exact ⟨hc.1.symm, hc.2.1.symm, hc.2.2.symm⟩
  have bx1 := (h1.2.2.2.2 hi).1
  have by1 := (h1.2.2.2.2 hi).2.1
  have bx2 : p2.x.toNat < p1.p.toNat := by rw [← ep]; exact (h2.2.2.2.2 hj).1
  have e1 := equation_of_ok h1 hi
  have e2 : (weierstrass p1.p.toNat p1.a.toNat p1.b.toNat).Equation (p2.x.toNat : ZMod p1.p.toNat) (p2.y.toNat : ZMod p1.p.toNat) := by
    have := equation_of_ok h2 hj
    rw [ea, eb, ep] at this
    exact this
  have hneg : ∀ x y : ZMod p1.p.toNat, (weierstrass p1.p.toNat p1.a.toNat p1.b.toNat).negY x y = -y := by
    intro x y
    simp [WeierstrassCurve.Affine.negY, weierstrass]
  have fin : ∀ sl : Nat, (sl : ZMod p1.p.toNat) = (weierstrass p1.p.toNat p1.a.toNat p1.b.toNat).slope (p1.x.toNat : ZMod p1.p.toNat)
        p2.x.toNat p1.y.toNat p2.y.toNat →
      ¬ ((p1.x.toNat : ZMod p1.p.toNat) = p2.x.toNat ∧ (p1.y.toNat : ZMod p1.p.toNat)
        = (weierstrass p1.p.toNat p1.a.toNat p1.b.toNat).negY (p2.x.toNat : ZMod p1.p.toNat) p2.y.toNat) →
      addPoints p1 p2 = lineThird sl p1.x.toNat p1.y.toNat p2.x.toNat p1.a p1.b p1.p →
      ∃ R, addPoints p1 p2 = .ok R ∧ R.Ok ∧ R.curve = p1.curve ∧ R.inf = false
        ∧ (R.x.toNat : ZMod p1.p.toNat) = (weierstrass p1.p.toNat p1.a.toNat p1.b.toNat).addX (p1.x.toNat : ZMod p1.p.toNat)
            p2.x.toNat ((weierstrass p1.p.toNat p1.a.toNat p1.b.toNat).slope (p1.x.toNat : ZMod p1.p.toNat) p2.x.toNat p1.y.toNat
              p2.y.toNat)
        ∧ (R.y.toNat : ZMod p1.p.toNat) = (weierstrass p1.p.toNat p1.a.toNat p1.b.toNat).addY (p1.x.toNat : ZMod p1.p.toNat)
            p2.x.toNat p1.y.toNat ((weierstrass p1.p.toNat p1.a.toNat p1.b.toNat).slope (p1.x.toNat : ZMod p1.p.toNat) p2.x.toNat
              p1.y.toNat p2.y.toNat) := by
    intro sl hsl hxy hadd
    have heq := WeierstrassCurve.Affine.equation_add e1 e2 hxy
    rw [← hsl] at heq
    obtain ⟨R, hR, hRi, hRc, hRx, hRy, cx, cy, hoc⟩ := lineThird_of_equation sl p1.x.toNat p1.y.toNat p2.x.toNat p1.a p1.b p1.p
      hp.pos heq
    obtain ⟨ra, rb, rp⟩ : R.a = p1.a ∧ R.b = p1.b ∧ R.p = p1.p := by
      simp only [Point.curve, Prod.mk.injEq] at hRc
      exact hRc
    refine ⟨R, hadd.trans hR, ?_, hRc, hRi, by rw [cx, hsl], by rw [cy, hsl]⟩
    rw [onCurve_iff _ _ _ _ hp.pos] at hoc
    refine ⟨by rw [rp]; exact h1.1, by rw [ra, rp]; exact h1.2.1, by rw [rb, rp]; exact h1.2.2.1,
      fun hinf => absurd hinf (by simp [hRi]), fun _ => ⟨by rw [rp]; exact hRx, by rw [rp]; exact hRy, ?_⟩⟩
    rw [ra, rb, rp]
    exact hoc
  by_cases hx : p1.x = p2.x
  · have hy : p1.y = p2.y := by
      by_contra hy
      exact hn ⟨hx, .inl hy⟩
    have h0 : p1.y ≠ 0#256 := fun h => hn ⟨hx, .inr h⟩
    have h0' : p1.y.toNat ≠ 0 := fun h => h0 (BitVec.eq_of_toNat_eq (by simpa using h))
    have hyne : (p1.y.toNat : ZMod p1.p.toNat) ≠ 0 := by
      intro h
      have := (ZMod.natCast_eq_zero_iff _ _).mp h
      exact h0' (Nat.eq_zero_of_dvd_of_lt this by1)
    have h2ne : (2 : ZMod p1.p.toNat) ≠ 0 := by
      intro h
      have h2' : ((2 : Nat) : ZMod p1.p.toNat) = 0 := by exact_mod_cast h
      have := (ZMod.natCast_eq_zero_iff _ _).mp h2'
      have hle := Nat.le_of_dvd (by omega) this
      have := hp.two_le
      omega
    have hyn : (p1.y.toNat : ZMod p1.p.toNat)
        ≠ (weierstrass p1.p.toNat p1.a.toNat p1.b.toNat).negY (p2.x.toNat : ZMod p1.p.toNat) p2.y.toNat := by
      rw [hneg, ← hy]
      intro h
      have h2y : (2 : ZMod p1.p.toNat) * p1.y.toNat = 0 := by linear_combination h
      rcases mul_eq_zero.mp h2y with h | h
      · exact h2ne h
      · exact hyne h
    have hd : (((2 * p1.y.toNat : Int)) : ZMod p1.p.toNat) ≠ 0 := by
      push_cast
      exact mul_ne_zero h2ne hyne
    obtain ⟨sl, hsl, csl⟩ := slope_of_prime (3 * p1.x.toNat * p1.x.toNat + p1.a.toNat) (2 * p1.y.toNat) hd
    refine fin sl ?_ (fun h => hyn h.2) ?_
    · rw [csl, WeierstrassCurve.Affine.slope_of_Y_ne (by rw [hx]) hyn, hneg]
      simp only [weierstrass]
      push_cast
      congr 1 <;> ring
    · rw [addPoints_tangent hc hi hj hx hy h0, tangentRule, hsl]
      simp [Except.bind, hx]
  · have hxn : (p1.x.toNat : ZMod p1.p.toNat) ≠ p2.x.toNat :=
      fun h => hx (BitVec.eq_of_toNat_eq (eq_of_cast_eq bx1 bx2 h))
    have hd : ((((p2.x.toNat : Int) - p1.x.toNat : Int)) : ZMod p1.p.toNat) ≠ 0 := by
      push_cast
      exact sub_ne_zero.mpr (Ne.symm hxn)
    obtain ⟨sl, hsl, csl⟩ := slope_of_prime ((p2.y.toNat : Int) - p1.y.toNat) ((p2.x.toNat : Int) - p1.x.toNat) hd
    refine fin sl ?_ (fun h => hxn h.1) ?_
    · rw [csl, WeierstrassCurve.Affine.slope_of_X_ne hxn, ← neg_div_neg_eq]
      push_cast
      congr 1 <;> ring
    · rw [addPoints_chord hc hi hj hx, chordRule, hsl]
      rfl

/-! ### The group -/

/-- A point of the model that stands for a point of Mathlib's group over an elliptic curve with a prime modulus. -/
def Represents {p : Nat} [Fact p.Prime] (a b : Nat) (q : Point) (Q : (weierstrass p a b).Point) : Prop :=
  q.Ok ∧ q.p.toNat = p ∧ q.a.toNat = a ∧ q.b.toNat = b
    ∧ ((q.inf = true ∧ Q = 0)
      ∨ (q.inf = false ∧ ∃ h, Q = .some (q.x.toNat : ZMod p) (q.y.toNat : ZMod p) h))

/-- The point of the model for a point of the group is unique. -/
theorem Represents.unique {p : Nat} [Fact p.Prime] {a b : Nat} {q r : Point} {Q : (weierstrass p a b).Point}
    (hq : Represents a b q Q) (hr : Represents a b r Q) : q = r := by
  obtain ⟨oq, qp, qa, qb, hq⟩ := hq
  obtain ⟨or', rp, ra, rb, hr⟩ := hr
  have e : ∀ {x y : W256}, x.toNat = y.toNat → x = y := fun h => BitVec.eq_of_toNat_eq h
  have ep : q.p = r.p := e (qp.trans rp.symm)
  have ea : q.a = r.a := e (qa.trans ra.symm)
  have eb : q.b = r.b := e (qb.trans rb.symm)
  obtain ⟨qi, qx, qy, _, _, _⟩ := q
  obtain ⟨ri, rx, ry, _, _, _⟩ := r
  simp only at ep ea eb qp rp
  subst ep ea eb
  rcases hq with ⟨i1, e1⟩ | ⟨i1, h1, e1⟩ <;> rcases hr with ⟨i2, e2⟩ | ⟨i2, h2, e2⟩
  · obtain ⟨x1, y1⟩ := oq.2.2.2.1 i1
    obtain ⟨x2, y2⟩ := or'.2.2.2.1 i2
    simp only at i1 i2 x1 x2 y1 y2
    simp [i1, i2, x1, x2, y1, y2]
  · rw [e1] at e2
    exact absurd e2.symm (WeierstrassCurve.Affine.Point.some_ne_zero _)
  · rw [e2] at e1
    exact absurd e1.symm (WeierstrassCurve.Affine.Point.some_ne_zero _)
  · rw [e1] at e2
    simp only [WeierstrassCurve.Affine.Point.some.injEq] at e2
    have b1 := oq.2.2.2.2 i1
    have b2 := or'.2.2.2.2 i2
    simp only at i1 i2 b1 b2 e2
    rw [qp] at b1 b2
    have hx : qx = rx := e (eq_of_cast_eq b1.1 b2.1 e2.1)
    have hy : qy = ry := e (eq_of_cast_eq b1.2.1 b2.2.1 e2.2)
    simp [i1, i2, hx, hy]

/-- ADD over an odd prime modulus is the addition of the group, and never raises (R164, R165). -/
theorem Represents.add {p : Nat} [hf : Fact p.Prime] (hodd : p ≠ 2) {a b : Nat} {q r : Point} {Q R : (weierstrass p a b).Point}
    (hq : Represents a b q Q) (hr : Represents a b r R) : ∃ t, addPoints q r = .ok t ∧ Represents a b t (Q + R) := by
  have hq' := hq
  have hr' := hr
  obtain ⟨oq, qp, qa, qb, hq⟩ := hq
  obtain ⟨or', rp, ra, rb, hr⟩ := hr
  have e : ∀ {x y : W256}, x.toNat = y.toNat → x = y := fun h => BitVec.eq_of_toNat_eq h
  have hc : q.curve = r.curve := by
    simp only [Point.curve, Prod.mk.injEq]
    exact ⟨e (qa.trans ra.symm), e (qb.trans rb.symm), e (qp.trans rp.symm)⟩
  rcases hq with ⟨i1, e1⟩ | ⟨i1, h1, e1⟩
  · exact ⟨r, addPoints_left_identity hc i1, by rw [e1, zero_add]; exact hr'⟩
  rcases hr with ⟨i2, e2⟩ | ⟨i2, h2, e2⟩
  · exact ⟨q, addPoints_right_identity hc i1 i2, by rw [e2, add_zero]; exact hq'⟩
  have hneg : ∀ x y : ZMod p, (weierstrass p a b).negY x y = -y := by
    intro x y
    simp [WeierstrassCurve.Affine.negY, weierstrass]
  by_cases hn : q.x = r.x ∧ (q.y ≠ r.y ∨ q.y = 0#256)
  · have hid : addPoints q r = .ok (identityOn q.a q.b q.p) := by
      by_cases hy : q.y = r.y
      · rcases hn.2 with h | h
        · exact absurd hy h
        · exact addPoints_vertical hc i1 i2 hn.1 hy h
      · exact addPoints_inverse hc i1 i2 hn.1 hy
    refine ⟨_, hid, ⟨oq.1, oq.2.1, oq.2.2.1, fun _ => ⟨rfl, rfl⟩, fun h => by cases h⟩, qp, qa, qb, .inl ⟨rfl, ?_⟩⟩
    rw [e1, e2]
    apply WeierstrassCurve.Affine.Point.add_of_Y_eq
    · rw [hn.1]
    · rcases hn.2 with h | h
      · rcases WeierstrassCurve.Affine.Y_eq_of_X_eq h1.1 h2.1 (by rw [hn.1]) with hy | hy
        · have b1 := (oq.2.2.2.2 i1).2.1
          have b2 := (or'.2.2.2.2 i2).2.1
          rw [qp] at b1
          rw [rp] at b2
          exact absurd (e (eq_of_cast_eq b1 b2 hy)) h
        · exact hy
      · by_cases hy : q.y = r.y
        · rw [hneg, ← hy, h]
          simp
        · rcases WeierstrassCurve.Affine.Y_eq_of_X_eq h1.1 h2.1 (by rw [hn.1]) with hy' | hy'
          · have b1 := (oq.2.2.2.2 i1).2.1
            have b2 := (or'.2.2.2.2 i2).2.1
            rw [qp] at b1
            rw [rp] at b2
            exact absurd (e (eq_of_cast_eq b1 b2 hy')) hy
          · exact hy'
  · subst qp qa qb
    obtain ⟨t, ht, ot, tc, ti, tx, ty⟩ := addPoints_of_prime oq or' hc hodd i1 i2 hn
    simp only [Point.curve, Prod.mk.injEq] at tc
    have hxy : ¬ ((q.x.toNat : ZMod q.p.toNat) = r.x.toNat ∧ (q.y.toNat : ZMod q.p.toNat)
        = (weierstrass q.p.toNat q.a.toNat q.b.toNat).negY (r.x.toNat : ZMod q.p.toNat) r.y.toNat) := by
      rintro ⟨hx, hy⟩
      have b1 := oq.2.2.2.2 i1
      have b2 := or'.2.2.2.2 i2
      rw [rp] at b2
      have hx' : q.x = r.x := e (eq_of_cast_eq b1.1 b2.1 hx)
      refine hn ⟨hx', ?_⟩
      by_contra hcon
      simp only [not_or, not_not] at hcon
      rw [hneg, ← hcon.1] at hy
      have h2y : ((2 * q.y.toNat : Nat) : ZMod q.p.toNat) = 0 := by
        push_cast
        linear_combination hy
      have hdvd := (ZMod.natCast_eq_zero_iff _ _).mp h2y
      have hy0 : q.y.toNat ≠ 0 := fun h => hcon.2 (e (by simpa using h))
      rcases (hf.out.dvd_mul).mp hdvd with h | h
      · have := Nat.le_of_dvd (by omega) h
        have := hf.out.two_le
        omega
      · have := Nat.le_of_dvd (by omega) h
        omega
    refine ⟨t, ht, ot, by rw [tc.2.2], by rw [tc.1], by rw [tc.2.1], .inr ⟨ti, ?_⟩⟩
    rw [tx, ty, e1, e2]
    exact ⟨_, WeierstrassCurve.Affine.Point.add_some hxy⟩

/-- Double-and-add over an odd prime modulus is the multiple in the group, and never raises (R190). -/
theorem Represents.smulLoop {p : Nat} [Fact p.Prime] (hodd : p ≠ 2) {a b : Nat} :
    ∀ (n k : Nat) {r c : Point} {R C : (weierstrass p a b).Point}, k < 2 ^ n → Represents a b r R → Represents a b c C →
      ∃ t, Machine.smulLoop n k r c = .ok t ∧ Represents a b t (R + k • C) := by
  intro n
  induction n with
  | zero =>
    intro k r c R C hk hr hc
    have : k = 0 := by omega
    subst this
    exact ⟨r, rfl, by simpa using hr⟩
  | succ n ih =>
    intro k r c R C hk hr hc
    obtain ⟨c', hc1, hc2⟩ := Represents.add hodd hc hc
    have hdiv : k / 2 < 2 ^ n := by omega
    have hk2 : k = 2 * (k / 2) + k % 2 := by omega
    have hmul : (k / 2) • (C + C) = (2 * (k / 2)) • C := by
      rw [← two_nsmul, smul_smul, Nat.mul_comm]
    by_cases ho : k % 2 = 1
    · obtain ⟨r', hr1, hr2⟩ := Represents.add hodd hr hc
      obtain ⟨t, ht1, ht2⟩ := ih (k / 2) hdiv hr2 hc2
      refine ⟨t, by rw [smulLoop_succ (by simpa [ho] using hr1) hc1]; exact ht1, ?_⟩
      have : R + C + (k / 2) • (C + C) = R + k • C := by
        rw [hmul]
        conv_rhs => rw [hk2, ho, add_nsmul, one_nsmul]
        abel
      rwa [← this]
    · obtain ⟨t, ht1, ht2⟩ := ih (k / 2) hdiv hr hc2
      refine ⟨t, by rw [smulLoop_succ (if_neg ho) hc1]; exact ht1, ?_⟩
      have hk3 : 2 * (k / 2) = k := by omega
      have : R + (k / 2) • (C + C) = R + k • C := by rw [hmul, hk3]
      rwa [← this]

end Sys2Proof.Machine
end

