-- ==== Sys2Proof/Laws/PerInstr.lean ====
section
/-! SUPPORT. Per-instruction statements, one lemma per constructor. Family `MaskMatch`: the word of a command agrees with its
row's `match` under its row's `mask` (30_encoding.md R99). -/

namespace Sys2Proof.Laws.MaskMatch

/-- The command's word, masked with its row's mask, is its row's match (R99). -/
def Statement (i : Sys2Proof.Instr) : Prop := Sys2Proof.encode i &&& i.op.mask = i.op.matchBits

theorem pField_and (j : PIdx) : pField j &&& 0x8#4 = 0#4 := by revert j; decide

/-- Under a mask built field by field, only the OPC of a packed word is left when each field's part is 0. -/
theorem pack_and (opc : BitVec 8) (f : Fields) (ma mb mc md me : BitVec 4) (ha : f.fa &&& ma = 0#4) (hb : f.fb &&& mb = 0#4)
    (hc : f.fc &&& mc = 0#4) (hd : f.fd &&& md = 0#4) (he : f.fe &&& me = 0#4) :
    pack opc f &&& (0xF#4 ++ me ++ md ++ mc ++ mb ++ ma ++ 0xFF#8) = 0#24 ++ opc := by
  have h8 : opc &&& 0xFF#8 = opc := by revert opc; decide
  rw [pack, BitVec.and_append, BitVec.and_append, BitVec.and_append, BitVec.and_append, BitVec.and_append,
    BitVec.and_append, ha, hb, hc, hd, he, h8]
  congr 1

theorem fnew (d v m : VIdx) : Statement (.fnew d v m) := by
  rw [Statement, mask_eq_maskOfRoles]
  exact pack_and _ _ _ _ _ _ _ BitVec.and_zero BitVec.and_zero BitVec.and_zero BitVec.zero_and BitVec.zero_and

theorem fadd (d a b : VIdx) : Statement (.fadd d a b) := by
  rw [Statement, mask_eq_maskOfRoles]
  exact pack_and _ _ _ _ _ _ _ BitVec.and_zero BitVec.and_zero BitVec.and_zero BitVec.zero_and BitVec.zero_and

theorem fsub (d a b : VIdx) : Statement (.fsub d a b) := by
  rw [Statement, mask_eq_maskOfRoles]
  exact pack_and _ _ _ _ _ _ _ BitVec.and_zero BitVec.and_zero BitVec.and_zero BitVec.zero_and BitVec.zero_and

theorem fmul (d a b : VIdx) : Statement (.fmul d a b) := by
  rw [Statement, mask_eq_maskOfRoles]
  exact pack_and _ _ _ _ _ _ _ BitVec.and_zero BitVec.and_zero BitVec.and_zero BitVec.zero_and BitVec.zero_and

theorem fpow (d a e : VIdx) : Statement (.fpow d a e) := by
  rw [Statement, mask_eq_maskOfRoles]
  exact pack_and _ _ _ _ _ _ _ BitVec.and_zero BitVec.and_zero BitVec.and_zero BitVec.zero_and BitVec.zero_and

theorem finv (d a : VIdx) : Statement (.finv d a) := by
  rw [Statement, mask_eq_maskOfRoles]
  exact pack_and _ _ _ _ _ _ _ BitVec.and_zero BitVec.and_zero BitVec.zero_and BitVec.zero_and BitVec.zero_and

theorem fdiv (d a b : VIdx) : Statement (.fdiv d a b) := by
  rw [Statement, mask_eq_maskOfRoles]
  exact pack_and _ _ _ _ _ _ _ BitVec.and_zero BitVec.and_zero BitVec.and_zero BitVec.zero_and BitVec.zero_and

theorem feq (a b : VIdx) : Statement (.feq a b) := by
  rw [Statement, mask_eq_maskOfRoles]
  exact pack_and _ _ _ _ _ _ _ BitVec.zero_and BitVec.and_zero BitVec.and_zero BitVec.zero_and BitVec.zero_and

theorem pinf (d : PIdx) (a b : VIdx) : Statement (.pinf d a b) := by
  rw [Statement, mask_eq_maskOfRoles]
  exact pack_and _ _ _ _ _ _ _ (pField_and _) BitVec.and_zero BitVec.and_zero BitVec.zero_and BitVec.zero_and

theorem pnew (d : PIdx) (x y a b : VIdx) : Statement (.pnew d x y a b) := by
  rw [Statement, mask_eq_maskOfRoles]
  exact pack_and _ _ _ _ _ _ _ (pField_and _) BitVec.and_zero BitVec.and_zero BitVec.and_zero BitVec.and_zero

theorem padd (d p q : PIdx) : Statement (.padd d p q) := by
  rw [Statement, mask_eq_maskOfRoles]
  exact pack_and _ _ _ _ _ _ _ (pField_and _) (pField_and _) (pField_and _) BitVec.zero_and BitVec.zero_and

theorem pneg (d p : PIdx) : Statement (.pneg d p) := by
  rw [Statement, mask_eq_maskOfRoles]
  exact pack_and _ _ _ _ _ _ _ (pField_and _) (pField_and _) BitVec.zero_and BitVec.zero_and BitVec.zero_and

theorem peq (p q : PIdx) : Statement (.peq p q) := by
  rw [Statement, mask_eq_maskOfRoles]
  exact pack_and _ _ _ _ _ _ _ BitVec.zero_and (pField_and _) (pField_and _) BitVec.zero_and BitVec.zero_and

theorem pldg (d : PIdx) : Statement (.pldg d) := by
  rw [Statement, mask_eq_maskOfRoles]
  exact pack_and _ _ _ _ _ _ _ (pField_and _) BitVec.zero_and BitVec.zero_and BitVec.zero_and BitVec.zero_and

theorem pmul (d p : PIdx) (k : VIdx) : Statement (.pmul d p k) := by
  rw [Statement, mask_eq_maskOfRoles]
  exact pack_and _ _ _ _ _ _ _ (pField_and _) (pField_and _) BitVec.and_zero BitVec.zero_and BitVec.zero_and

theorem sred (d a : VIdx) : Statement (.sred d a) := by
  rw [Statement, mask_eq_maskOfRoles]
  exact pack_and _ _ _ _ _ _ _ BitVec.and_zero BitVec.and_zero BitVec.zero_and BitVec.zero_and BitVec.zero_and

theorem ekey (d : PIdx) (sec : VIdx) : Statement (.ekey d sec) := by
  rw [Statement, mask_eq_maskOfRoles]
  exact pack_and _ _ _ _ _ _ _ (pField_and _) BitVec.and_zero BitVec.zero_and BitVec.zero_and BitVec.zero_and

theorem esign (r s sec z : VIdx) : Statement (.esign r s sec z) := by
  rw [Statement, mask_eq_maskOfRoles]
  exact pack_and _ _ _ _ _ _ _ BitVec.and_zero BitVec.and_zero BitVec.and_zero BitVec.and_zero BitVec.zero_and

theorem everify (q : PIdx) (z r s : VIdx) : Statement (.everify q z r s) := by
  rw [Statement, mask_eq_maskOfRoles]
  exact pack_and _ _ _ _ _ _ _ BitVec.zero_and (pField_and _) BitVec.and_zero BitVec.and_zero BitVec.and_zero

end Sys2Proof.Laws.MaskMatch
end

