-- ==== Sys2Proof/Laws/Word.lean ====
section
/-! SUPPORT. The words of a 256-bit value: a read after a write of one word, and a value is its eight words (R64, R65). -/

namespace Sys2Proof.Machine

theorem wordAt_getLsbD (x : W256) (j : Fin 8) (b : Nat) :
    (wordAt x j).getLsbD b = (decide (b < 32) && x.getLsbD (32 * j.val + b)) := by
  simp [wordAt, BitVec.getLsbD_extractLsb']

theorem setWordAt_getLsbD (x : W256) (j : Fin 8) (d : Word) (b : Nat) (hb : b < 256) :
    (setWordAt x j d).getLsbD b =
      if 32 * j.val ≤ b ∧ b < 32 * j.val + 32 then d.getLsbD (b - 32 * j.val) else x.getLsbD b := by
  have hmask : (0xFFFFFFFF#256).getLsbD (b - 32 * j.val) = decide (b - 32 * j.val < 32) := by
    have h32 : (0xFFFFFFFF#256) = BitVec.ofNat 256 (2 ^ 32 - 1) := by decide
    rw [h32, BitVec.getLsbD_ofNat, Nat.testBit_two_pow_sub_one]
    have : b - 32 * j.val < 256 := by omega
    simp [this]
  simp only [setWordAt, BitVec.getLsbD_or, BitVec.getLsbD_and, BitVec.getLsbD_not, BitVec.getLsbD_shiftLeft,
    BitVec.getLsbD_setWidth, hb, decide_true, Bool.true_and, hmask]
  by_cases h1 : b < 32 * j.val
  · have h2 : ¬ (32 * j.val ≤ b ∧ b < 32 * j.val + 32) := by omega
    simp [h1, h2]
  · by_cases h3 : b < 32 * j.val + 32
    · have h2 : 32 * j.val ≤ b ∧ b < 32 * j.val + 32 := by omega
      have h4 : b - 32 * j.val < 32 := by omega
      have h5 : b - 32 * j.val < 256 := by omega
      simp [h1, h2, h4, h5]
    · have h2 : ¬ (32 * j.val ≤ b ∧ b < 32 * j.val + 32) := by omega
      have h4 : ¬ b - 32 * j.val < 32 := by omega
      have h6 : d.getLsbD (b - 32 * j.val) = false := BitVec.getLsbD_of_ge _ _ (by omega)
      simp [h1, h2, h4, h6]

/-- A word reads back as it was written. -/
@[simp] theorem wordAt_setWordAt_same (x : W256) (j : Fin 8) (d : Word) : wordAt (setWordAt x j d) j = d := by
  apply BitVec.eq_of_getLsbD_eq
  intro b hb
  rw [wordAt_getLsbD, setWordAt_getLsbD _ _ _ _ (by omega)]
  have h : 32 * j.val ≤ 32 * j.val + b ∧ 32 * j.val + b < 32 * j.val + 32 := by omega
  simp [h, hb]

/-- A write of one word leaves the other seven as they were (R65). -/
theorem wordAt_setWordAt_ne (x : W256) {i j : Fin 8} (d : Word) (h : j ≠ i) :
    wordAt (setWordAt x i d) j = wordAt x j := by
  have hv : (j : Nat) ≠ (i : Nat) := fun e => h (Fin.ext e)
  apply BitVec.eq_of_getLsbD_eq
  intro b hb
  rw [wordAt_getLsbD, wordAt_getLsbD, setWordAt_getLsbD _ _ _ _ (by omega)]
  have h2 : ¬ (32 * i.val ≤ 32 * j.val + b ∧ 32 * j.val + b < 32 * i.val + 32) := by omega
  simp [h2]

/-- A 256-bit value is determined by its eight words (R64). -/
theorem eq_of_wordAt_eq {x y : W256} (h : ∀ j, wordAt x j = wordAt y j) : x = y := by
  apply BitVec.eq_of_getLsbD_eq
  intro b hb
  have hj := congrArg (fun w => w.getLsbD (b % 32)) (h ⟨b / 32, by omega⟩)
  simp only [wordAt_getLsbD] at hj
  have h1 : b % 32 < 32 := by omega
  have h2 : 32 * (b / 32) + b % 32 = b := by omega
  simpa [h1, h2] using hj

end Sys2Proof.Machine
end

