-- ==== Sys2Proof/Machine/Assembler.lean ====
section
/-! DEFINITION. The assembler notation of a command (30_encoding.md R104): a printer and a parser to command words. It is a
notation for host programs only (D53); no step uses it. Text is a list of characters. -/

namespace Sys2Proof

/-- The mnemonic of a row, in lower case. -/
def Op.text : Op → List Char
  | .fnew => ['f', 'n', 'e', 'w']
  | .fadd => ['f', 'a', 'd', 'd']
  | .fsub => ['f', 's', 'u', 'b']
  | .fmul => ['f', 'm', 'u', 'l']
  | .fpow => ['f', 'p', 'o', 'w']
  | .finv => ['f', 'i', 'n', 'v']
  | .fdiv => ['f', 'd', 'i', 'v']
  | .feq => ['f', 'e', 'q']
  | .pinf => ['p', 'i', 'n', 'f']
  | .pnew => ['p', 'n', 'e', 'w']
  | .padd => ['p', 'a', 'd', 'd']
  | .pneg => ['p', 'n', 'e', 'g']
  | .peq => ['p', 'e', 'q']
  | .pldg => ['p', 'l', 'd', 'g']
  | .pmul => ['p', 'm', 'u', 'l']
  | .sred => ['s', 'r', 'e', 'd']
  | .ekey => ['e', 'k', 'e', 'y']
  | .esign => ['e', 's', 'i', 'g', 'n']
  | .everify => ['e', 'v', 'e', 'r', 'i', 'f', 'y']

/-- A register number in decimal. -/
def numberText (n : Nat) : List Char := if n < 10 then [Nat.digitChar n] else ['1', Nat.digitChar (n - 10)]

/-- A register name for a field of a role: `v0` to `v15` or `p0` to `p7`; nothing for an unused field. -/
def Role.text (r : Role) (f : BitVec 4) : Option (List Char) :=
  match r with
  | .vd => some ('v' :: numberText f.toNat)
  | .vs => some ('v' :: numberText f.toNat)
  | .fs => some ('v' :: numberText f.toNat)
  | .pd => some ('p' :: numberText f.toNat)
  | .ps => some ('p' :: numberText f.toNat)
  | .unused => none

/-- The roles of a row as a list, FA to FE. -/
def Op.roleList (o : Op) : List Role := [o.roles.1, o.roles.2.1, o.roles.2.2.1, o.roles.2.2.2.1, o.roles.2.2.2.2]

/-- The fields as a list, FA to FE. -/
def fieldList (f : Fields) : List (BitVec 4) := [f.fa, f.fb, f.fc, f.fd, f.fe]

/-- Operands separated by a comma and a space. -/
def joinOperands : List (List Char) → List Char
  | [] => []
  | [x] => x
  | x :: y :: rest => x ++ [',', ' '] ++ joinOperands (y :: rest)

/-- A command in the syntax of R104, in lower case. -/
def printAsm (i : Instr) : List Char :=
  i.op.text ++ [' ']
    ++ joinOperands ((List.zipWith Role.text i.op.roleList (fieldList i.fields)).filterMap id)

/-- Splits text at every occurrence of a character. -/
def splitText (c : Char) : List Char → List (List Char)
  | [] => [[]]
  | x :: xs =>
    match splitText c xs with
    | [] => [[x]]
    | t :: ts => if x = c then [] :: t :: ts else (x :: t) :: ts

/-- Text without the spaces at its two ends. -/
def trimText (t : List Char) : List Char :=
  ((t.dropWhile (· == ' ')).reverse.dropWhile (· == ' ')).reverse

/-- The field value a register name stands for, if the name fits the role. -/
def Role.parse (r : Role) (t : List Char) : Option (BitVec 4) :=
  ((List.range (if r = .pd ∨ r = .ps then 8 else 16)).find? (fun n => Role.text r (BitVec.ofNat 4 n) == some t)).map
    (BitVec.ofNat 4)

/-- The fields for a row's roles, taking one operand for each role that is not unused; `none` when an operand is
missing, left over or of the wrong kind. -/
def parseFields : List Role → List (List Char) → Option (List (BitVec 4))
  | [], [] => some []
  | [], _ :: _ => none
  | .unused :: rs, ts => (parseFields rs ts).map (fun l => 0#4 :: l)
  | _ :: _, [] => none
  | r :: rs, t :: ts => (r.parse t).bind (fun f => (parseFields rs ts).map (fun l => f :: l))

/-- The command word of a line in the syntax of R104; letters may be in either case. -/
def assemble (line : List Char) : Option Word :=
  let text := trimText (line.map Char.toLower)
  let mnemonic := text.takeWhile (· != ' ')
  let operands := (splitText ',' (text.drop mnemonic.length)).map trimText
  (Op.all.find? (fun o => o.text == mnemonic)).bind fun o =>
    match parseFields o.roleList operands with
    | some [a, b, c, d, e] => some (pack o.opc { fa := a, fb := b, fc := c, fd := d, fe := e })
    | _ => none

end Sys2Proof
end

