-- ==== Sys2Proof/Tests/Slice0.lean ====
section
/-! SUPPORT. Tests against the vectors of 95_test_vectors.md, and for every obligation with hypotheses a witness that meets
them together. -/

namespace Sys2Proof.Tests

-- one theorem after the other: checked side by side they need more memory than a check allows
set_option Elab.async false

open Sys2Proof Sys2Proof.Machine

/-! ### Small states -/

/-- A value register `(v, m)`; `m = 0` is an integer. -/
def vr (v m : Nat) : VReg := { val := BitVec.ofNat 256 v, mod := BitVec.ofNat 256 m, valid := true }

/-- A finite point on a curve. -/
def pt (x y a b p : Nat) : Point :=
  { inf := false, x := BitVec.ofNat 256 x, y := BitVec.ofNat 256 y, a := BitVec.ofNat 256 a, b := BitVec.ofNat 256 b,
    p := BitVec.ofNat 256 p }

/-- The identity on a curve. -/
def idPt (a b p : Nat) : Point := identityOn (BitVec.ofNat 256 a) (BitVec.ofNat 256 b) (BitVec.ofNat 256 p)

/-- The reset state with some registers loaded. -/
def loaded (vs : List (VIdx × VReg)) (ps : List (PIdx × Point)) : State :=
  ps.foldl (fun s e => s.setP e.1 e.2) (vs.foldl (fun s e => s.setV e.1 e.2) State.reset)

/-- A state with a command word in progress, its completion due. -/
def running (w : Word) (s : State) : State := { s with latch := some { word := w, nmode := s.nmode } }

/-- The state one step later. -/
def next (s : State) : State :=
  match step s with
  | .next t => t
  | .fault _ => s
  | .refused _ => s

/-- One command word run on a state. -/
def runWord (w : Word) (s : State) : State := next (running w s)

/-- One host input served by an idle state. -/
def served (op : HostOp) (s : State) : State := next { s with host := [op] }

/-- The point `(170, 142)` of vector P1, on the curve (0, 7, 223). -/
def ptP : Point := pt 170 142 0 7 223
/-- The point `(47, 71)` of vector P10. -/
def ptQ : Point := pt 47 71 0 7 223
/-- The point `(6, 0)` of vector P6. -/
def ptT : Point := pt 6 0 0 7 223

/-! ### Well-formed commands (30_encoding.md R96(e), R98) -/

theorem test_wellFormed_refuses_equal_destinations : (Instr.esign 2 2 0 1).wellFormed = false := by decide
theorem test_wellFormed_admits_different_destinations : (Instr.esign 2 3 0 1).wellFormed = true := by decide
theorem test_wellFormed_admits_equal_sources : (Instr.padd 1 0 0).wellFormed = true := by decide

/-! ### Decoding: words written out from 30_encoding.md R91 and R95 -/

-- RSV, FE, FD, FC, FB, FA, OPC from the left
theorem test_decode_fnew : decode 0b0000_0000_0000_1111_0000_0000_00000001#32 = .ok (.fnew 0 0 15) := by decide
theorem test_decode_fadd : decode 0b0000_0000_0000_0001_0000_0010_00000010#32 = .ok (.fadd 2 0 1) := by decide
theorem test_decode_fsub : decode 0b0000_0000_0000_1100_0011_1010_00000011#32 = .ok (.fsub 10 3 12) := by decide
theorem test_decode_fmul : decode 0b0000_0000_0000_0001_0000_0010_00000100#32 = .ok (.fmul 2 0 1) := by decide
theorem test_decode_fpow : decode 0b0000_0000_0000_1001_0100_1111_00000101#32 = .ok (.fpow 15 4 9) := by decide
theorem test_decode_finv : decode 0b0000_0000_0000_0000_0000_0001_00000110#32 = .ok (.finv 1 0) := by decide
theorem test_decode_fdiv : decode 0b0000_0000_0000_0100_0000_0101_00000111#32 = .ok (.fdiv 5 0 4) := by decide
theorem test_decode_feq : decode 0b0000_0000_0000_0100_0011_0000_00001000#32 = .ok (.feq 3 4) := by decide
theorem test_decode_pinf : decode 0b0000_0000_0000_1000_0111_0011_00010000#32 = .ok (.pinf 3 7 8) := by decide
theorem test_decode_pnew : decode 0b0000_1000_0111_0110_0101_0000_00010001#32 = .ok (.pnew 0 5 6 7 8) := by decide
theorem test_decode_padd : decode 0b0000_0000_0000_0110_0101_0111_00010010#32 = .ok (.padd 7 5 6) := by decide
theorem test_decode_pneg : decode 0b0000_0000_0000_0000_0011_0101_00010011#32 = .ok (.pneg 5 3) := by decide
theorem test_decode_peq : decode 0b0000_0000_0000_0010_0001_0000_00010100#32 = .ok (.peq 1 2) := by decide
theorem test_decode_pldg : decode 0b0000_0000_0000_0000_0000_0100_00010101#32 = .ok (.pldg 4) := by decide
theorem test_decode_pmul : decode 0b0000_0000_0000_1001_0000_0010_00011000#32 = .ok (.pmul 2 0 9) := by decide
theorem test_decode_sred : decode 0b0000_0000_0000_0000_0001_0010_00011001#32 = .ok (.sred 2 1) := by decide
theorem test_decode_ekey : decode 0b0000_0000_0000_0000_1110_0111_00100000#32 = .ok (.ekey 7 14) := by decide
theorem test_decode_esign : decode 0b0000_0000_0001_0000_0011_0010_00100001#32 = .ok (.esign 2 3 0 1) := by decide
theorem test_decode_everify : decode 0b0000_0011_0010_0001_0000_0000_00100010#32 = .ok (.everify 0 1 2 3) := by decide

/-- The words the source's comments of 95_test_vectors.md section 4 give for their commands. -/
theorem test_encode_program_words :
    encode (.fnew 0 0 15) = 0x000F0001#32 ∧ encode (.pnew 0 0 1 2 3) = 0x03210011#32 ∧ encode (.peq 1 2) = 0x00021014#32
      ∧ encode (.fdiv 5 0 4) = 0x00040507#32 ∧ encode (.esign 4 5 0 1) = 0x00105421#32
      ∧ encode (.everify 0 1 2 3) = 0x03210022#32 ∧ encode (.pneg 5 3) = 0x00003513#32 := by decide

/-- Vectors D1 to D6, each with its condition of R96. -/
theorem test_decode_refuses :
    decode 0x00000000#32 = .error .unknownOpcode ∧ decode 0x00000009#32 = .error .unknownOpcode
      ∧ decode 0x10010202#32 = .error .reservedBits ∧ decode 0x00043108#32 = .error .unusedField
      ∧ decode 0x00000812#32 = .error .pointIndex ∧ decode 0x00000021#32 = .error .sameDestinations := by decide

/-- A command word in the window's byte order (R64), and the table's numbering of its bits. -/
theorem test_decodeTableWord :
    decodeBytes [0x02#8, 0x02#8, 0x01#8, 0x00#8] = some (.fadd 2 0 1, []) ∧ decodeTableWord 32 0x00010202 = some (.fadd 2 0 1)
      ∧ decodeTableWord 32 0x00000021 = none := by decide

/-- The syntax examples of R104, and either case of letters. -/
theorem test_assemble :
    assemble "FADD v2, v0, v1".toList = some 0x00010202#32 ∧ assemble "esign V2, v3,v0 , v1".toList = some 0x00103221#32
      ∧ printAsm (.feq 3 4) = "feq v3, v4".toList := by decide +kernel

/-! ### One step of each command (95_test_vectors.md section 3) -/

/-- D7 and D9. -/
theorem test_operand_checks :
    (runWord 0x00010202#32 State.reset).errCode = 0x11#8
      ∧ (runWord 0x00010202#32 (loaded [(0, vr 1 0), (1, vr 2 0)] [])).errCode = 0x12#8 := by decide +kernel
/-- D6 and E13: the word is illegal before any operand is read. -/
theorem test_illegal_word : (runWord 0x00102221#32 { State.reset with nonceValid := true }).statusWord = 0x0000100A#32 := by
  decide +kernel
/-- F1 and F3. -/
theorem test_fnew :
    (runWord 0x000F0001#32 (loaded [(0, vr 5 0), (15, vr 223 0)] [])).vreg 0 = vr 5 223
      ∧ (runWord 0x000F0001#32 (loaded [(0, vr 223 0), (15, vr 0 0)] [])).errCode = 0x01#8 := by decide +kernel
/-- F5 and F7. -/
theorem test_fadd :
    (runWord 0x00010202#32 (loaded [(0, vr 200 223), (1, vr 50 223)] [])).vreg 2 = vr 27 223
      ∧ (runWord 0x00010202#32 (loaded [(0, vr 1 223), (1, vr 1 13)] [])).errCode = 0x02#8 := by decide +kernel
/-- F8: a negative difference. -/
theorem test_fsub : (runWord 0x00010203#32 (loaded [(0, vr 3 223), (1, vr 5 223)] [])).vreg 2 = vr 221 223 := by
  decide +kernel
/-- F10 and F11. -/
theorem test_fmul :
    (runWord 0x00010204#32 (loaded [(0, vr 222 223), (1, vr 222 223)] [])).vreg 2 = vr 1 223
      ∧ (runWord 0x00010204#32 (loaded [(0, { vr 0 0 with val := secpP - 1#256, mod := secpP }),
          (1, { vr 0 0 with val := secpP - 1#256, mod := secpP })] [])).vreg 2 = { vr 1 0 with mod := secpP } := by
  decide +kernel
/-- F14 and F19: the reduced exponent 0, and the modulus 1. -/
theorem test_fpow :
    (runWord 0x00010205#32 (loaded [(0, vr 0 223), (1, vr 222 0)] [])).vreg 2 = vr 1 223
      ∧ (runWord 0x00010205#32 (loaded [(0, vr 0 1), (1, vr 1 0)] [])).vreg 2 = vr 0 1 := by decide +kernel
/-- F18: the largest exponent. -/
theorem test_fpow_large : (runWord 0x00010205#32 (loaded [(0, vr 3 223), (1, vr (2 ^ 256 - 1) 0)] [])).vreg 2 = vr 195 223 := by
  decide +kernel
/-- F22 and F25. -/
theorem test_finv :
    (runWord 0x00000106#32 (loaded [(0, vr 3 223)] [])).vreg 1 = vr 149 223
      ∧ (runWord 0x00000106#32 (loaded [(0, vr 0 223)] [])).errCode = 0x05#8 := by decide +kernel
/-- F30: a composite modulus. -/
theorem test_finv_composite :
    (runWord 0x00000106#32 (loaded [(0, vr 2 (2 ^ 256 - 1))] [])).vreg 1 = vr (2 ^ 253) (2 ^ 256 - 1) := by decide +kernel
/-- F31 and F33: the moduli are compared before the divisor is inverted. -/
theorem test_fdiv :
    (runWord 0x00040507#32 (loaded [(0, vr 5 223), (4, vr 3 223)] [])).vreg 5 = vr 76 223
      ∧ (runWord 0x00040507#32 (loaded [(0, vr 1 223), (4, vr 0 13)] [])).errCode = 0x02#8 := by decide +kernel
/-- F34 and F35. -/
theorem test_feq :
    (runWord 0x00043008#32 (loaded [(3, vr 5 223), (4, vr 5 223)] [])).flag = true
      ∧ (runWord 0x00043008#32 { loaded [(3, vr 5 223), (4, vr 5 0)] [] with flag := true }).flag = false := by decide +kernel
/-- P4 and P5. -/
theorem test_pinf :
    (runWord 0x00087310#32 (loaded [(7, vr 0 223), (8, vr 7 223)] [])).preg 3 = { pt := idPt 0 7 223, valid := true }
      ∧ (runWord 0x00087310#32 (loaded [(7, vr 0 223), (8, vr 7 13)] [])).errCode = 0x02#8 := by decide +kernel
/-- P1 and P2. -/
theorem test_pnew :
    (runWord 0x08765011#32 (loaded [(5, vr 170 223), (6, vr 142 223), (7, vr 0 223), (8, vr 7 223)] [])).preg 0
        = { pt := ptP, valid := true }
      ∧ (runWord 0x08765011#32 (loaded [(5, vr 170 223), (6, vr 143 223), (7, vr 0 223), (8, vr 7 223)] [])).errCode
        = 0x04#8 := by decide +kernel
/-- P10 and P13: the chord and the tangent rule. -/
theorem test_padd :
    (runWord 0x00056712#32 (loaded [] [(6, ptP), (5, ptQ)])).preg 7 = { pt := pt 34 145 0 7 223, valid := true }
      ∧ (runWord 0x00000112#32 (loaded [] [(0, ptP)])).preg 1 = { pt := pt 84 150 0 7 223, valid := true } := by
  decide +kernel
/-- P15 and P16. -/
theorem test_padd_raises :
    (runWord 0x00000112#32 (loaded [] [(0, pt 1 1 0 0 15)])).errCode = 0x04#8
      ∧ (runWord 0x00000112#32 (loaded [] [(0, pt 0 1 0 1 2)])).errCode = 0x05#8 := by decide +kernel
/-- P17 and P18. -/
theorem test_pneg :
    (runWord 0x00003513#32 (loaded [] [(3, ptP)])).preg 5 = { pt := pt 170 81 0 7 223, valid := true }
      ∧ (runWord 0x00003513#32 (loaded [] [(3, ptT)])).preg 5 = { pt := ptT, valid := true } := by decide +kernel
/-- P20 and P22. -/
theorem test_peq :
    (runWord 0x00021014#32 (loaded [] [(1, ptP), (2, ptP)])).flag = true
      ∧ (runWord 0x00021014#32 (loaded [] [(1, idPt 0 7 223), (2, idPt 0 7 13)])).flag = false := by decide +kernel
/-- P23, by the constants of R10. -/
theorem test_pldg :
    ((runWord 0x00000415#32 State.reset).preg 4).pt.x
        = 0x79BE667EF9DCBBAC55A06295CE870B07029BFCDB2DCE28D959F2815B16F81798#256
      ∧ ((runWord 0x00000415#32 State.reset).preg 4).valid = true := by decide +kernel
/-- K8 and K11. -/
theorem test_pmul :
    (runWord 0x00090218#32 (loaded [(9, vr 41 0)] [(0, ptP)])).preg 2 = { pt := pt 170 81 0 7 223, valid := true }
      ∧ (runWord 0x00090218#32 (loaded [(9, vr (2 ^ 256 - 1) 0)] [(0, ptP)])).preg 2
        = { pt := pt 10 195 0 7 223, valid := true } := by decide +kernel
/-- K12 and K17: the final doubling raises on `p = 2`; twice the base point. -/
theorem test_pmul_doublings :
    (runWord 0x00090218#32 (loaded [(9, vr 1 0)] [(0, pt 0 1 0 1 2)])).errCode = 0x05#8
      ∧ ((runWord 0x00090218#32 (loaded [(9, vr 2 0)] [(0, pointG)])).preg 2).pt.x
        = 0xC6047F9441ED7D6D3045406E95C07CD85C778E4B8CEF3CA7ABAC09B95C709EE5#256 := by decide +kernel
/-- K23. -/
theorem test_sred :
    (runWord 0x00001219#32 (loaded [(1, vr (2 ^ 256 - 1) 0)] [])).vreg 2
      = { val := 0x14551231950B75FC4402DA1732FC9BEBE#256
          mod := 0xFFFFFFFFFFFFFFFFFFFFFFFFFFFFFFFEBAAEDCE6AF48A03BBFD25E8CD0364141#256, valid := true } := by decide +kernel
/-- E2 and E3. -/
theorem test_ekey :
    (runWord 0x00000020#32 (loaded [(0, vr secpN 0)] [])).errCode = 0x07#8
      ∧ ((runWord 0x00000020#32 (loaded [(0, vr 1 0)] [])).preg 0).pt = pointG := by decide +kernel

/-- The reset state in host-nonce mode with a nonce loaded. -/
def hostNonce (k : Nat) (s : State) : State := { s with nmode := true, nonce := BitVec.ofNat 256 k, nonceValid := true }

/-- E6: the signature of digest 0 with secret 1 and nonce 1. -/
theorem test_esign :
    (runWord 0x00103221#32 (hostNonce 1 (loaded [(0, vr 1 0), (1, vr 0 0)] []))).vreg 2 = { vr 0 0 with val := secpGx }
      ∧ (runWord 0x00103221#32 (hostNonce 1 (loaded [(0, vr 1 0), (1, vr 0 0)] []))).vreg 3 = { vr 0 0 with val := secpGx }
      ∧ (runWord 0x00103221#32 (hostNonce 1 (loaded [(0, vr 1 0), (1, vr 0 0)] []))).nonceValid = false := by decide +kernel
/-- E11 and E15: a nonce out of range, and a degenerate nonce whose retry finds NONCE empty. E10 in TRNG mode: a secret of
`N`, with NONCE_VALID left. -/
theorem test_esign_raises :
    (runWord 0x00103221#32 (hostNonce 0 (loaded [(0, vr 1 0), (1, vr 0 0)] []))).statusWord = 0x00000102#32
      ∧ (runWord 0x00103221#32 (hostNonce 1 (loaded [(0, vr 1 0), (1, vr (secpN - secpGx.toNat) 0)] []))).statusWord
        = 0x00001302#32
      ∧ (runWord 0x00103221#32 { loaded [(0, vr secpN 0), (1, vr 5 0)] [] with nonceValid := true }).statusWord
        = 0x0000070A#32 := by decide +kernel
/-- E25 and E26: the range check comes before the curve check. -/
theorem test_everify_order :
    (runWord 0x03210022#32 { loaded [(1, vr 1 0), (2, vr 1 0), (3, vr 1 0)] [(0, idPt 0 7 223)] with flag := true }).statusWord
        = 0x00000306#32
      ∧ (runWord 0x03210022#32 { loaded [(1, vr 1 0), (2, vr 0 0), (3, vr 1 0)] [(0, idPt 0 7 223)] with flag := true }).statusWord
        = 0x00000002#32 := by decide +kernel
/-- E28: the identity key accepts a signature made without a secret. -/
theorem test_everify_identity :
    (runWord 0x03210022#32
      (loaded [(1, vr 5 0), (2, vr 0x2F8BDE4D1A07209355B4A7250A5C5128E88B84BDDC619AB7CBA8D569B240EFE4 0), (3, vr 1 0)]
        [(0, idPt 0 7 secpP.toNat)])).flag = true := by decide +kernel

/-! ### The bus, the interrupt and reset (95_test_vectors.md section 3.6) -/

/-- B1: IDENT, and STATUS after reset. -/
theorem test_ident :
    (served (.read 0x000#12 4) State.reset).resp = some (.data 0x45434331#32)
      ∧ (served (.read 0x008#12 4) State.reset).resp = some (.data 0x00000000#32) := by decide +kernel
/-- B3: the first word of a value is the least significant. -/
theorem test_wrv_words :
    expandWrv 1 0x4B688DF40BCEDBE641DDB16FF0A1842D9C67EA1C3BF63F3E0471BAA664531D1A#256
      = [.write 0x140#12 4 0x64531D1A#32, .write 0x144#12 4 0x0471BAA6#32, .write 0x148#12 4 0x3BF63F3E#32,
         .write 0x14C#12 4 0x9C67EA1C#32, .write 0x150#12 4 0xF0A1842D#32, .write 0x154#12 4 0x41DDB16F#32,
         .write 0x158#12 4 0x0BCEDBE6#32, .write 0x15C#12 4 0x4B688DF4#32] := by decide +kernel
/-- B4 and B5: a host write makes an integer and keeps the other words. -/
theorem test_val_write :
    (served (.write 0x100#12 4 0x000000AB#32) (loaded [(0, vr 170 223)] [])).vreg 0 = vr 0xAB 0
      ∧ ((served (.write 0x100#12 4 0x00000007#32) (loaded [(0, vr secpN 0)] [])).vreg 0).val
        = 0xFFFFFFFFFFFFFFFFFFFFFFFFFFFFFFFEBAAEDCE6AF48A03BBFD25E8C00000007#256 := by decide +kernel
/-- B6 and B8. -/
theorem test_ignored_writes :
    (served (.write 0x120#12 4 0x00000007#32) State.reset).statusWord = 0x00000000#32
      ∧ (served (.read 0x018#12 4) State.reset).resp = some (.data 0#32) := by decide +kernel
/-- B7. -/
theorem test_bus_error :
    (served (.read 0x008#12 1) State.reset).resp = some .busError
      ∧ (served (.read 0x002#12 4) State.reset).resp = some .busError := by decide +kernel
/-- B9: a CMD write while BUSY = 1 is dropped, and the command then completes with STATUS 0x00000012. -/
theorem test_busy_cmd_write :
    (next { running 0x00000415#32 State.reset with host := [.write 0x00C#12 4 0x12345678#32], delay := 1 }).lastCmd = 0#32
      ∧ (next (next { running 0x00000415#32 State.reset with host := [.write 0x00C#12 4 0x12345678#32], delay := 1 })).statusWord
        = 0x00000012#32 := by decide +kernel
/-- B12 and B13. -/
theorem test_irq :
    (runWord 0x00000415#32 { State.reset with ie := true }).irq = true
      ∧ (served (.write 0x008#12 4 0x00000002#32) { State.reset with ie := true, done := true }).irq = false
      ∧ (served (.write 0x004#12 4 0x00000001#32) { State.reset with done := true }).irq = true := by decide +kernel
/-- B14: STATUS after FDIV by zero. -/
theorem test_status_after_error :
    (runWord 0x00040507#32 (loaded [(0, vr 5 223), (4, vr 0 223)] [])).statusWord = 0x00000502#32 := by decide +kernel
/-- B16: SRST while BUSY = 1 aborts the command. -/
theorem test_srst :
    (next { running 0x00000415#32 (loaded [(0, vr 5 223)] []) with host := [.write 0x004#12 4 0x80000003#32], delay := 1 })
      = { State.reset with resp := some .done } := by decide +kernel
/-- A command word placed for the next step is decoded and run as the first command after reset. -/
theorem test_withFetchWord : ((next (State.reset.withFetchWord 32 0x00000415)).preg 4).pt = pointG := by decide +kernel

/-! ### Witnesses: for each obligation with hypotheses, states and operands that meet them together, clause by clause -/

/-- An idle state with one host input pending. -/
def pending (op : HostOp) : State := { State.reset with host := [op] }

/-- A state with a command in progress that is not due while host inputs are pending. -/
def waiting (op : HostOp) : State := { running 0x00000415#32 State.reset with host := [op, .wait], delay := 2 }

theorem witness_DecodeOfEncodeIsTheCommand : (Instr.esign 2 3 0 1).wellFormed = true := by decide
theorem witness_AcceptedWordsEncodeBack : decode 0x00103221#32 = .ok (.esign 2 3 0 1) := by decide
theorem witness_WordsSelectRowsByMaskAndMatch :
    0x00010202#32 &&& Op.fadd.mask = Op.fadd.matchBits ∧ 0x00103221#32 &&& Op.esign.mask = Op.esign.matchBits := by decide

/-- One word for each of the five conditions of R96. -/
theorem witness_IllegalWords_words :
    IllegalWord 0x00000009#32 ∧ IllegalWord 0x10010202#32 ∧ IllegalWord 0x00043108#32 ∧ IllegalWord 0x00000812#32
      ∧ IllegalWord 0x00000021#32 :=
  ⟨.inl (fun o => by cases o <;> decide), .inr (.inl (by decide)),
    .inr (.inr ⟨.feq, by decide, .inl ⟨0, by decide⟩⟩), .inr (.inr ⟨.padd, by decide, .inr (.inl ⟨0, by decide⟩)⟩),
    .inr (.inr ⟨.esign, by decide, .inr (.inr (by decide))⟩)⟩
theorem witness_IllegalWords_accepted :
    (pending (.write 0x00C#12 4 0x00000009#32)).busy = false
      ∧ (pending (.write 0x00C#12 4 0x00000009#32)).host = .write 0x00C#12 4 0x00000009#32 :: [] := by decide
theorem witness_IllegalWords_completed :
    (running 0x00000009#32 State.reset).latch = some { word := 0x00000009#32, nmode := false }
      ∧ ((running 0x00000009#32 State.reset).delay = 0 ∨ (running 0x00000009#32 State.reset).host = []) := by decide

theorem witness_StepRunsTheDecodedCommand_completion :
    (running 0x00010202#32 State.reset).latch = some { word := 0x00010202#32, nmode := false }
      ∧ decode 0x00010202#32 = .ok (.fadd 2 0 1)
      ∧ ((running 0x00010202#32 State.reset).delay = 0 ∨ (running 0x00010202#32 State.reset).host = []) := by decide
theorem witness_StepRunsTheDecodedCommand_inputs :
    ((waiting .wait).latch = some { word := 0x00000415#32, nmode := false } ∧ (waiting .wait).host = .wait :: [.wait]
        ∧ (waiting .wait).delay ≠ 0)
      ∧ ((pending .wait).latch = none ∧ (pending .wait).host = .wait :: [])
      ∧ (State.reset.latch = none ∧ State.reset.host = []) := by decide
/-- A state for every row of the table of R242: each error kind, and none, is some state's. -/
theorem witness_StatusAndControlLayout :
    ∀ e ∈ ([none, some .valueRange, some .fieldMismatch, some .curveMismatch, some .notOnCurve, some .divByZero,
        some .invalidScalar, some .invalidKey, some .illegalCmd, some .uninitOperand, some .operandKind, some .nonceEmpty,
        some .retryExhausted] : List (Option Err)), ({ State.reset with err := e } : State).err = e := fun _ _ => rfl

theorem witness_CmdRegisterIssuesCommands :
    ((pending (.write 0x00C#12 4 0x00000415#32)).busy = false
        ∧ (pending (.write 0x00C#12 4 0x00000415#32)).host = .write 0x00C#12 4 0x00000415#32 :: [])
      ∧ ((waiting (.write 0x00C#12 4 0x00000415#32)).busy = true ∧ (waiting (.write 0x00C#12 4 0x00000415#32)).delay ≠ 0
        ∧ (waiting (.write 0x00C#12 4 0x00000415#32)).host = .write 0x00C#12 4 0x00000415#32 :: [.wait])
      ∧ ((pending (.read 0x00C#12 4)).busy = false ∧ (pending (.read 0x00C#12 4)).host = .read 0x00C#12 4 :: [])
      ∧ ((waiting (.read 0x00C#12 4)).delay ≠ 0 ∧ (waiting (.read 0x00C#12 4)).host = .read 0x00C#12 4 :: [.wait]) := by
  decide

/-- The ends of each range of offsets. -/
theorem witness_WritesWhileBusyAreDropped :
    (waiting .wait).busy = true
      ∧ ∀ off ∈ [0x00C#12, 0x020#12, 0x03C#12, 0x100#12, 0x4FC#12], off.toNat % 4 = 0
        ∧ (off.toNat = 0x00C ∨ (0x020 ≤ off.toNat ∧ off.toNat ≤ 0x03C) ∨ (0x100 ≤ off.toNat ∧ off.toNat ≤ 0x4FC)) := by
  simp [waiting, running, State.busy]

theorem witness_ReadOnlyWordsIgnoreWrites :
    (∀ off ∈ [0x000#12, 0x010#12, 0x014#12, 0x800#12, 0xFFC#12], off.toNat % 4 = 0
        ∧ (off.toNat = 0x000 ∨ off.toNat = 0x010 ∨ off.toNat = 0x014 ∨ 0x800 ≤ off.toNat))
      ∧ (0x120#12).toNat % 4 = 0 ∧ (0x120#12).toNat = 0x120 + 0x40 * (0 : VIdx).val + 4 * (0 : Fin 8).val
      ∧ (0x4FC#12).toNat % 4 = 0 ∧ (0x4FC#12).toNat = 0x120 + 0x40 * (15 : VIdx).val + 4 * (7 : Fin 8).val
      ∧ (0x008#12).toNat % 4 = 0 ∧ (0x008#12).toNat = 0x008 := by simp

theorem witness_ReadsHaveNoSideEffects :
    State.reset.busy = false ∧ (0x0FC#12).toNat < 0x100
      ∧ (0x500 ≤ (0x500#12).toNat ∧ (0x500#12).toNat < 0x800) ∧ (0x500 ≤ (0x7FC#12).toNat ∧ (0x7FC#12).toNat < 0x800) := by
  decide

theorem witness_OperandsFrozenWhileBusy :
    step (waiting .wait) = .next (next (waiting .wait)) ∧ (waiting .wait).busy = true ∧ (next (waiting .wait)).busy = true :=
  ⟨rfl, rfl, rfl⟩
theorem witness_EveryAcceptedCommandCompletes :
    (∃ l, (waiting .wait).latch = some l) ∧ HostOp.hwReset ∉ (waiting .wait).host
      ∧ (∀ d : Word, d.getLsbD 31 = true → HostOp.write 0x004#12 4 d ∉ (waiting .wait).host)
      ∧ (waiting .wait).busy = true ∧ (waiting .wait).delay = 2 :=
  ⟨⟨_, rfl⟩, by decide, fun _ _ h => by simp [waiting] at h, rfl, rfl⟩

theorem witness_ResetFromAnyState : (0x80000003#32).getLsbD 31 = true ∧ SameCore State.reset State.reset := by decide
theorem witness_ControlAndStatusWrites : (0x00000003#32).getLsbD 31 = false := by decide
theorem witness_NonceWordWrites : State.reset.busy = false ∧ (1 : Fin 8) ≠ 0 := by decide
theorem witness_HostWriteMakesInteger : State.reset.busy = false ∧ (waiting .wait).busy = true ∧ (1 : Fin 8) ≠ 0 := by decide
theorem witness_EightWordWritesLoadAValue : (loaded [(15, vr 170 223)] []).busy = false := by decide
theorem witness_WindowShowsTheRegisters : (loaded [(15, vr 170 223)] [(7, ptP)]).busy = false := by decide

/-- The ends of each range of offsets. -/
theorem witness_ReservedOffsetsReadZero :
    (∀ off ∈ [0x018#12, 0x01C#12, 0x040#12, 0x0FC#12, 0x500#12, 0x7FC#12], off.toNat % 4 = 0
        ∧ (off.toNat = 0x018 ∨ off.toNat = 0x01C ∨ (0x040 ≤ off.toNat ∧ off.toNat ≤ 0x0FC)
          ∨ (0x500 ≤ off.toNat ∧ off.toNat ≤ 0x7FC)))
      ∧ (∀ off ∈ [0x020#12, 0x03C#12], off.toNat % 4 = 0 ∧ (0x020 ≤ off.toNat ∧ off.toNat ≤ 0x03C))
      ∧ (∀ off ∈ [0x804#12, 0x81C#12, 0x8C0#12, 0xFFC#12], off.toNat % 4 = 0 ∧ 0x800 ≤ off.toNat
          ∧ ((0x004 ≤ off.toNat % 0x100 ∧ off.toNat % 0x100 ≤ 0x01C) ∨ 0x0C0 ≤ off.toNat % 0x100))
      ∧ State.reset.busy = false := by simp [State.busy, State.reset]

theorem witness_UndefinedAccessesGetBusErrors :
    (1 : Nat) ≠ 4 ∧ (0x002#12).toNat % 4 ≠ 0 ∧ (0xFFF#12).toNat % 4 ≠ 0 ∧ (0xFFC#12).toNat % 4 = 0 := by decide
theorem witness_InterruptFollowsEnableAndDone :
    exec (.pldg 4) State.reset = .next (next (running 0x00000415#32 State.reset))
      ∧ (0x00000002#32).getLsbD 1 = true ∧ (0x00000010#32).getLsbD 1 = false ∧ (0x00000001#32).getLsbD 31 = false
      ∧ State.reset.busy = false :=
  ⟨rfl, by decide, by decide, by decide, rfl⟩

/-! Invariants and rules of the whole machine -/

theorem witness_StepKeepsRegisterInvariants :
    (loaded [(0, vr 5 223)] [(0, ptP)]).Inv
      ∧ step (running 0x00000112#32 (loaded [(0, vr 5 223)] [(0, ptP)]))
        = .next (runWord 0x00000112#32 (loaded [(0, vr 5 223)] [(0, ptP)])) := by
  constructor
  · decide +kernel
  · rfl
theorem witness_ReservedErrorCodeNeverWritten :
    step (running 0x00010202#32 State.reset) = .next (runWord 0x00010202#32 State.reset)
      ∧ (running 0x00010202#32 State.reset).err ≠ some .invalidScalar := by
  constructor
  · rfl
  · decide
theorem witness_FlagWrittenOnlyByComparisons_command :
    step (running 0x00043008#32 (loaded [(3, vr 5 0), (4, vr 5 0)] []))
        = .next (runWord 0x00043008#32 (loaded [(3, vr 5 0), (4, vr 5 0)] []))
      ∧ (runWord 0x00043008#32 (loaded [(3, vr 5 0), (4, vr 5 0)] [])).flag
        ≠ (running 0x00043008#32 (loaded [(3, vr 5 0), (4, vr 5 0)] [])).flag := by
  constructor
  · rfl
  · decide +kernel
theorem witness_FlagWrittenOnlyByComparisons_reset :
    step { pending .hwReset with flag := true } = .next (next { pending .hwReset with flag := true })
      ∧ (next { pending .hwReset with flag := true }).flag ≠ ({ pending .hwReset with flag := true } : State).flag := by
  constructor
  · rfl
  · decide
theorem witness_PointRegistersWrittenOnlyByPointCommands :
    step (running 0x00000415#32 State.reset) = .next (runWord 0x00000415#32 State.reset)
      ∧ (runWord 0x00000415#32 State.reset).pregs ≠ (running 0x00000415#32 State.reset).pregs := by
  constructor
  · rfl
  · decide +kernel
theorem witness_ErrorsArePrecise :
    exec (.fadd 2 0 1) (running 0x00010202#32 State.reset) = .next (runWord 0x00010202#32 State.reset)
      ∧ (runWord 0x00010202#32 State.reset).err ≠ none := by
  constructor
  · rfl
  · decide +kernel
theorem witness_UninitialisedOperandsReported :
    ∃ x ∈ sourcesOf (.padd 1 0 0), Src.valid State.reset x = false := by decide
theorem witness_IntegerOperandsReported :
    (∀ x ∈ sourcesOf (.fadd 2 0 1), Src.valid (loaded [(0, vr 1 223), (1, vr 2 0)] []) x = true)
      ∧ ∃ v : VIdx, Src.fs v ∈ sourcesOf (.fadd 2 0 1) ∧ ((loaded [(0, vr 1 223), (1, vr 2 0)] []).vreg v).mod = 0#256 := by
  decide +kernel

/-! Field commands -/

theorem witness_FnewBuildsAFieldElement :
    (vr 222 0).valid = true ∧ (vr 223 0).valid = true ∧ (vr 222 0).val.toNat < (vr 223 0).val.toNat
      ∧ (vr 223 0).val.toNat ≤ (vr 223 0).val.toNat
      ∧ (loaded [(0, vr 222 0), (1, vr 223 0)] []).vreg 0 = vr 222 0 ∧ (loaded [(0, vr 222 0), (1, vr 223 0)] []).vreg 1 = vr 223 0 := by
  decide +kernel

/-- Two field elements of one modulus, and two of different moduli: FADD, FSUB, FMUL, FDIV and PINF. -/
def twoFields (m : Nat) : State := loaded [(0, vr 222 223), (1, vr 1 m)] []

theorem witness_FaddAddsModulo :
    (∀ m ∈ [223, 13], ((twoFields m).vreg 0).isField ∧ ((twoFields m).vreg 1).isField)
      ∧ ((twoFields 223).vreg 0).mod = ((twoFields 223).vreg 1).mod
      ∧ ((twoFields 13).vreg 0).mod ≠ ((twoFields 13).vreg 1).mod := by decide +kernel
theorem witness_FsubSubtractsModulo :
    (∀ m ∈ [223, 13], ((twoFields m).vreg 1).isField ∧ ((twoFields m).vreg 0).isField)
      ∧ ((twoFields 223).vreg 1).mod = ((twoFields 223).vreg 0).mod
      ∧ ((twoFields 13).vreg 1).mod ≠ ((twoFields 13).vreg 0).mod := by decide +kernel
theorem witness_FmulMultipliesModulo :
    (∀ m ∈ [223, 13], ((twoFields m).vreg 0).isField ∧ ((twoFields m).vreg 1).isField)
      ∧ ((twoFields 223).vreg 0).mod = ((twoFields 223).vreg 1).mod
      ∧ ((twoFields 13).vreg 0).mod ≠ ((twoFields 13).vreg 1).mod := by decide +kernel
theorem witness_FpowRaisesToReducedExponent :
    ((loaded [(0, vr 3 223), (1, vr 222 0)] []).vreg 0).isField
      ∧ ((loaded [(0, vr 3 223), (1, vr 222 0)] []).vreg 1).valid = true
      ∧ ((loaded [(0, vr 0 1)] []).vreg 0).isField ∧ ((loaded [(0, vr 0 1)] []).vreg 0).mod.toNat = 1 := by decide +kernel
theorem witness_FinvIsTheFermatPower :
    (((loaded [(0, vr 1 2)] []).vreg 0).isField ∧ ((loaded [(0, vr 1 2)] []).vreg 0).Ok
        ∧ ((loaded [(0, vr 1 2)] []).vreg 0).val ≠ 0#256)
      ∧ ((loaded [(0, vr 0 1)] []).vreg 0).isField ∧ ((loaded [(0, vr 0 1)] []).vreg 0).Ok
      ∧ ((loaded [(0, vr 0 1)] []).vreg 0).val = 0#256 := by decide +kernel
theorem witness_FdivMultipliesByTheFermatPower :
    (∀ m ∈ [223, 13], ((twoFields m).vreg 0).isField ∧ ((twoFields m).vreg 1).isField ∧ ((twoFields m).vreg 1).Ok)
      ∧ (((twoFields 223).vreg 0).mod = ((twoFields 223).vreg 1).mod ∧ ((twoFields 223).vreg 1).val ≠ 0#256)
      ∧ (((loaded [(0, vr 5 223), (1, vr 0 223)] []).vreg 1).isField ∧ ((loaded [(0, vr 5 223), (1, vr 0 223)] []).vreg 1).Ok
        ∧ ((loaded [(0, vr 5 223), (1, vr 0 223)] []).vreg 0).mod = ((loaded [(0, vr 5 223), (1, vr 0 223)] []).vreg 1).mod
        ∧ ((loaded [(0, vr 5 223), (1, vr 0 223)] []).vreg 1).val = 0#256)
      ∧ ((twoFields 13).vreg 0).mod ≠ ((twoFields 13).vreg 1).mod := by decide +kernel
theorem witness_FeqComparesValueAndModulus :
    ((loaded [(3, vr 5 223), (4, vr 5 0)] []).vreg 3).valid = true
      ∧ ((loaded [(3, vr 5 223), (4, vr 5 0)] []).vreg 4).valid = true := by decide +kernel
theorem witness_FieldLawsOfTheSource_sum :
    ((twoFields 223).vreg 0).isField ∧ ((twoFields 223).vreg 1).isField ∧ ((twoFields 223).vreg 0).Ok
      ∧ ((twoFields 223).vreg 1).Ok ∧ ((twoFields 223).vreg 0).mod = ((twoFields 223).vreg 1).mod ∧ (2 : VIdx) ≠ 1 := by
  decide +kernel
theorem witness_FieldLawsOfTheSource_inverse :
    ((twoFields 223).vreg 0).isField ∧ ((twoFields 223).vreg 0).Ok ∧ Nat.Prime ((twoFields 223).vreg 0).mod.toNat
      ∧ ((twoFields 223).vreg 0).val ≠ 0#256 ∧ (1 : VIdx) ≠ 0 := by
  have h : ((twoFields 223).vreg 0).mod.toNat = 223 := by decide +kernel
  refine ⟨by decide +kernel, by decide +kernel, ?_, by decide +kernel, by decide⟩
  rw [h]
  norm_num

/-! Point commands -/

theorem witness_PinfMakesTheIdentity :
    (∀ m ∈ [223, 13], ((twoFields m).vreg 0).isField ∧ ((twoFields m).vreg 1).isField)
      ∧ ((twoFields 223).vreg 0).mod = ((twoFields 223).vreg 1).mod
      ∧ ((twoFields 13).vreg 0).mod ≠ ((twoFields 13).vreg 1).mod := by decide +kernel

/-- The operands of PNEW with a given ordinate and a given modulus of `b`. -/
def pnewState (y m : Nat) : State := loaded [(5, vr 170 223), (6, vr y 223), (7, vr 0 223), (8, vr 7 m)] []

theorem witness_PnewChecksModuliThenCurve :
    (∀ e ∈ [(142, 223), (143, 223), (142, 13)], ((pnewState e.1 e.2).vreg 5).isField ∧ ((pnewState e.1 e.2).vreg 6).isField
        ∧ ((pnewState e.1 e.2).vreg 7).isField ∧ ((pnewState e.1 e.2).vreg 8).isField)
      ∧ (∀ y ∈ [142, 143], ((pnewState y 223).vreg 5).mod = ((pnewState y 223).vreg 6).mod
        ∧ ((pnewState y 223).vreg 5).mod = ((pnewState y 223).vreg 7).mod
        ∧ ((pnewState y 223).vreg 5).mod = ((pnewState y 223).vreg 8).mod)
      ∧ ((142 * 142 : Int) - (170 * 170 * 170 + 0 * 170 + 7)) % 223 = 0
      ∧ ((143 * 143 : Int) - (170 * 170 * 170 + 0 * 170 + 7)) % 223 ≠ 0
      ∧ ((pnewState 142 13).vreg 5).mod ≠ ((pnewState 142 13).vreg 8).mod := by decide +kernel

/-- A pair of points for each case of R164, the chord and the tangent with a slope and a result that CHECKED takes. -/
theorem witness_GroupLawCases :
    (∀ q ∈ [ptP, ptQ, ptT, idPt 0 7 223, pt 170 81 0 7 223, idPt 0 7 13, pt 0 1 0 1 2, pt 1 1 0 0 15], q.Ok)
      ∧ (ptP.a, ptP.b, ptP.p) ≠ ((idPt 0 7 13).a, (idPt 0 7 13).b, (idPt 0 7 13).p)
      ∧ (idPt 0 7 223).inf = true ∧ ptP.inf = false
      ∧ (ptP.x = (pt 170 81 0 7 223).x ∧ ptP.y ≠ (pt 170 81 0 7 223).y) ∧ ptT.y = 0#256
      ∧ ((pt 0 1 0 1 2).y ≠ 0#256 ∧ 2 * (pt 0 1 0 1 2).y.toNat = (pt 0 1 0 1 2).p.toNat)
      ∧ (ptP.x ≠ ptQ.x ∧ (100 : Int) = ((47 : Int) - 170) % 223)
      ∧ (ptP.y ≠ 0#256 ∧ (2 * 142 : Int) % 223 ≠ 0 ∧ (61 : Int) = (2 * 142 : Int) % 223
        ∧ (84 : Int) = ((76 : Int) * 76 - 170 - 170) % 223 ∧ (150 : Int) = ((76 : Int) * (170 - 84) - 142) % 223) := by
  decide +kernel

/-- Two points registers, source operands of PADD, PNEG, PEQ and PMUL. -/
def twoPoints (p q : Point) : State := loaded [(9, vr 3 0)] [(0, p), (1, q)]

theorem witness_PaddWritesTheSum :
    ((twoPoints ptP ptQ).preg 0).valid = true ∧ ((twoPoints ptP ptQ).preg 1).valid = true
      ∧ addPoints ptP ptQ = .ok (pt 34 145 0 7 223) ∧ addPoints ptP (idPt 0 7 13) = .error .curveMismatch := by decide +kernel
theorem witness_PnegNegatesTheOrdinate :
    (∀ q ∈ [ptP, ptT, idPt 0 7 223], ((twoPoints q q).preg 0).valid = true ∧ ((twoPoints q q).preg 0).Ok)
      ∧ ptP.inf = false ∧ (idPt 0 7 223).inf = true := by decide +kernel
theorem witness_PeqComparesAllFields :
    ((twoPoints ptP ptQ).preg 0).valid = true ∧ ((twoPoints ptP ptQ).preg 1).valid = true := by decide +kernel
theorem witness_AddNeverRaisesOnOddPrimes :
    ptP.Ok ∧ ptQ.Ok ∧ ptP.curve = ptQ.curve ∧ Nat.Prime ptP.p.toNat ∧ ptP.p.toNat ≠ 2 := by
  have h : ptP.p.toNat = 223 := by decide
  refine ⟨by decide +kernel, by decide +kernel, by decide, ?_, by decide⟩
  rw [h]
  norm_num
theorem witness_GroupLawProperties :
    (ptP.Ok ∧ 2 * ptP.y.toNat ≠ ptP.p.toNat) ∧ ptQ.Ok ∧ ptP.curve = ptQ.curve ∧ Nat.Prime ptP.p.toNat ∧ ptP ≠ ptQ := by
  have h : ptP.p.toNat = 223 := by decide
  refine ⟨by decide +kernel, by decide +kernel, by decide, ?_, by decide⟩
  rw [h]
  norm_num

/-! Scalar commands -/

theorem witness_PmulWritesTheMultiple :
    ((twoPoints ptP ptQ).preg 0).valid = true ∧ ((twoPoints ptP ptQ).vreg 9).valid = true
      ∧ smul ptP 3 = .ok (pt 31 94 0 7 223) ∧ smul (pt 0 1 0 1 2) 1 = .error .divByZero
      ∧ ((twoPoints ptP ptQ).preg 0).Ok ∧ Nat.Prime ((twoPoints ptP ptQ).preg 0).pt.p.toNat
      ∧ ((twoPoints ptP ptQ).preg 0).pt.p.toNat ≠ 2 := by
  have h : ((twoPoints ptP ptQ).preg 0).pt.p.toNat = 223 := by decide +kernel
  rw [h]
  refine ⟨by decide +kernel, by decide +kernel, by decide +kernel, by decide +kernel, by decide +kernel, by norm_num, by decide⟩
/-- The loop of R190 over the binary digits of its scalar meets the equations the statement asks of a loop. -/
theorem witness_ScalarMultiplicationIsDoubleAndAdd :
    let loop : Nat → Point → Point → Except Err Point := fun k => smulLoop (bitLength k) k
    (∀ result current, loop 0 result current = .ok result)
      ∧ ∀ k result current, k ≠ 0 →
        (∀ result' current', (if k % 2 = 1 then addPoints result current else .ok result) = .ok result' →
          addPoints current current = .ok current' → loop k result current = loop (k / 2) result' current')
        ∧ (∀ e, k % 2 = 1 → addPoints result current = .error e → loop k result current = .error e)
        ∧ (∀ e result', (if k % 2 = 1 then addPoints result current else .ok result) = .ok result' →
          addPoints current current = .error e → loop k result current = .error e) := by
  refine ⟨fun _ _ => rfl, fun k result current hk => ?_⟩
  simp only [bitLength_half hk]
  exact ⟨fun _ _ h1 h2 => smulLoop_succ h1 h2, fun _ ho h => smulLoop_add_error ho h, fun _ _ h1 h2 => smulLoop_double_error h1 h2⟩
theorem witness_ScalarMultiplicationIsDoubleAndAdd_curves :
    pointG.curve = (0#256, 7#256, BitVec.ofNat 256 (2 ^ 256 - 2 ^ 32 - 977))
      ∧ ptP.curve ≠ (0#256, 7#256, BitVec.ofNat 256 (2 ^ 256 - 2 ^ 32 - 977)) := by decide +kernel
theorem witness_ScalarMultiplicationLaws :
    pointG.curve = (0#256, 7#256, BitVec.ofNat 256 (2 ^ 256 - 2 ^ 32 - 977))
      ∧ ptP.Ok ∧ addPoints ptP ptP = .ok (pt 84 150 0 7 223)
      ∧ (pt 0 1 0 1 2).Ok ∧ addPoints (pt 0 1 0 1 2) (pt 0 1 0 1 2) = .error .divByZero
      ∧ ptP.curve ≠ (0#256, 7#256, BitVec.ofNat 256 (2 ^ 256 - 2 ^ 32 - 977))
      ∧ (pt 0 1 0 1 2).curve ≠ (0#256, 7#256, BitVec.ofNat 256 (2 ^ 256 - 2 ^ 32 - 977))
      ∧ 2 * ((secpN - 1) / 2) < secpN ∧ 2 * ((secpN - 2) / 2) + 1 < secpN ∧ ptP.p.toNat ≠ 2 := by decide +kernel
theorem witness_ScalarMultiplicationLaws_prime : Nat.Prime ptP.p.toNat := by
  rw [show ptP.p.toNat = 223 by decide]
  norm_num
theorem witness_SredReducesModuloTheOrder : ((twoPoints ptP ptQ).vreg 9).valid = true := by decide +kernel

/-! ECDSA commands -/

/-- A state with a secret, a digest and the given nonce registers, in host or TRNG mode. -/
def signState (sec z k : Nat) (full mode : Bool) : State :=
  { loaded [(0, vr sec 0), (1, vr z 0)] [] with nmode := mode, nonce := BitVec.ofNat 256 k, nonceValid := full }

theorem witness_EkeyDerivesThePublicPoint :
    (∀ k ∈ [0, 1, secpN - 1, secpN], ((signState k 0 0 false false).vreg 0).valid = true)
      ∧ (1 ≤ ((signState 1 0 0 false false).vreg 0).val.toNat ∧ ((signState 1 0 0 false false).vreg 0).val.toNat < secpN)
      ∧ ((signState (secpN - 1) 0 0 false false).vreg 0).val.toNat < secpN
      ∧ ((signState 0 0 0 false false).vreg 0).val.toNat = 0
      ∧ secpN ≤ ((signState secpN 0 0 false false).vreg 0).val.toNat := by decide +kernel

theorem smul_pointG_one : smul pointG 1 = .ok pointG := by decide +kernel
theorem witness_EsignWithAHostNonce_operands :
    (2 : VIdx) ≠ 3
      ∧ (∀ k ∈ [0, 1, secpN], ((signState 1 0 k true true).vreg 0).valid = true ∧ ((signState 1 0 k true true).vreg 1).valid = true
        ∧ (signState 1 0 k true true).commandNmode = true ∧ 1 ≤ ((signState 1 0 k true true).vreg 0).val.toNat
        ∧ ((signState 1 0 k true true).vreg 0).val.toNat < secpN ∧ (signState 1 0 k true true).nonceValid = true)
      ∧ (1 ≤ (signState 1 0 1 true true).nonce.toNat ∧ (signState 1 0 1 true true).nonce.toNat < secpN)
      ∧ (signState 1 0 0 true true).nonce.toNat = 0 ∧ secpN ≤ (signState 1 0 secpN true true).nonce.toNat
      ∧ (signState 1 0 1 false true).nonceValid = false ∧ (signState 1 0 1 false true).commandNmode = true
      ∧ ((signState 0 0 1 true true).vreg 0).val.toNat = 0 ∧ secpN ≤ ((signState secpN 0 1 true true).vreg 0).val.toNat := by
  decide +kernel
/-- The scalar of vector E6, whatever the exponent: every power of the nonce 1 is 1. -/
theorem e6_scalar (e : Nat) : secpGx.toNat = (0 + secpGx.toNat * 1) * (1 ^ e % secpN) % secpN := by
  rw [one_pow]
  decide +kernel
/-- The scalar of vector E15 is 0. -/
theorem e15_scalar (e : Nat) : ((secpN - secpGx.toNat) + pointG.x.toNat * 1) * (1 ^ e % secpN) % secpN = 0 := by
  rw [one_pow]
  decide +kernel
/-- Nonce 1 signs digest 0 with secret 1 (vector E6), and is degenerate for the digest `N - Gx` (vector E15). -/
theorem witness_EsignWithAHostNonce_nonces :
    SignedWith 1 0 1 secpGx.toNat secpGx.toNat ∧ DegenerateNonce 1 (secpN - secpGx.toNat) 1 :=
  ⟨⟨pointG, smul_pointG_one, rfl, by decide, by decide, e6_scalar (secpN - 2), by decide⟩,
    ⟨pointG, smul_pointG_one, .inr (.inr (e15_scalar (secpN - 2)))⟩⟩
theorem witness_EsignWithDrawnNonces :
    (2 : VIdx) ≠ 3
      ∧ (∀ sec ∈ [0, 1, secpN - 1, secpN], ((signState sec 0 0 true false).vreg 0).valid = true
        ∧ ((signState sec 0 0 true false).vreg 1).valid = true ∧ (signState sec 0 0 true false).commandNmode = false)
      ∧ (∀ sec ∈ [1, secpN - 1], 1 ≤ ((signState sec 0 0 true false).vreg 0).val.toNat
        ∧ ((signState sec 0 0 true false).vreg 0).val.toNat < secpN)
      ∧ ((signState 0 0 0 true false).vreg 0).val.toNat = 0
      ∧ secpN ≤ ((signState secpN 0 0 true false).vreg 0).val.toNat := by decide +kernel

/-- The operands of EVERIFY with a public point and a signature. -/
def verifyState (q : Point) (r sg : Nat) : State := loaded [(1, vr 5 0), (2, vr r 0), (3, vr sg 0)] [(0, q)]

theorem witness_EverifyChecksTheSignature_operands :
    (∀ e ∈ [(pointG, 1, 1), (pointG, 0, 1), (pointG, 1, secpN), (idPt 0 7 223, 1, secpN - 1)],
        ((verifyState e.1 e.2.1 e.2.2).preg 0).valid = true ∧ ((verifyState e.1 e.2.1 e.2.2).vreg 1).valid = true
        ∧ ((verifyState e.1 e.2.1 e.2.2).vreg 2).valid = true ∧ ((verifyState e.1 e.2.1 e.2.2).vreg 3).valid = true) := by
  decide +kernel
theorem witness_EverifyChecksTheSignature_cases :
    ((verifyState pointG 0 1).vreg 2).val.toNat = 0 ∧ secpN ≤ ((verifyState pointG 1 secpN).vreg 3).val.toNat
      ∧ (1 ≤ ((verifyState pointG 1 (secpN - 1)).vreg 2).val.toNat ∧ ((verifyState pointG 1 (secpN - 1)).vreg 2).val.toNat < secpN
        ∧ 1 ≤ ((verifyState pointG 1 (secpN - 1)).vreg 3).val.toNat
        ∧ ((verifyState pointG 1 (secpN - 1)).vreg 3).val.toNat < secpN)
      ∧ ((verifyState (idPt 0 7 223) 1 1).preg 0).pt.curve ≠ (0#256, 7#256, BitVec.ofNat 256 (2 ^ 256 - 2 ^ 32 - 977))
      ∧ ((verifyState pointG 1 1).preg 0).pt.curve = (0#256, 7#256, BitVec.ofNat 256 (2 ^ 256 - 2 ^ 32 - 977))
      ∧ ((verifyState pointG 1 1).preg 0).Ok := by decide +kernel
/-- The nonce source of vector E6 before and after. -/
theorem e6_nonce :
    nextNonce true { valid := true, nonce := 1#256, draws := 0 } = ({ valid := false, nonce := 1#256, draws := 0 }, .ok 1) := by
  decide +kernel
theorem e6_attempt : signAttempt 1 0 1 = .ok (some (secpGx.toNat, secpGx.toNat)) := by
  have hc : ¬ (secpGx.toNat = 0 ∨ secpN ≤ secpGx.toNat) := by decide
  have hz : ¬ secpGx.toNat = 0 := by decide
  have hx : pointG.x = secpGx := rfl
  rw [signAttempt_eq smul_pointG_one, hx, powmod_eq, ← e6_scalar, if_neg hc, if_neg hz]
theorem witness_SignaturesVerify :
    1 ≤ 1 ∧ 1 < secpN
      ∧ sign true 1 0 { valid := true, nonce := 1#256, draws := 0 }
        = ({ valid := false, nonce := 1#256, draws := 0 }, .ok (secpGx.toNat, secpGx.toNat))
      ∧ smul pointG 1 = .ok pointG :=
  ⟨le_rfl, by decide, signLoop_signed (fuel := 15) e6_nonce e6_attempt, smul_pointG_one⟩

end Sys2Proof.Tests
end

section
/-! SUPPORT. What the commands keep of the register invariants R22 and R25 (10_state.md), and everything a command or a step
can do to the registers and FLAG. -/

namespace Sys2Proof.Machine

/-! ### The invariants of value registers (R22) -/

theorem toNat_ofNat_of_lt_toNat {v : Nat} {m : W256} (h : v < m.toNat) : (BitVec.ofNat 256 v).toNat = v :=
  Nat.mod_eq_of_lt (h.trans m.isLt)

theorem toNat_pos_of_ne_zero {m : W256} (h : m ≠ 0#256) : 0 < m.toNat :=
  Nat.pos_of_ne_zero fun h0 => h (BitVec.eq_of_toNat_eq h0)

/-- `V[i] <- (v, m)` meets R22 when the result is below every modulus but 0, which makes an integer. -/
theorem VReg.ofNat_ok {v : Nat} {m : W256} (h : 0 < m.toNat → v < m.toNat) : (VReg.ofNat v m).Ok := by
  intro _ hm
  have hlt : v < m.toNat := h (toNat_pos_of_ne_zero hm)
  exact (toNat_ofNat_of_lt_toNat hlt).trans_lt hlt

theorem fieldNew_ok {v m : W256} {x : VReg} (h : fieldNew v m = .ok x) : x.Ok := by
  unfold fieldNew at h
  split at h
  · cases h
  · cases h
    intro _ _
    show v.toNat < m.toNat
    omega

theorem fieldBinary_ok {op : Int → Int → Int} {x y z : VReg} (h : fieldBinary op x y = .ok z) : z.Ok := by
  unfold fieldBinary at h
  split at h
  · cases h
    exact VReg.ofNat_ok (modInt_lt _)
  · cases h

theorem fieldPow_ok (x e : VReg) : (fieldPow x e).Ok := VReg.ofNat_ok (powField_lt _ _)

theorem fieldInv_ok {x z : VReg} (h : fieldInv x = .ok z) : z.Ok := by
  unfold fieldInv at h
  rcases invField_cases x.val.toNat x.mod.toNat with ⟨_, e⟩ | ⟨_, e⟩ <;> rw [e] at h <;> cases h
  exact VReg.ofNat_ok (powField_lt _ _)

theorem fieldDiv_ok {x y z : VReg} (h : fieldDiv x y = .ok z) : z.Ok := by
  unfold fieldDiv at h
  split at h
  · rcases invField_cases y.val.toNat x.mod.toNat with ⟨_, e⟩ | ⟨_, e⟩ <;> rw [e] at h <;> cases h
    exact VReg.ofNat_ok (Nat.mod_lt _)
  · cases h

theorem VReg.integer_ok (v : Nat) : (VReg.ofNat v 0#256).Ok := VReg.ofNat_ok fun h => absurd h (lt_irrefl 0)

theorem VReg.mod_secpN_ok (v : Nat) : (VReg.ofNat (v % secpN) (BitVec.ofNat 256 secpN)).Ok :=
  VReg.ofNat_ok fun _ => Nat.mod_lt v (by decide)

/-! ### The invariants of points (R25) -/

theorem Point.ok_of_onCurve {q : Point} (hinf : q.inf = false) (hx : q.x.toNat < q.p.toNat) (hy : q.y.toNat < q.p.toNat)
    (ha : q.a.toNat < q.p.toNat) (hb : q.b.toNat < q.p.toNat)
    (hc : onCurve q.x.toNat q.y.toNat q.a.toNat q.b.toNat q.p.toNat = true) : q.Ok := by
  have hp : 0 < q.p.toNat := Nat.zero_lt_of_lt hx
  exact ⟨hp, ha, hb, fun h => absurd (hinf.symm.trans h) Bool.false_ne_true, fun _ => ⟨hx, hy, (onCurve_iff _ _ _ _ hp).mp hc⟩⟩

theorem identityOn_ok {a b p : W256} (ha : a.toNat < p.toNat) (hb : b.toNat < p.toNat) : (identityOn a b p).Ok :=
  ⟨Nat.zero_lt_of_lt ha, ha, hb, fun _ => ⟨rfl, rfl⟩, fun h => nomatch h⟩

theorem newIdentity_ok {a b : VReg} {q : Point} (ha : a.val.toNat < a.mod.toNat) (hb : b.val.toNat < b.mod.toNat)
    (h : newIdentity a b = .ok q) : q.Ok := by
  unfold newIdentity at h
  split at h
  · rename_i hm
    cases h
    exact identityOn_ok ha (hm ▸ hb)
  · cases h

theorem newPoint_ok {x y a b : VReg} {q : Point} (hx : x.val.toNat < x.mod.toNat) (hy : y.val.toNat < y.mod.toNat)
    (ha : a.val.toNat < a.mod.toNat) (hb : b.val.toNat < b.mod.toNat) (h : newPoint x y a b = .ok q) : q.Ok := by
  unfold newPoint at h
  split at h
  · rename_i hm
    obtain ⟨hxy, hya, hab⟩ := hm
    split at h
    · rename_i hc
      cases h
      rw [← hab, ← hya, ← hxy] at hb
      rw [← hya, ← hxy] at ha
      rw [← hxy] at hy
      exact Point.ok_of_onCurve rfl hx hy ha hb hc
    · cases h
  · cases h

/-- R165: the sum of two points that meet R25 meets it. -/
theorem addPoints_ok {p q r : Point} (hp : p.Ok) (hq : q.Ok) (h : addPoints p q = .ok r) : r.Ok := by
  have ⟨hpos, ha, hb, _⟩ := hp
  rcases addPoints_cases p q with e | e | e | ⟨_, e⟩ | ⟨_, e⟩ | ⟨_, e⟩ | ⟨_, v1, v2, hc, e⟩ <;> rw [e] at h <;> cases h
  · exact hq
  · exact hp
  · exact identityOn_ok ha hb
  · have h1 := modInt_lt v1 hpos
    have h2 := modInt_lt v2 hpos
    have e1 := toNat_ofNat_of_lt_toNat h1
    have e2 := toNat_ofNat_of_lt_toNat h2
    exact Point.ok_of_onCurve rfl (e1.trans_lt h1) (e2.trans_lt h2) ha hb (by rw [e1, e2]; exact hc)

/-- R167: `p - y` solves the curve equation where `y` does. -/
theorem negPoint_ok {q : Point} (hq : q.Ok) : (negPoint q).Ok := by
  unfold negPoint
  split
  · exact hq
  · rename_i hinf
    obtain ⟨hpos, ha, hb, -, hfin⟩ := hq
    obtain ⟨hx, hy, hc⟩ := hfin (Bool.eq_false_iff.mpr hinf)
    have hlt := modInt_lt ((q.p.toNat : Int) - q.y.toNat) hpos
    have e := toNat_ofNat_of_lt_toNat hlt
    refine Point.ok_of_onCurve (Bool.eq_false_iff.mpr hinf) hx (e.trans_lt hlt) ha hb ((onCurve_iff _ _ _ _ hpos).mpr ?_)
    rw [e, modInt_cast _ hpos, Int.sub_emod, Int.mul_emod, Int.emod_emod_of_dvd _ dvd_rfl, ← Int.mul_emod, ← Int.sub_emod]
    have key : ((q.p.toNat - q.y.toNat) * (q.p.toNat - q.y.toNat) : Int)
        = q.y.toNat * q.y.toNat + q.p.toNat * (q.p.toNat - 2 * q.y.toNat) := by ring
    rw [key, add_sub_right_comm, Int.add_mul_emod_self_left]
    exact hc

theorem pointG_ok : pointG.Ok := by decide +kernel

theorem smul_ok {q r : Point} {k : Nat} (hq : q.Ok) (h : smul q k = .ok r) : r.Ok := by
  have ⟨_, ha, hb, _⟩ := hq
  exact smulLoop_keeps Point.Ok (fun _ _ _ => addPoints_ok) _ _ _ _ _ (identityOn_ok ha hb) hq h

theorem publicPoint_ok {sec : Nat} {q : Point} (h : publicPoint sec = .ok q) : q.Ok := by
  unfold publicPoint at h
  split at h
  · exact smul_ok pointG_ok h
  · cases h

/-! ### The invariants of the register files -/

theorem State.Inv.of_regs_eq {s t : State} (hv : t.vregs = s.vregs) (hp : t.pregs = s.pregs) (hs : s.Inv) : t.Inv := by
  simpa only [State.Inv, State.vreg, State.preg, hv, hp] using hs

theorem State.Inv.setV {s : State} (hs : s.Inv) (d : VIdx) {x : VReg} (hx : x.Ok) : (s.setV d x).Inv := by
  refine ⟨fun i => ?_, hs.2⟩
  by_cases h : i = d
  · rw [h, vreg_setV_same]
    exact hx
  · rw [vreg_setV_ne s x h]
    exact hs.1 i

theorem State.Inv.setP {s : State} (hs : s.Inv) (d : PIdx) {q : Point} (hq : q.Ok) : (s.setP d q).Inv := by
  refine ⟨hs.1, fun j => ?_⟩
  by_cases h : j = d
  · rw [h, preg_setP_same]
    exact fun _ => hq
  · rw [preg_setP_ne s q h]
    exact hs.2 j

theorem inv_reset : State.reset.Inv := by
  refine ⟨fun i => ?_, fun j => ?_⟩
  · rw [vreg_reset]
    exact fun h => nomatch h
  · rw [preg_reset]
    exact fun h => nomatch h

/-- An `fs` source that passed the checks of R102 and R103 is a field element, so it is below its modulus. -/
theorem State.Inv.fs_lt {s : State} (hs : s.Inv) {srcs : List Src} (hc : s.operandError srcs = none) {i : VIdx}
    (hi : Src.fs i ∈ srcs) : (s.vreg i).val.toNat < (s.vreg i).mod.toNat := by
  obtain ⟨hvalid, hkind⟩ := (operandError_none_iff s srcs).mp hc
  exact hs.1 i (hvalid _ hi) (by simpa [Src.kindOk] using hkind _ hi)

/-- A `ps` source that passed the check of R102 holds a point, which satisfies (a) to (d). -/
theorem State.Inv.ps_ok {s : State} (hs : s.Inv) {srcs : List Src} (hc : s.operandError srcs = none) {j : PIdx}
    (hj : Src.ps j ∈ srcs) : (s.preg j).pt.Ok :=
  hs.2 j (((operandError_none_iff s srcs).mp hc).1 _ hj)

/-! ### Everything a command can answer -/

/-- The commands that write FLAG (R29). -/
abbrev WritesFlag (i : Instr) : Prop := i.op = .feq ∨ i.op = .peq ∨ i.op = .everify

/-- The commands that write a point register (R26). -/
abbrev WritesPoint (i : Instr) : Prop :=
  i.op = .pinf ∨ i.op = .pnew ∨ i.op = .padd ∨ i.op = .pneg ∨ i.op = .pldg ∨ i.op = .pmul ∨ i.op = .ekey

/-- Everything a command can answer from a state: an error, after which only a nonce ESIGN consumed stays consumed (R241),
or a completion with OK that wrote one value register, ESIGN's two, one point register, or FLAG. -/
inductive CommandAnswer (i : Instr) (s : State) : State → Prop
  | raised (n : NonceSource) (e : Err) : CommandAnswer i s ((s.setNonceSource n).retire (some e))
  | value (d : VIdx) {x : VReg} (hx : x.Ok) : CommandAnswer i s ((s.setV d x).retire none)
  | signature (n : NonceSource) (d d' : VIdx) {x y : VReg} (hx : x.Ok) (hy : y.Ok) :
      CommandAnswer i s ((((s.setNonceSource n).setV d x).setV d' y).retire none)
  | point (d : PIdx) {q : Point} (hi : WritesPoint i) (hq : s.Inv → q.Ok) : CommandAnswer i s ((s.setP d q).retire none)
  | flag (b : Bool) (hi : WritesFlag i) : CommandAnswer i s ((s.setFlag b).retire none)

theorem commandAnswer_putV {i : Instr} {s t : State} {srcs : List Src} {d : VIdx} {r : Except Err VReg}
    (hr : ∀ x, r = .ok x → x.Ok) (h : s.run srcs (s.putV d r) = .next t) : CommandAnswer i s t := by
  rcases run_putV_cases h with ⟨e, rfl, _⟩ | ⟨x, hx, rfl⟩
  · exact .raised s.nonceSource e
  · exact .value d (hr x hx)

theorem commandAnswer_putP {i : Instr} {s t : State} {srcs : List Src} {d : PIdx} {r : Except Err Point}
    (hi : WritesPoint i) (hr : s.Inv → s.operandError srcs = none → ∀ q, r = .ok q → q.Ok)
    (h : s.run srcs (s.putP d r) = .next t) : CommandAnswer i s t := by
  rcases run_cases h with ⟨e, _, _, rfl⟩ | ⟨_, e, _, rfl⟩ | ⟨hc, u, hu, rfl⟩
  · exact .raised s.nonceSource e
  · exact .raised s.nonceSource e
  · obtain ⟨q, hq, rfl⟩ := putP_eq_ok hu
    exact .point d hi fun hs => hr hs hc q hq

theorem commandAnswer_setFlag {i : Instr} {s t : State} {srcs : List Src} {r : Except Err Bool} (hi : WritesFlag i)
    (h : s.run srcs (r.map fun b => s.setFlag b) = .next t) : CommandAnswer i s t := by
  rcases run_answer h with ⟨e, rfl, _⟩ | ⟨u, hu, rfl⟩
  · exact .raised s.nonceSource e
  · cases r with
    | error e => cases hu
    | ok b =>
      cases hu
      exact .flag b hi

theorem commandAnswer_esign {i : Instr} {s t : State} {r sg sec z : VIdx} (h : execEsign r sg sec z s = .next t) :
    CommandAnswer i s t := by
  rcases execEsign_cases h with ⟨e, _, _, rfl⟩ | ⟨_, rfl⟩ | ⟨_, n, e, _, rfl⟩ | ⟨_, n, v, w, _, rfl⟩
  · exact .raised s.nonceSource e
  · exact .raised s.nonceSource .invalidKey
  · exact .raised n e
  · exact .signature n r sg (VReg.integer_ok v) (VReg.integer_ok w)

/-- Everything a command can answer, with the invariants of what it wrote (R95). -/
theorem exec_answer {i : Instr} {s t : State} (h : exec i s = .next t) : CommandAnswer i s t := by
  cases i with
  | fnew d v m => exact commandAnswer_putV (fun _ => fieldNew_ok) h
  | fadd d a b => exact commandAnswer_putV (fun _ => fieldBinary_ok) h
  | fsub d a b => exact commandAnswer_putV (fun _ => fieldBinary_ok) h
  | fmul d a b => exact commandAnswer_putV (fun _ => fieldBinary_ok) h
  | fpow d a e => exact commandAnswer_putV (fun _ hx => Except.ok.inj hx ▸ fieldPow_ok _ _) h
  | finv d a => exact commandAnswer_putV (fun _ => fieldInv_ok) h
  | fdiv d a b => exact commandAnswer_putV (fun _ => fieldDiv_ok) h
  | feq a b => exact commandAnswer_setFlag (r := .ok _) (by simp [WritesFlag, Instr.op]) h
  | pinf d a b =>
    refine commandAnswer_putP (by simp [WritesPoint, Instr.op]) (fun hs hc _ => ?_) h
    exact newIdentity_ok (hs.fs_lt hc (by simp)) (hs.fs_lt hc (by simp))
  | pnew d x y a b =>
    refine commandAnswer_putP (by simp [WritesPoint, Instr.op]) (fun hs hc _ => ?_) h
    exact newPoint_ok (hs.fs_lt hc (by simp)) (hs.fs_lt hc (by simp)) (hs.fs_lt hc (by simp)) (hs.fs_lt hc (by simp))
  | padd d p q =>
    refine commandAnswer_putP (by simp [WritesPoint, Instr.op]) (fun hs hc _ => ?_) h
    exact addPoints_ok (hs.ps_ok hc (by simp)) (hs.ps_ok hc (by simp))
  | pneg d p =>
    refine commandAnswer_putP (by simp [WritesPoint, Instr.op]) (fun hs hc _ hq => ?_) h
    exact Except.ok.inj hq ▸ negPoint_ok (hs.ps_ok hc (by simp))
  | peq p q => exact commandAnswer_setFlag (r := .ok _) (by simp [WritesFlag, Instr.op]) h
  | pldg d =>
    refine commandAnswer_putP (srcs := []) (r := .ok pointG) (by simp [WritesPoint, Instr.op]) (fun _ _ _ hq => ?_) h
    exact Except.ok.inj hq ▸ pointG_ok
  | pmul d p k =>
    refine commandAnswer_putP (by simp [WritesPoint, Instr.op]) (fun hs hc _ => ?_) h
    exact smul_ok (hs.ps_ok hc (by simp))
  | sred d a => exact commandAnswer_putV (fun _ hx => Except.ok.inj hx ▸ VReg.mod_secpN_ok _) h
  | ekey d sec => exact commandAnswer_putP (by simp [WritesPoint, Instr.op]) (fun _ _ _ => publicPoint_ok) h
  | esign r sg sec z => exact commandAnswer_esign h
  | everify q z r sg => exact commandAnswer_setFlag (by simp [WritesFlag, Instr.op]) h

/-! ### Everything a step can do to the registers and FLAG -/

/-- What a host input can do to the registers and FLAG: nothing, a reset, or a load of an integer (R65). -/
theorem serve_regs_cases (s : State) (op : HostOp) (rest : List HostOp) :
    SameCore State.reset (s.serve op rest)
    ∨ ((s.serve op rest).flag = s.flag ∧ (s.serve op rest).pregs = s.pregs
      ∧ ((s.serve op rest).vregs = s.vregs
        ∨ ∃ i v, (s.serve op rest).vregs = (s.setV i { val := v, mod := 0#256, valid := true }).vregs)) := by
  obtain ⟨u, v, ⟨hv, hp, -, -, -, hf, -⟩, -, hvt, -, hcase⟩ := serve_cases s op rest
  have ⟨hv', hp', _, _, _, hf', _⟩ := hvt
  rw [hv', hp', hf', ← hv, ← hp, ← hf]
  rcases hcase with rfl | rfl | ⟨d, rfl⟩ | ⟨d, rfl⟩ | ⟨d, _, rfl⟩ | rfl | ⟨j, d, _, rfl⟩ | ⟨i, j, d, _, rfl⟩
  case inr.inl => exact .inl hvt
  case inr.inr.inr.inr.inr.inr.inr => exact .inr ⟨rfl, rfl, .inr ⟨i, _, by rw [setV_vregs, setV_vregs, hv]⟩⟩
  all_goals exact .inr ⟨rfl, rfl, .inl rfl⟩

/-- Everything a step can do to the registers and FLAG: nothing, a reset, a load of an integer (R65), or the completion of
the latched command. -/
theorem step_regs_cases {s t : State} (h : step s = .next t) :
    (∃ l i, s.latch = some l ∧ decode l.word = .ok i ∧ exec i s = .next t)
    ∨ SameCore State.reset t
    ∨ (t.flag = s.flag ∧ t.pregs = s.pregs
      ∧ (t.vregs = s.vregs ∨ ∃ i v, t.vregs = (s.setV i { val := v, mod := 0#256, valid := true }).vregs)) := by
  rcases step_cases h with ⟨l, hl, _, hc⟩ | ⟨l, op, rest, _, _, _, rfl⟩ | ⟨op, rest, _, _, rfl⟩ | ⟨_, _, rfl⟩
  · rcases hd : decode l.word with e | i
    · rw [completeLatched_error hd] at hc
      cases hc
      exact .inr (.inr ⟨rfl, rfl, .inl rfl⟩)
    · exact .inl ⟨l, i, hl, hd, (completeLatched_ok hd s).symm.trans hc⟩
  · exact .inr (serve_regs_cases ({ s with delay := s.delay - 1 } : State) op rest)
  · exact .inr (serve_regs_cases s op rest)
  · exact .inr (.inr ⟨rfl, rfl, .inl rfl⟩)

/-! ### The invariant, FLAG and the point registers -/

theorem exec_keeps_inv {i : Instr} {s t : State} (hs : s.Inv) (h : exec i s = .next t) : t.Inv := by
  cases exec_answer h with
  | raised n e => exact hs
  | value d hx => exact hs.setV d hx
  | signature n d d' hx hy => exact State.Inv.setV (State.Inv.setV (s := s.setNonceSource n) hs d hx) d' hy
  | point d hi hq => exact hs.setP d (hq hs)
  | flag b hi => exact hs

/-- Settles O26: a command keeps the invariants, and a host input leaves the registers, resets them or loads an integer. -/
theorem stepKeepsRegisterInvariants : Obligations.StepKeepsRegisterInvariants := by
  intro s t hs h
  rcases step_regs_cases h with ⟨l, i, _, _, he⟩ | ⟨hv, hp, _⟩ | ⟨_, hp, hv | ⟨i, v, hv⟩⟩
  · exact exec_keeps_inv hs he
  · exact inv_reset.of_regs_eq hv hp
  · exact hs.of_regs_eq hv hp
  · exact (hs.setV i fun _ h0 => absurd rfl h0).of_regs_eq hv hp

/-- Settles O27: after reset no register holds a value. -/
theorem resetMeetsRegisterInvariants : Obligations.ResetMeetsRegisterInvariants := inv_reset

theorem completedWith_none_retire (s : State) : CompletedWith none (s.retire none) := ⟨rfl, rfl, rfl, rfl⟩

/-- A command that changes FLAG is a comparison and completed with OK (R29, R217). -/
theorem exec_flag_ne {i : Instr} {s t : State} (h : exec i s = .next t) (hf : t.flag ≠ s.flag) :
    WritesFlag i ∧ CompletedWith none t := by
  cases exec_answer h with
  | flag b hi => exact ⟨hi, completedWith_none_retire _⟩
  | raised | value | signature | point => exact absurd rfl hf

/-- A command that changes a point register is one of the seven of R26 and completed with OK. -/
theorem exec_pregs_ne {i : Instr} {s t : State} (h : exec i s = .next t) (hp : t.pregs ≠ s.pregs) :
    WritesPoint i ∧ CompletedWith none t := by
  cases exec_answer h with
  | point d hi _ => exact ⟨hi, completedWith_none_retire _⟩
  | raised | value | signature | flag => exact absurd rfl hp

/-- Settles O29: a host input that changes FLAG is a reset, and a command that changes it is a comparison. -/
theorem flagWrittenOnlyByComparisons : Obligations.FlagWrittenOnlyByComparisons := by
  intro s t h hf
  rcases step_regs_cases h with ⟨l, i, hl, hd, he⟩ | hreset | ⟨hkept, _⟩
  · obtain ⟨hi, hc⟩ := exec_flag_ne he hf
    exact .inl ⟨l, i, hl, hd, hi, he, hc⟩
  · exact .inr hreset
  · exact absurd hkept hf

/-- Settles O30: a host input that changes a point register is a reset, and a command that changes one is of the seven. -/
theorem pointRegistersWrittenOnlyByPointCommands : Obligations.PointRegistersWrittenOnlyByPointCommands := by
  intro s t h hp
  rcases step_regs_cases h with ⟨l, i, hl, hd, he⟩ | hreset | ⟨_, hkept, _⟩
  · obtain ⟨hi, hc⟩ := exec_pregs_ne he hp
    exact .inl ⟨l, i, hl, hd, hi, he, hc⟩
  · exact .inr hreset
  · exact absurd hkept hp

end Sys2Proof.Machine
end

section
/-! SUPPORT. The accesses of the host to single words of the window (10_state.md R30 to R36): the words STATUS, CTRL, VVALID
and PVALID bit by bit, and what a write of a control word leaves. -/

namespace Sys2Proof.Machine

/-! ### Accesses to a word of the window -/

theorem sameCore_refl (s : State) : SameCore s s := ⟨rfl, rfl, rfl, rfl, rfl, rfl, rfl, rfl, rfl, rfl, rfl, rfl⟩

theorem locate_ident : locate 0x000#12 = .ident := by decide
theorem locate_ctrl : locate 0x004#12 = .ctrl := by decide
theorem locate_status : locate 0x008#12 = .status := by decide
theorem locate_cmd : locate 0x00C#12 = .cmd := by decide
theorem locate_vvalid : locate 0x010#12 = .vvalid := by decide
theorem locate_pvalid : locate 0x014#12 = .pvalid := by decide

theorem busWrite_word (s : State) {off : BitVec 12} {l : Loc} (hl : locate off = l) (h : off.toNat % 4 = 0) (d : Word) :
    s.busWrite off 4 d = { s.writeLoc l d with resp := some .done } := by
  simp [State.busWrite, legalAccess, h, hl]

/-- Outside the value and point windows a read shows the state, busy or not (R72(b)). -/
theorem readData_control (s : State) {l : Loc} (hv : l.inValueWindow = false) (hp : l.inPointWindow = false) :
    s.readData l = s.locValue l := by
  simp [State.readData, State.readsFree, hv, hp]

theorem resp_busRead_control (s : State) {off : BitVec 12} {l : Loc} (hl : locate off = l) (h : off.toNat % 4 = 0)
    (hv : l.inValueWindow = false) (hp : l.inPointWindow = false) :
    (s.busRead off 4).resp = some (.data (s.locValue l)) := by
  simp [State.busRead, legalAccess, h, hl, readData_control s hv hp]

/-- R69: a read of any width at any offset changes nothing of the core. -/
theorem sameCore_busRead (s : State) (off : BitVec 12) (size : Nat) : SameCore s (s.busRead off size) := by
  unfold State.busRead
  split
  · rcases afterRead_cases s (locate off) with ⟨_, e⟩ | ⟨_, e⟩ <;> rw [e] <;> exact sameCore_refl s
  · exact sameCore_refl s

theorem busWrite_cmd_idle {s : State} (hb : s.busy = false) (w : Word) :
    s.busWrite 0x00C#12 4 w = { s.accept w with resp := some .done } := by
  rw [busWrite_word s locate_cmd (by decide)]
  simp [State.writeLoc, State.writeCmd, hb]

theorem busWrite_cmd_busy {s : State} (hb : s.busy = true) (w : Word) :
    s.busWrite 0x00C#12 4 w = { s.dropWrite with resp := some .done } := by
  rw [busWrite_word s locate_cmd (by decide)]
  simp [State.writeLoc, State.writeCmd, hb]

theorem busWrite_ctrl {d : Word} (hd : d.getLsbD 31 = false) (s : State) :
    s.busWrite 0x004#12 4 d = { s with ie := d.getLsbD 0, nmode := d.getLsbD 1, resp := some .done } := by
  rw [busWrite_word s locate_ctrl (by decide), State.writeLoc, State.writeCtrl, hd]
  rfl

/-- A step serves the first pending input when the core is idle or its command is not yet due; only the latency left,
which is the model's own, may change before it. -/
theorem step_input {s : State} {op : HostOp} {rest : List HostOp} (hd : s.busy = false ∨ s.delay ≠ 0)
    (hh : s.host = op :: rest) : ∃ n, step s = .next (({ s with delay := n } : State).serve op rest) := by
  cases hb : s.busy with
  | false => exact ⟨s.delay, step_serve (by simpa [State.busy] using hb) hh⟩
  | true =>
    obtain ⟨l, hl⟩ := (busy_iff_latch s).mp hb
    exact ⟨s.delay - 1, step_serveBusy hl hh (hd.resolve_left (by simp [hb]))⟩

/-! ### The bits of CTRL and STATUS (R30, R31) -/

theorem ctrlWord_getLsbD (s : State) (b : Nat) :
    s.ctrlWord.getLsbD b = if b = 0 then s.ie else if b = 1 then s.nmode else false := by
  rw [State.ctrlWord, BitVec.getLsbD_append, BitVec.getLsbD_append]
  rcases b with _ | _ | b <;> simp

/-- The bits of CTRL that a write keeps: IE and NMODE (R30). -/
theorem getLsbD_and_three (d : Word) (b : Nat) :
    (d &&& 0x00000003#32).getLsbD b = if b = 0 then d.getLsbD 0 else if b = 1 then d.getLsbD 1 else false := by
  rw [BitVec.getLsbD_and]
  rcases b with _ | _ | b
  · simp
  · simp
  · have hmask : (0x00000003#32).getLsbD (b + 2) = false := by
      rw [show (0x00000003#32) = BitVec.ofNat 32 (2 ^ 2 - 1) from rfl, BitVec.getLsbD_ofNat, Nat.testBit_two_pow_sub_one]
      simp
    simp [hmask]

theorem statusWord_getLsbD (s : State) (b : Nat) :
    s.statusWord.getLsbD b =
      if b = 0 then s.busy else if b = 1 then s.done else if b = 2 then s.flag else if b = 3 then s.nonceValid
      else if b = 4 then s.busyErr else decide (8 ≤ b) && s.errCode.getLsbD (b - 8) := by
  rw [State.statusWord]
  iterate 7 rw [BitVec.getLsbD_append]
  match b with
  | 0 | 1 | 2 | 3 | 4 => simp
  | b + 5 =>
    by_cases hlow : b < 3
    · simp [hlow]
    · by_cases hhigh : b - 3 < 8
      · simp [hlow, hhigh, Nat.not_lt.mp hlow]
      · simp [hhigh, BitVec.getLsbD_of_ge s.errCode _ (Nat.not_lt.mp hhigh)]

theorem statusWord_getLsbD_of_five_le (s : State) {b : Nat} (h : 5 ≤ b) :
    s.statusWord.getLsbD b = (decide (8 ≤ b) && s.errCode.getLsbD (b - 8)) := by
  rw [statusWord_getLsbD, if_neg (by omega), if_neg (by omega), if_neg (by omega), if_neg (by omega), if_neg (by omega)]

theorem statusWord_reserved_low (s : State) : s.statusWord.extractLsb' 5 3 = 0#3 := by
  refine BitVec.eq_of_getLsbD_eq fun b hb => ?_
  have h8 : ¬ 8 ≤ 5 + b := by omega
  rw [BitVec.getLsbD_extractLsb', statusWord_getLsbD_of_five_le s (Nat.le_add_right 5 b)]
  simp [h8]

theorem statusWord_err (s : State) : s.statusWord.extractLsb' 8 8 = s.errCode := by
  refine BitVec.eq_of_getLsbD_eq fun b hb => ?_
  rw [BitVec.getLsbD_extractLsb', statusWord_getLsbD_of_five_le s (by omega)]
  simp [hb]

theorem statusWord_reserved_high (s : State) : s.statusWord.extractLsb' 16 16 = 0#16 := by
  refine BitVec.eq_of_getLsbD_eq fun b _ => ?_
  rw [BitVec.getLsbD_extractLsb', statusWord_getLsbD_of_five_le s (by omega), BitVec.getLsbD_of_ge s.errCode _ (by omega)]
  simp

theorem ctrlWord_reserved (s : State) : s.ctrlWord.extractLsb' 2 30 = 0#30 := by
  refine BitVec.eq_of_getLsbD_eq fun b _ => ?_
  rw [BitVec.getLsbD_extractLsb', ctrlWord_getLsbD, if_neg (by omega), if_neg (by omega)]
  simp

/-- ERR reads the code R242 gives, and 0x00 for none. -/
theorem errCode_of_err {s : State} {e : Option Err} (h : s.err = e) : s.errCode = (e.map Err.code).getD 0x00#8 := by
  rw [State.errCode, h]
  cases e <;> rfl

/-! ### The validity views (R34, R35) -/

/-- The word whose bit `i` is `v i`, as VVALID and PVALID are made. -/
def validBits {n : Nat} (v : Fin n → Bool) : Word :=
  ((List.finRange n).map (fun i => (BitVec.ofBool (v i)).setWidth 32 <<< i.val)).foldl (· ||| ·) 0#32

theorem vvalidWord_eq (s : State) : s.vvalidWord = validBits fun i => (s.vreg i).valid := rfl
theorem pvalidWord_eq (s : State) : s.pvalidWord = validBits fun j => (s.preg j).valid := rfl

theorem getLsbD_foldl_or (l : List Word) (w : Word) (b : Nat) :
    (l.foldl (· ||| ·) w).getLsbD b = (w.getLsbD b || l.any (·.getLsbD b)) := by
  induction l generalizing w with
  | nil => simp
  | cons x l ih => simp [ih, Bool.or_assoc]

theorem getLsbD_shiftLeft_ofBool (v : Bool) (i b : Nat) :
    ((BitVec.ofBool v).setWidth 32 <<< i).getLsbD b = true ↔ b < 32 ∧ i = b ∧ v = true := by
  cases v
  · simp
  · simp
    omega

theorem validBits_getLsbD_iff {n : Nat} (v : Fin n → Bool) (b : Nat) :
    (validBits v).getLsbD b = true ↔ b < 32 ∧ ∃ i : Fin n, i.val = b ∧ v i = true := by
  simp only [validBits, getLsbD_foldl_or, BitVec.getLsbD_zero, Bool.false_or, List.any_map, List.any_eq_true,
    List.mem_finRange, true_and, Function.comp_apply, getLsbD_shiftLeft_ofBool, exists_and_left]

theorem validBits_getLsbD_val {n : Nat} (hn : n ≤ 32) (v : Fin n → Bool) (i : Fin n) : (validBits v).getLsbD i.val = v i := by
  rw [Bool.eq_iff_iff, validBits_getLsbD_iff]
  constructor
  · rintro ⟨_, j, hj, hv⟩
    exact Fin.ext hj ▸ hv
  · exact fun hv => ⟨by omega, i, rfl, hv⟩

theorem validBits_getLsbD_of_le {n b : Nat} (v : Fin n → Bool) (hb : n ≤ b) : (validBits v).getLsbD b = false := by
  rw [Bool.eq_false_iff, Ne, validBits_getLsbD_iff]
  rintro ⟨_, i, hi, _⟩
  omega

/-! ### The obligations -/

/-- Settles O7: CMD accepts a word while idle, drops it while busy, and reads as LASTCMD. -/
theorem cmdRegisterIssuesCommands : Obligations.CmdRegisterIssuesCommands := by
  refine ⟨fun s w rest hb hh => ?_, fun s w rest hb hd hh => ?_, fun s rest hd hh => ?_, rfl⟩
  · obtain ⟨n, h⟩ := step_input (.inl hb) hh
    have hw := busWrite_cmd_idle (s := { s with delay := n, host := rest }) hb w
    exact ⟨_, h.trans (congrArg _ hw), rfl, rfl, rfl, rfl, rfl, rfl, rfl, rfl, rfl, rfl, rfl, rfl, rfl, rfl⟩
  · obtain ⟨n, h⟩ := step_input (.inr hd) hh
    have hw := busWrite_cmd_busy (s := { s with delay := n, host := rest }) hb w
    exact ⟨_, h.trans (congrArg _ hw), sameCore_refl _⟩
  · obtain ⟨n, h⟩ := step_input hd hh
    exact ⟨_, h, resp_busRead_control _ locate_cmd (by decide) rfl rfl, sameCore_busRead _ _ _⟩

/-- Settles O14: the registers by the lemmas of their reads, the rest by evaluation. -/
theorem resetStateValues : Obligations.ResetStateValues :=
  ⟨vreg_reset, preg_reset, rfl, rfl, rfl, rfl, rfl, rfl, rfl, rfl, rfl, rfl, rfl, congrArg State.reset.locValue locate_ident⟩

/-- Settles O16: CTRL reads back the two bits a write keeps. -/
theorem controlAndStatusWrites : Obligations.ControlAndStatusWrites := by
  refine ⟨fun s d hd => ?_, fun s d => ?_⟩
  · rw [busWrite_ctrl hd]
    refine ⟨sameCore_refl _, BitVec.eq_of_getLsbD_eq fun b _ => ?_⟩
    rw [ctrlWord_getLsbD, getLsbD_and_three]
  · rw [busWrite_word s locate_status (by decide)]
    exact sameCore_refl _

/-- Settles O17, from the bits of the two words and the table of codes. -/
theorem statusAndControlLayout : Obligations.StatusAndControlLayout := by
  intro s
  refine ⟨statusWord_getLsbD s 0, statusWord_getLsbD s 1, statusWord_getLsbD s 2, statusWord_getLsbD s 3,
    statusWord_getLsbD s 4, statusWord_reserved_low s, statusWord_err s, statusWord_reserved_high s,
    fun row hrow he => ?_, ctrlWord_getLsbD s 0, ctrlWord_getLsbD s 1, ctrlWord_reserved s,
    resp_busRead_control s locate_status (by decide) rfl rfl, resp_busRead_control s locate_ctrl (by decide) rfl rfl,
    resp_busRead_control s locate_ident (by decide) rfl rfl⟩
  rw [errCode_of_err he]
  clear he
  revert row
  decide

/-- Settles O18: both views are the word whose bit `i` is the valid bit of register `i`. -/
theorem validityViews : Obligations.ValidityViews := by
  refine fun s => ⟨⟨s.vvalidWord, ?_⟩, ⟨s.pvalidWord, ?_⟩, fun d => ⟨?_, ?_⟩⟩
  · exact ⟨resp_busRead_control s locate_vvalid (by decide) rfl rfl, validBits_getLsbD_val (by decide) _,
      fun _ => validBits_getLsbD_of_le _⟩
  · exact ⟨resp_busRead_control s locate_pvalid (by decide) rfl rfl, validBits_getLsbD_val (by decide) _,
      fun _ => validBits_getLsbD_of_le _⟩
  · rw [busWrite_word s locate_vvalid (by decide)]
    exact sameCore_refl s
  · rw [busWrite_word s locate_pvalid (by decide)]
    exact sameCore_refl s

/-- Settles O19, from the read of a word after the write of one. -/
theorem nonceWordWrites : Obligations.NonceWordWrites := by
  intro s j d
  have haligned : (BitVec.ofNat 12 (0x020 + 4 * j.val)).toNat % 4 = 0 := by revert j; decide
  refine ⟨fun hb => ⟨setWordAt s.nonce j d, ?_, wordAt_setWordAt_same _ j d, fun k hk => wordAt_setWordAt_ne _ d hk⟩, ?_⟩
  · rw [busWrite_word s (locate_nonce j) haligned, State.writeLoc, State.writeNonce, hb]
    exact sameCore_refl _
  · exact resp_busRead_control s (locate_nonce j) haligned rfl rfl

end Sys2Proof.Machine
end

section
/-! SUPPORT. The register window as the host sees it (20_memory.md R60 to R74): where the groups of offsets stand, what a
write of a word leaves unchanged, reads that repeat, and the load of a value register by eight word writes. -/

namespace Sys2Proof.Machine

/-! ### States that agree in everything the spec gives the core -/

/-- Only the model's own fields tell two such states apart. -/
theorem eq_of_sameCore {s t : State} (h : SameCore s t) :
    t = { s with delay := t.delay, draws := t.draws, host := t.host, resp := t.resp } := by
  cases s
  cases t
  obtain ⟨rfl, rfl, rfl, rfl, rfl, rfl, rfl, rfl, rfl, rfl, rfl, rfl⟩ := h
  rfl

theorem sameCore_trans {s t u : State} (hst : SameCore s t) (htu : SameCore t u) : SameCore s u := by
  rw [eq_of_sameCore htu]
  exact hst

theorem busy_of_sameCore {s t : State} (h : SameCore s t) : t.busy = s.busy := by
  rw [eq_of_sameCore h]
  rfl

/-- The window shows the core, never the model's own fields. -/
theorem locValue_of_sameCore {s t : State} (h : SameCore s t) (l : Loc) : t.locValue l = s.locValue l := by
  rw [eq_of_sameCore h]
  cases l <;> rfl

theorem setV_vreg_self (s : State) (i : VIdx) : s.setV i (s.vreg i) = s := by
  simp [State.setV, State.vreg]

/-- Writing a value register over what it was written before leaves only the last. -/
theorem sameCore_setV_setV {s t : State} {i : VIdx} {x : VReg} (h : SameCore (s.setV i x) t) (y : VReg) :
    SameCore (s.setV i y) (t.setV i y) := by
  obtain ⟨hv, hrest⟩ := h
  refine ⟨?_, hrest⟩
  rw [setV_vregs, setV_vregs, hv, setV_vregs, Vector.set_set]

/-! ### Where the groups of offsets stand (R61) -/

theorem toNat_ofNat_aligned {n : Nat} (h : n % 4 = 0) : (BitVec.ofNat 12 n).toNat % 4 = 0 := by
  rw [BitVec.toNat_ofNat]
  omega

theorem eq_ofNat_of_toNat_eq {off : BitVec 12} {n : Nat} (h : off.toNat = n) : off = BitVec.ofNat 12 n := by
  rw [← h, BitVec.ofNat_toNat, BitVec.setWidth_eq]

theorem locate_control {off : BitVec 12} (h : off.toNat < 0x100) : locate off = locateControl (off.toNat / 4) :=
  if_pos (by omega)

theorem locate_gap {off : BitVec 12} (h : 0x500 ≤ off.toNat) (h' : off.toNat < 0x800) : locate off = .reserved :=
  (if_neg (by omega)).trans ((if_neg (by omega)).trans (if_pos (by omega)))

theorem locate_point {off : BitVec 12} (h : 0x800 ≤ off.toNat) :
    locate off = locatePoint (off.toNat / 4 - 0x800 / 4) :=
  (if_neg (by omega)).trans ((if_neg (by omega)).trans (if_neg (by omega)))

theorem locateControl_of_six_le {w : Nat} (h : 6 ≤ w) :
    locateControl w = if 8 ≤ w ∧ w < 16 then .nonceWord (Fin.ofNat 8 (w - 8)) else .reserved := by
  obtain ⟨k, rfl⟩ := Nat.exists_eq_add_of_le' h
  rfl

/-- The words 0x020 to 0x03C are those of NONCE. -/
theorem locate_nonce_range {off : BitVec 12} (h : 0x020 ≤ off.toNat) (h' : off.toNat ≤ 0x03C) :
    ∃ j, locate off = .nonceWord j := by
  rw [locate_control (by omega), locateControl_of_six_le (by omega), if_pos (by omega)]
  exact ⟨_, rfl⟩

/-- The reserved offsets outside the point window (R68). -/
theorem locate_reserved {off : BitVec 12}
    (h : off.toNat = 0x018 ∨ off.toNat = 0x01C ∨ (0x040 ≤ off.toNat ∧ off.toNat ≤ 0x0FC)
      ∨ (0x500 ≤ off.toNat ∧ off.toNat ≤ 0x7FC)) : locate off = .reserved := by
  by_cases hlow : off.toNat < 0x100
  · rw [locate_control hlow, locateControl_of_six_le (by omega), if_neg (by omega)]
  · exact locate_gap (by omega) (by omega)

/-- The words that read as zero: the first group of eight but for the `inf` word, and all groups after `p` (R63). -/
theorem locatePoint_zero {w : Nat} (h : (w % 64 / 8 = 0 ∧ w % 8 ≠ 0) ∨ 6 ≤ w % 64 / 8) :
    ∃ j, locatePoint w = .ptZero j := by
  unfold locatePoint
  split
  case h_1 h0 => exact ⟨_, if_neg (by omega)⟩
  case h_7 => exact ⟨_, rfl⟩
  all_goals omega

/-- The words of the point window that read as zero (R63). -/
theorem locate_ptZero {off : BitVec 12} (hal : off.toNat % 4 = 0) (h : 0x800 ≤ off.toNat)
    (hz : (0x004 ≤ off.toNat % 0x100 ∧ off.toNat % 0x100 ≤ 0x01C) ∨ 0x0C0 ≤ off.toNat % 0x100) :
    ∃ j, locate off = .ptZero j := by
  rw [locate_point h]
  exact locatePoint_zero (by omega)

/-! ### Writes -/

/-- R72(a): what a busy core drops. -/
theorem writeLoc_dropped {s : State} (hb : s.busy = true) {l : Loc}
    (hl : l = .cmd ∨ (∃ j, l = .nonceWord j) ∨ l.inValueWindow = true) (d : Word) : s.writeLoc l d = s.dropWrite := by
  cases l with
  | cmd => exact if_pos hb
  | nonceWord j => exact if_pos hb
  | valWord i j => exact if_pos hb
  | modWord i j => exact if_pos hb
  | _ => simp [Loc.inValueWindow] at hl

/-- R66: a word of the point window ignores writes, busy or not. -/
theorem writeLoc_pointWindow (s : State) {l : Loc} (hl : l.inPointWindow = true) (d : Word) : s.writeLoc l d = s := by
  cases l with
  | ptInf | ptX | ptY | ptA | ptB | ptP | ptZero => rfl
  | _ => cases hl

theorem sameCore_busWrite {s t : State} {off : BitVec 12} {d : Word} (hal : off.toNat % 4 = 0)
    (h : SameCore t (s.writeLoc (locate off) d)) :
    SameCore t (s.busWrite off 4 d) ∧ (s.busWrite off 4 d).resp = some .done := by
  rw [busWrite_word s rfl hal d]
  exact ⟨h, rfl⟩

/-- A write that the word at its offset ignores. -/
theorem sameCore_busWrite_ignored {s : State} {off : BitVec 12} {d : Word} (hal : off.toNat % 4 = 0)
    (h : s.writeLoc (locate off) d = s) : SameCore s (s.busWrite off 4 d) ∧ (s.busWrite off 4 d).resp = some .done :=
  sameCore_busWrite hal (h.symm ▸ sameCore_refl s)

/-- A write that a busy core drops. -/
theorem sameCore_busWrite_dropped {s : State} (hb : s.busy = true) {off : BitVec 12} (hal : off.toNat % 4 = 0)
    (hl : locate off = .cmd ∨ (∃ j, locate off = .nonceWord j) ∨ (locate off).inValueWindow = true) (d : Word) :
    SameCore { s with busyErr := true } (s.busWrite off 4 d) ∧ (s.busWrite off 4 d).resp = some .done :=
  sameCore_busWrite hal (writeLoc_dropped hb hl d ▸ sameCore_refl _)

/-! ### Reads -/

theorem resp_busRead (s : State) {off : BitVec 12} {l : Loc} (hl : locate off = l) (hal : off.toNat % 4 = 0) :
    (s.busRead off 4).resp = some (.data (s.readData l)) := by
  simp [State.busRead, legalAccess, hal, hl]

theorem resp_busRead_idle {s : State} (hb : s.busy = false) {off : BitVec 12} {l : Loc} (hl : locate off = l)
    (hal : off.toNat % 4 = 0) : (s.busRead off 4).resp = some (.data (s.locValue l)) := by
  rw [resp_busRead s hl hal, readData_idle hb]

/-- R72(b): which offsets read no free value. -/
theorem readsFree_locate_eq_false {s : State} {off : BitVec 12}
    (h : s.busy = false ∨ off.toNat < 0x100 ∨ (0x500 ≤ off.toNat ∧ off.toNat < 0x800)) :
    s.readsFree (locate off) = false := by
  rw [State.readsFree, inValueWindow_iff, inPointWindow_iff]
  rcases h with hb | hlow | ⟨hge, hlt⟩
  · simp [hb]
  · have h1 : ¬ 0x100 ≤ off.toNat := by omega
    have h2 : ¬ 0x800 ≤ off.toNat := by omega
    simp [h1, h2]
  · have h1 : ¬ off.toNat < 0x500 := by omega
    have h2 : ¬ 0x800 ≤ off.toNat := by omega
    simp [h1, h2]

/-- A read that takes no free value answers the same in two states that agree in the core (R69). -/
theorem resp_busRead_of_sameCore {s t : State} (h : SameCore s t) {off : BitVec 12}
    (hfree : s.readsFree (locate off) = false) (size : Nat) : (t.busRead off size).resp = (s.busRead off size).resp := by
  have hfree' : t.readsFree (locate off) = false := by rw [State.readsFree, busy_of_sameCore h]; exact hfree
  unfold State.busRead
  split
  · simp [State.readData, hfree, hfree', locValue_of_sameCore h]
  · rfl

/-- R69: any number of reads changes nothing of the core. -/
theorem sameCore_foldl_busRead (others : List (BitVec 12 × Nat)) (s : State) :
    SameCore s (others.foldl (fun u r => u.busRead r.1 r.2) s) := by
  induction others generalizing s with
  | nil => exact sameCore_refl s
  | cons r others ih => exact sameCore_trans (sameCore_busRead s r.1 r.2) (ih _)

/-! ### Loading a value register (R65) -/

/-- The register after a write of one `val` word: an integer with that word replaced (R65). -/
def VReg.loadWord (x : VReg) (j : Fin 8) (d : Word) : VReg :=
  { val := setWordAt x.val j d, mod := 0#256, valid := true }

theorem val_offset_aligned (i : VIdx) (j : Fin 8) : (BitVec.ofNat 12 (0x100 + 0x40 * i.val + 4 * j.val)).toNat % 4 = 0 :=
  toNat_ofNat_aligned (by omega)

theorem busWrite_val_idle {s : State} (hb : s.busy = false) (i : VIdx) (j : Fin 8) (d : Word) :
    s.busWrite (BitVec.ofNat 12 (0x100 + 0x40 * i.val + 4 * j.val)) 4 d
      = { s.setV i ((s.vreg i).loadWord j d) with resp := some .done } := by
  rw [busWrite_word s (locate_val i j) (val_offset_aligned i j), State.writeLoc, State.writeVal, hb]
  rfl

/-- A further word write into a register that holds `x`, wherever the core idles. -/
theorem sameCore_busWrite_val {s t : State} (hb : s.busy = false) {i : VIdx} {x : VReg} (h : SameCore (s.setV i x) t)
    (j : Fin 8) (d : Word) :
    SameCore (s.setV i (x.loadWord j d)) (t.busWrite (BitVec.ofNat 12 (0x100 + 0x40 * i.val + 4 * j.val)) 4 d) := by
  have hbt : t.busy = false := (busy_of_sameCore h).trans hb
  have hx : t.vreg i = x := by rw [eq_of_sameCore h]; exact vreg_setV_same s i x
  rw [busWrite_val_idle hbt, hx]
  exact sameCore_setV_setV h _

/-- After the word writes of a list of words of `n`, the register holds those words of `n`, as an integer. -/
theorem sameCore_foldl_busWrite_val {s : State} (hb : s.busy = false) (i : VIdx) (n : W256) (js : List (Fin 8)) :
    ∃ x : VReg,
      SameCore (s.setV i x) (js.foldl
        (fun u j => u.busWrite (BitVec.ofNat 12 (0x100 + 0x40 * i.val + 4 * j.val)) 4 (n.extractLsb' (32 * j.val) 32)) s)
      ∧ (∀ k ∈ js, wordAt x.val k = wordAt n k) ∧ (js ≠ [] → x.mod = 0#256 ∧ x.valid = true) := by
  induction js using List.reverseRecOn with
  | nil => exact ⟨s.vreg i, (setV_vreg_self s i).symm ▸ sameCore_refl s, by simp, by simp⟩
  | append_singleton js j ih =>
    obtain ⟨x, hx, hwords, -⟩ := ih
    refine ⟨x.loadWord j (wordAt n j), ?_, fun k hk => ?_, fun _ => ⟨rfl, rfl⟩⟩
    · rw [List.foldl_concat]
      exact sameCore_busWrite_val hb hx j _
    · by_cases hkj : k = j
      · rw [hkj]
        exact wordAt_setWordAt_same _ j _
      · have hmem : k ∈ js := by simpa [hkj] using hk
        exact (wordAt_setWordAt_ne _ _ hkj).trans (hwords k hmem)

/-! ### A command in progress -/

/-- What the command in progress reads, and what only its completion may write, is unchanged (R72, R74). -/
abbrev OperandsKept (s t : State) : Prop :=
  t.vregs = s.vregs ∧ t.pregs = s.pregs ∧ t.nonce = s.nonce ∧ t.nonceValid = s.nonceValid ∧ t.latch = s.latch
    ∧ t.flag = s.flag ∧ t.err = s.err ∧ t.lastCmd = s.lastCmd

/-- A host input that leaves a command in progress leaves its operands. -/
theorem serve_keeps_operands {s : State} {l : Latch} {op : HostOp} {rest : List HostOp} (hl : s.latch = some l)
    (hb : (s.serve op rest).busy = true) : OperandsKept s (s.serve op rest) := by
  obtain ⟨u, v, hsu, -, hvt, -, hcase⟩ := serve_cases s op rest
  rw [eq_of_sameCore hvt] at hb ⊢
  have hul : u.latch = some l := by rw [eq_of_sameCore hsu]; exact hl
  have hnone : u.latch ≠ none := by simp [hul]
  obtain ⟨hv, hp, -, -, -, hf, hnv, -, he, hc, hn, hlt⟩ := hsu
  have kept : OperandsKept s u := ⟨hv, hp, hn, hnv, hlt, hf, he, hc⟩
  rcases hcase with rfl | rfl | ⟨d, rfl⟩ | ⟨d, rfl⟩ | ⟨d, haccept, _⟩ | rfl | ⟨j, d, hidle, _⟩ | ⟨i, j, d, hidle, _⟩
  · exact kept
  · cases hb
  · exact kept
  · exact kept
  · exact absurd haccept hnone
  · exact kept
  · exact absurd hidle hnone
  · exact absurd hidle hnone

/-! ### The obligations -/

/-- Settles O6, from the equations of `step`. -/
theorem stepRunsTheDecodedCommand : Obligations.StepRunsTheDecodedCommand := by
  refine ⟨fun s l i hl hi hdue => ?_, fun s l op rest hl hh hd => step_serveBusy hl hh hd,
    fun s op rest hl hh => step_serve hl hh, fun s hl hh => step_idle hl hh,
    fun s rest => ⟨fun _ _ => rfl, fun _ _ _ => rfl, rfl, rfl, sameCore_refl _⟩⟩
  have hdue' : s.completionDue = true := by simpa [State.completionDue] using hdue
  rw [step_complete hl hdue', completeLatched_ok hi]

/-- Settles O8: each of the three groups of offsets is one that a busy core drops. -/
theorem writesWhileBusyAreDropped : Obligations.WritesWhileBusyAreDropped := by
  intro s off d hb hal hoff
  refine sameCore_busWrite_dropped hb hal ?_ d
  rcases hoff with hcmd | ⟨hge, hle⟩ | ⟨hge, hle⟩
  · exact .inl (eq_ofNat_of_toNat_eq hcmd ▸ locate_cmd)
  · exact .inr (.inl (locate_nonce_range hge hle))
  · have hlt : off.toNat < 0x500 := by omega
    exact .inr (.inr (by simp [inValueWindow_iff, hge, hlt]))

/-- Settles O9, word by word of the read-only groups. -/
theorem readOnlyWordsIgnoreWrites : Obligations.ReadOnlyWordsIgnoreWrites := by
  refine fun s off d hal => ⟨fun hoff => ?_, fun ⟨i, j, hoff⟩ => ?_, fun hoff => ?_⟩
  · refine sameCore_busWrite_ignored hal ?_
    rcases hoff with h | h | h | h
    · rw [eq_ofNat_of_toNat_eq h, locate_ident, State.writeLoc]
    · rw [eq_ofNat_of_toNat_eq h, locate_vvalid, State.writeLoc]
    · rw [eq_ofNat_of_toNat_eq h, locate_pvalid, State.writeLoc]
    · exact writeLoc_pointWindow s (by simp [inPointWindow_iff, h]) d
  · have hloc : locate off = .modWord i j := eq_ofNat_of_toNat_eq hoff ▸ locate_mod i j
    refine sameCore_busWrite hal ?_
    rw [hloc]
    exact sameCore_refl _
  · refine sameCore_busWrite hal ?_
    rw [eq_ofNat_of_toNat_eq hoff, locate_status]
    exact sameCore_refl _

/-- Settles O10: reads keep the core, and a read that takes no free value answers from the core alone. -/
theorem readsHaveNoSideEffects : Obligations.ReadsHaveNoSideEffects := by
  refine fun s off size => ⟨sameCore_busRead s off size, fun hoff others => ?_⟩
  exact resp_busRead_of_sameCore (sameCore_trans (sameCore_busRead s off size) (sameCore_foldl_busRead others _))
    (readsFree_locate_eq_false hoff) size

/-- Settles O11: a step that starts and ends busy serves a host input, since a completion ends BUSY. -/
theorem operandsFrozenWhileBusy : Obligations.OperandsFrozenWhileBusy := by
  intro s t h hs ht
  obtain ⟨l, hl⟩ := (busy_iff_latch s).mp hs
  rcases step_cases h with ⟨l', _, _, hc⟩ | ⟨_, op, rest, _, _, _, rfl⟩ | ⟨_, _, hn, _⟩ | ⟨hn, _⟩
  · obtain ⟨t', ht', hidle, _⟩ := completeLatched_completes l' s
    cases hc.symm.trans ht'
    exact absurd ht (by simp [hidle])
  · exact serve_keeps_operands (s := { s with delay := s.delay - 1 }) hl ht
  · exact absurd (hl.symm.trans hn) (by simp)
  · exact absurd (hl.symm.trans hn) (by simp)

/-- Settles O20, from the read of a word after the write of one. -/
theorem hostWriteMakesInteger : Obligations.HostWriteMakesInteger := by
  refine fun s i j d => ⟨fun hb => ⟨(s.vreg i).loadWord j d, ?_, rfl, rfl, wordAt_setWordAt_same _ j d,
    fun k hk => wordAt_setWordAt_ne _ d hk⟩, fun hb => ?_⟩
  · rw [busWrite_val_idle hb]
    exact sameCore_refl _
  · exact (sameCore_busWrite_dropped hb (val_offset_aligned i j) (.inr (.inr (by rw [locate_val]; rfl))) d).1

/-- Settles O21: the eight words are all of the number. -/
theorem eightWordWritesLoadAValue : Obligations.EightWordWritesLoadAValue := by
  intro s i n hb
  obtain ⟨⟨val, mod, valid⟩, hx, hwords, hint⟩ := sameCore_foldl_busWrite_val hb i n (List.finRange 8)
  obtain ⟨rfl, rfl⟩ := hint (by decide)
  obtain rfl : val = n := eq_of_wordAt_eq fun j => hwords j (List.mem_finRange j)
  exact hx

/-- Settles O22, by the map of the window. -/
theorem windowShowsTheRegisters : Obligations.WindowShowsTheRegisters := by
  refine fun s hb => ⟨fun i j => ⟨?_, ?_⟩, fun j => ⟨?_, fun k => ⟨?_, ?_, ?_, ?_, ?_⟩⟩⟩
  · exact resp_busRead_idle hb (locate_val i j) (toNat_ofNat_aligned (by omega))
  · exact resp_busRead_idle hb (locate_mod i j) (toNat_ofNat_aligned (by omega))
  · rw [resp_busRead_idle hb (locate_ptInf j) (toNat_ofNat_aligned (by omega)), State.locValue]
    cases (s.preg j).pt.inf <;> rfl
  · exact resp_busRead_idle hb (locate_ptX j k) (toNat_ofNat_aligned (by omega))
  · exact resp_busRead_idle hb (locate_ptY j k) (toNat_ofNat_aligned (by omega))
  · exact resp_busRead_idle hb (locate_ptA j k) (toNat_ofNat_aligned (by omega))
  · exact resp_busRead_idle hb (locate_ptB j k) (toNat_ofNat_aligned (by omega))
  · exact resp_busRead_idle hb (locate_ptP j k) (toNat_ofNat_aligned (by omega))

/-- Settles O23, by the map of the window. -/
theorem reservedOffsetsReadZero : Obligations.ReservedOffsetsReadZero := by
  refine fun s off d hal => ⟨fun hoff => ?_, fun ⟨hge, hle⟩ => ?_, fun ⟨hge, hzero⟩ => ?_⟩
  · have hloc := locate_reserved hoff
    exact ⟨resp_busRead_control s hloc hal rfl rfl, (sameCore_busWrite_ignored hal (by rw [hloc]; rfl)).1⟩
  · obtain ⟨j, hloc⟩ := locate_nonce_range hge hle
    exact resp_busRead_control s hloc hal rfl rfl
  · obtain ⟨j, hloc⟩ := locate_ptZero hal hge hzero
    exact ⟨fun hb => resp_busRead_idle hb hloc hal, (sameCore_busWrite_ignored hal (by rw [hloc]; rfl)).1⟩

/-- Settles O24: the two conditions are those of a legal access. -/
theorem undefinedAccessesGetBusErrors : Obligations.UndefinedAccessesGetBusErrors := by
  refine fun s off size d => ⟨fun hbad => ?_, fun hsize hal => ?_⟩
  · have hillegal : legalAccess off size = false := by
      rw [legalAccess, Bool.and_eq_false_iff, beq_eq_false_iff_ne, beq_eq_false_iff_ne]
      exact hbad
    constructor
    · rw [State.busRead, hillegal]
      rfl
    · rw [State.busWrite, hillegal]
      rfl
  · subst hsize
    exact ⟨⟨_, resp_busRead s rfl hal⟩, by rw [busWrite_word s rfl hal d]⟩

end Sys2Proof.Machine
end

section
/-! SUPPORT. The encoding of commands as a whole (30_encoding.md R90 to R104): the checks of R100 field by field, the round
trips between words and commands, the rows a word selects by mask and match (R99), the illegal words (R96), and the operand
checks every command makes first (R102, R103). -/

namespace Sys2Proof.Machine

/-! ### One field and its role (R92, R93, R100) -/

/-- A field as a command keeps it: a V index whole, a P index without bit 3, an unused field as 0. -/
def keptField (r : Role) (f : BitVec 4) : BitVec 4 :=
  match r with
  | .unused => 0#4
  | .pd => pField (pIdx f)
  | .ps => pField (pIdx f)
  | .vd => vField (vIdx f)
  | .vs => vField (vIdx f)
  | .fs => vField (vIdx f)

/-- What a command keeps of a field passes the check of the field's role. -/
@[simp] theorem fieldError_keptField (r : Role) (f : BitVec 4) : r.fieldError (keptField r f) = none := by
  cases r <;> simp [Role.fieldError, keptField, -BitVec.getLsbD_eq_getElem]

/-- A field that passes the check of its role is kept whole: no bit is dropped. -/
theorem keptField_of_fieldError_none {r : Role} {f : BitVec 4} (h : r.fieldError f = none) : keptField r f = f := by
  cases r with
  | unused =>
    have hzero : f = 0#4 := by simpa [Role.fieldError] using h
    exact hzero.symm
  | pd => exact pField_pIdx (by simpa [Role.fieldError] using h)
  | ps => exact pField_pIdx (by simpa [Role.fieldError] using h)
  | vd => exact vField_vIdx f
  | vs => exact vField_vIdx f
  | fs => exact vField_vIdx f

/-- The check of a role is the test of the bits its mask has (R99). -/
theorem fieldError_eq_none_iff_mask (r : Role) (f : BitVec 4) : r.fieldError f = none ↔ f &&& r.maskBits = 0#4 := by
  revert f
  cases r <;> decide

/-- A check fails exactly under R96(c) or R96(d). -/
theorem fieldError_ne_none_iff (r : Role) (f : BitVec 4) :
    r.fieldError f ≠ none ↔ (r = .unused ∧ f ≠ 0#4) ∨ ((r = .pd ∨ r = .ps) ∧ f.getLsbD 3 = true) := by
  cases r <;> simp [Role.fieldError]

theorem maskBits_eq_ite (r : Role) :
    r.maskBits = if r = .unused then 0xF#4 else if r = .pd ∨ r = .ps then 0x8#4 else 0x0#4 := by
  cases r <;> rfl

/-! ### The fields of a command -/

/-- The command of a row keeps each field by its role (R92, R95). -/
theorem fields_build (o : Op) (f : Fields) :
    (o.build f).fields = ⟨keptField o.roles.1 f.fa, keptField o.roles.2.1 f.fb, keptField o.roles.2.2.1 f.fc,
      keptField o.roles.2.2.2.1 f.fd, keptField o.roles.2.2.2.2 f.fe⟩ := by
  cases o <;> rfl

/-- A command is built again from its own fields. -/
@[simp] theorem build_fields (i : Instr) : i.op.build i.fields = i := by
  cases i <;> simp [Instr.op, Instr.fields, Op.build]

theorem fieldsError_eq_none_iff (o : Op) (f : Fields) :
    o.fieldsError f = none ↔ o.roles.1.fieldError f.fa = none ∧ o.roles.2.1.fieldError f.fb = none
      ∧ o.roles.2.2.1.fieldError f.fc = none ∧ o.roles.2.2.2.1.fieldError f.fd = none
      ∧ o.roles.2.2.2.2.fieldError f.fe = none := by
  simp only [Op.fieldsError, Option.or_eq_none_iff]

/-- The fields of a command pass the checks of its row. -/
theorem fieldsError_fields (i : Instr) : i.op.fieldsError i.fields = none := by
  have hkept := fields_build i.op i.fields
  rw [build_fields] at hkept
  rw [hkept, fieldsError_eq_none_iff]
  simp

/-- Fields that pass the checks of a row are the fields of the command built from them. -/
theorem fields_build_of_checks {o : Op} {f : Fields} (h : o.fieldsError f = none) : (o.build f).fields = f := by
  obtain ⟨ha, hb, hc, hd, he⟩ := (fieldsError_eq_none_iff o f).mp h
  rw [fields_build, keptField_of_fieldError_none ha, keptField_of_fieldError_none hb, keptField_of_fieldError_none hc,
    keptField_of_fieldError_none hd, keptField_of_fieldError_none he]

/-- A command is well formed unless it is an ESIGN whose two destination fields agree (R96(e), R98). -/
theorem wellFormed_iff (i : Instr) : i.wellFormed = true ↔ ¬ (i.op = .esign ∧ i.fields.fa = i.fields.fb) := by
  cases i with
  | esign r s sec z =>
    have hinj : vField r = vField s ↔ r = s := ⟨vField_injective, congrArg vField⟩
    simp [Instr.wellFormed, Instr.op, Instr.fields, hinj]
  | _ => simp [Instr.wellFormed, Instr.op]

/-! ### The round trips -/

theorem decode_encode {i : Instr} (h : i.wellFormed = true) : decode (encode i) = .ok i := by
  have hdec := decode_of_checks (w := encode i) (o := i.op) (by simp [encode]) (by simp [encode])
    (by simp [encode, fieldsError_fields]) (by simpa [encode] using (wellFormed_iff i).mp h)
  simpa [encode] using hdec

theorem encode_of_decode {w : Word} {i : Instr} (h : decode w = .ok i) : encode i = w ∧ i.wellFormed = true := by
  obtain ⟨o, ho, hrsv, hchecks, hdest, rfl⟩ := decode_ok_cases h
  have hfields := fields_build_of_checks hchecks
  refine ⟨?_, (wellFormed_iff _).mpr (by simpa [hfields] using hdest)⟩
  rw [encode, op_build, hfields, ← opOf_eq_some ho, pack_fieldsOf w hrsv]

/-! ### The row a word selects (R96, R100) -/

/-- What R100 asks of a word for one row: its OPC, RSV = 0, the check of each field, and ESIGN's different destinations. -/
abbrev Selects (o : Op) (w : Word) : Prop :=
  opcBits w = o.opc ∧ rsvBits w = 0#4 ∧ (∀ n, (roleAt o n).fieldError (fieldAt w n) = none)
    ∧ (o = .esign → fieldAt w 0 ≠ fieldAt w 1)

theorem opc_injective {o o' : Op} (h : o.opc = o'.opc) : o = o' :=
  Option.some.inj (by rw [← opOf_opc o, h, opOf_opc])

theorem fieldsError_fieldsOf_eq_none_iff (o : Op) (w : Word) :
    o.fieldsError (fieldsOf w) = none ↔ ∀ n, (roleAt o n).fieldError (fieldAt w n) = none := by
  rw [fieldsError_eq_none_iff]
  simp [Fin.forall_fin_succ, roleAt, fieldAt, fieldsOf]

/-- A word decodes to a command of a row exactly when it selects the row. -/
theorem exists_decode_iff_selects (w : Word) (o : Op) : (∃ i, decode w = .ok i ∧ i.op = o) ↔ Selects o w := by
  constructor
  · rintro ⟨i, hi, rfl⟩
    obtain ⟨o, ho, hrsv, hchecks, hdest, rfl⟩ := decode_ok_cases hi
    rw [op_build]
    exact ⟨opOf_eq_some ho, hrsv, (fieldsError_fieldsOf_eq_none_iff o w).mp hchecks, fun he h => hdest ⟨he, h⟩⟩
  · rintro ⟨hopc, hrsv, hchecks, hdest⟩
    exact ⟨_, decode_of_checks (by rw [hopc, opOf_opc]) hrsv ((fieldsError_fieldsOf_eq_none_iff o w).mpr hchecks)
      (fun he => hdest he.1 he.2), op_build o _⟩

/-- A word that is illegal by R96 selects no row, and conversely. -/
theorem illegalWord_iff_selects_none (w : Word) : IllegalWord w ↔ ∀ o, ¬ Selects o w := by
  constructor
  · rintro (hopc | hrsv | ⟨o, hopc, hbad⟩) o' ⟨hopc', hrsv', hchecks, hdest⟩
    · exact hopc o' hopc'
    · exact hrsv hrsv'
    · obtain rfl : o = o' := opc_injective (hopc.symm.trans hopc')
      rcases hbad with ⟨n, hbad⟩ | ⟨n, hbad⟩ | ⟨he, hbad⟩
      · exact (fieldError_ne_none_iff _ _).mpr (.inl hbad) (hchecks n)
      · exact (fieldError_ne_none_iff _ _).mpr (.inr hbad) (hchecks n)
      · exact hdest he hbad
  · intro hnone
    by_contra hlegal
    simp only [IllegalWord, not_or, not_forall, not_not] at hlegal
    obtain ⟨⟨o, hopc⟩, hrsv, hrow⟩ := hlegal
    refine hnone o ⟨hopc, hrsv, fun n => ?_, fun he hsame => hrow ⟨o, hopc, .inr (.inr ⟨he, hsame⟩)⟩⟩
    by_contra hfail
    rcases (fieldError_ne_none_iff _ _).mp hfail with hbad | hbad
    · exact hrow ⟨o, hopc, .inl ⟨n, hbad⟩⟩
    · exact hrow ⟨o, hopc, .inr (.inl ⟨n, hbad⟩)⟩

/-- The decoder refuses exactly the words of R96. -/
theorem illegalWord_iff_decode_ne_ok (w : Word) : IllegalWord w ↔ ∀ i, decode w ≠ .ok i := by
  simp only [illegalWord_iff_selects_none, ← exists_decode_iff_selects]
  exact ⟨fun h i hi => h i.op ⟨i, hi, rfl⟩, fun h _ ⟨i, hi, _⟩ => h i hi⟩

/-! ### Masks and matches (R99) -/

/-- A word is its OPC, its five operand fields and its RSV (R91). -/
theorem word_eq_iff (u v : Word) :
    u = v ↔ opcBits u = opcBits v ∧ rsvBits u = rsvBits v ∧ ∀ n, fieldAt u n = fieldAt v n := by
  refine ⟨fun h => h ▸ ⟨rfl, rfl, fun _ => rfl⟩, fun ⟨hopc, hrsv, hfield⟩ => BitVec.eq_of_getLsbD_eq fun b hb => ?_⟩
  have bit_eq : ∀ {k l : Nat}, u.extractLsb' k l = v.extractLsb' k l → k ≤ b → b < k + l → u.getLsbD b = v.getLsbD b := by
    intro k l h hk hl
    have hlt : b - k < l := by omega
    simpa [BitVec.getLsbD_extractLsb', hlt, Nat.add_sub_cancel' hk] using congrArg (BitVec.getLsbD · (b - k)) h
  by_cases h8 : b < 8
  · exact bit_eq hopc (by omega) (by omega)
  by_cases h28 : 28 ≤ b
  · exact bit_eq hrsv (by omega) (by omega)
  · have hn : (b - 8) / 4 < 5 := by omega
    exact bit_eq (hfield ⟨(b - 8) / 4, hn⟩) (by simp only; omega) (by simp only; omega)

theorem opcBits_mask (o : Op) : opcBits o.mask = 0xFF#8 := by cases o <;> decide
theorem rsvBits_mask (o : Op) : rsvBits o.mask = 0xF#4 := by cases o <;> decide
theorem fieldAt_mask (o : Op) (n : Fin 5) : fieldAt o.mask n = (roleAt o n).maskBits := by
  revert n
  cases o <;> decide
theorem opcBits_matchBits (o : Op) : opcBits o.matchBits = o.opc := by cases o <;> decide
theorem rsvBits_matchBits (o : Op) : rsvBits o.matchBits = 0#4 := by cases o <;> decide
theorem fieldAt_matchBits (o : Op) (n : Fin 5) : fieldAt o.matchBits n = 0#4 := by
  revert n
  cases o <;> decide

/-- A word matches a row under its mask exactly when it passes R100's checks for the row, ESIGN's destinations apart. -/
theorem and_mask_eq_match_iff (w : Word) (o : Op) :
    w &&& o.mask = o.matchBits ↔
      opcBits w = o.opc ∧ rsvBits w = 0#4 ∧ ∀ n, (roleAt o n).fieldError (fieldAt w n) = none := by
  have hopc : opcBits (w &&& o.mask) = opcBits w &&& 0xFF#8 := by
    rw [← opcBits_mask o]
    exact BitVec.extractLsb'_and
  have hrsv : rsvBits (w &&& o.mask) = rsvBits w &&& 0xF#4 := by
    rw [← rsvBits_mask o]
    exact BitVec.extractLsb'_and
  have hfield : ∀ n, fieldAt (w &&& o.mask) n = fieldAt w n &&& (roleAt o n).maskBits := by
    intro n
    rw [← fieldAt_mask o n]
    exact BitVec.extractLsb'_and
  have hall8 : opcBits w &&& 0xFF#8 = opcBits w := BitVec.and_allOnes
  have hall4 : rsvBits w &&& 0xF#4 = rsvBits w := BitVec.and_allOnes
  simp only [word_eq_iff (w &&& o.mask), hopc, hrsv, hfield, hall8, hall4, opcBits_matchBits, rsvBits_matchBits,
    fieldAt_matchBits, fieldError_eq_none_iff_mask]

/-- No word matches two rows: their OPCs differ (R95). -/
theorem op_eq_of_and_mask_eq_match {w : Word} {o o' : Op} (h : w &&& o.mask = o.matchBits)
    (h' : w &&& o'.mask = o'.matchBits) : o = o' := by
  obtain ⟨hopc, _⟩ := (and_mask_eq_match_iff w o).mp h
  obtain ⟨hopc', _⟩ := (and_mask_eq_match_iff w o').mp h'
  exact opc_injective (hopc.symm.trans hopc')

/-! ### The errors before a command's own work (R96, R102, R103) -/

/-- A completion with a code changes nothing but the lifecycle bits (R241). -/
theorem raisedOnly_retire (e : Err) (s : State) : RaisedOnly e s (s.retire (some e)) :=
  ⟨⟨rfl, rfl, rfl, rfl⟩, fun _ _ => rfl, fun _ _ => rfl, rfl, ⟨rfl, rfl⟩, rfl, rfl, rfl, rfl, rfl, rfl, rfl, rfl⟩

/-- Every command reports what the checks of its sources find, before its own work (R244). -/
theorem exec_of_operandError {i : Instr} {s : State} {e : Err} (h : s.operandError (sourcesOf i) = some e) :
    exec i s = .next (s.retire (some e)) := by
  cases i with
  | esign r sg sec z =>
    have hsrc : s.operandError [.vs sec, .vs z] = some e := h
    simp [exec, execEsign, hsrc]
  | pldg d => exact run_of_error h (s.putP d (.ok pointG))
  | _ => exact run_of_error h _

/-- An idle core accepts a word written to CMD whatever the word is. -/
theorem step_accepts_cmd_write {s : State} {w : Word} {rest : List HostOp} (hb : s.busy = false)
    (hh : s.host = .write 0x00C#12 4 w :: rest) :
    ∃ t, step s = .next t ∧ t.busy = true ∧ t.lastCmd = w ∧ t.latch = some { word := w, nmode := s.nmode } := by
  obtain ⟨n, h⟩ := step_input (.inl hb) hh
  have hw := busWrite_cmd_idle (s := { s with delay := n, host := rest }) hb w
  exact ⟨_, h.trans (congrArg _ hw), rfl, rfl, rfl⟩

/-- The completion of an illegal word in progress raises ILLEGAL_CMD (R96). -/
theorem step_completes_illegal {s : State} {l : Latch} (hbad : IllegalWord l.word) (hl : s.latch = some l)
    (hdue : s.completionDue = true) : step s = .next (s.retire (some .illegalCmd)) := by
  rw [step_complete hl hdue]
  cases hdec : decode l.word with
  | error e => exact completeLatched_error hdec s
  | ok i => exact absurd hdec ((illegalWord_iff_decode_ne_ok _).mp hbad i)

/-! ### The obligations -/

/-- Settles O2: a command's fields pass the checks of its row, and it is built again from them. -/
theorem decodeOfEncodeIsTheCommand : Obligations.DecodeOfEncodeIsTheCommand := fun _ => decode_encode

/-- Settles O3: fields that pass the checks are the fields of the command built from them. -/
theorem acceptedWordsEncodeBack : Obligations.AcceptedWordsEncodeBack := fun _ _ => encode_of_decode

/-- Settles O4: the match under the mask is the checks of the decoder, field by field. -/
theorem wordsSelectRowsByMaskAndMatch : Obligations.WordsSelectRowsByMaskAndMatch := by
  refine ⟨fun w o => ?_, fun o => ⟨rsvBits_mask o, opcBits_mask o, fun n => ?_, opcBits_matchBits o, ?_⟩,
    fun _ _ _ => op_eq_of_and_mask_eq_match, ⟨rfl, rfl⟩, ⟨rfl, rfl⟩⟩
  · rw [exists_decode_iff_selects, and_mask_eq_match_iff, and_assoc, and_assoc]
    rfl
  · rw [fieldAt_mask, maskBits_eq_ite]
  · cases o <;> decide

/-- Settles O5: the five conditions are the checks of the decoder, and a word it refuses completes with ILLEGAL_CMD. -/
theorem illegalWordsCompleteWithIllegalCmd : Obligations.IllegalWordsCompleteWithIllegalCmd := by
  refine fun w => ⟨illegalWord_iff_decode_ne_ok w, fun hbad => ⟨fun s rest => step_accepts_cmd_write, ?_⟩⟩
  rintro s l hl rfl hdue
  have hdue' : s.completionDue = true := by simpa [State.completionDue] using hdue
  exact ⟨_, step_completes_illegal hbad hl hdue', raisedOnly_retire _ s⟩

/-- Settles O32, from the order of the operand checks. -/
theorem uninitialisedOperandsReported : Obligations.UninitialisedOperandsReported :=
  fun i s h => ⟨_, exec_of_operandError (operandError_uninit s (sourcesOf i) h), raisedOnly_retire _ s⟩

/-- Settles O33: an integer is not of the kind its role `fs` asks for. -/
theorem integerOperandsReported : Obligations.IntegerOperandsReported := by
  rintro i s hvalid ⟨v, hv, hmod⟩
  have hkind : ∃ x ∈ sourcesOf i, x.kindOk s = false := ⟨.fs v, hv, by simp [Src.kindOk, hmod]⟩
  exact ⟨_, exec_of_operandError (operandError_kind s (sourcesOf i) hvalid hkind), raisedOnly_retire _ s⟩

/-- Settles O1, by running the decoder on the eleven words. -/
theorem specExampleWordsDecode : Obligations.SpecExampleWordsDecode := by
  unfold Obligations.SpecExampleWordsDecode
  decide

end Sys2Proof.Machine
end

section
/-! SUPPORT. The field commands (40_field.md R122 to R134): the word of a command as a number, what a command that passes its
operand checks leaves, and each field command from the arithmetic of its unit. -/

namespace Sys2Proof.Machine

/-! ### The word of a command as a number (R91, R95) -/

/-- Fields side by side are the sum of their values at their places (R91). -/
theorem pack_eq_commandWord (opc : BitVec 8) (f : Fields) :
    pack opc f = commandWord opc.toNat f.fa.toNat f.fb.toNat f.fc.toNat f.fd.toNat f.fe.toNat := by
  apply BitVec.eq_of_toNat_eq
  have append_toNat : ∀ {n k : Nat} (x : BitVec n) (y : BitVec k), (x ++ y).toNat = x.toNat * 2 ^ k + y.toNat :=
    fun x y => by rw [BitVec.toNat_append, ← Nat.shiftLeft_add_eq_or_of_lt y.isLt, Nat.shiftLeft_eq]
  simp only [pack, commandWord, append_toNat, BitVec.toNat_ofNat]
  omega

@[simp] theorem toNat_vField (i : VIdx) : (vField i).toNat = i.val := Nat.mod_eq_of_lt i.isLt

/-- The word of a command whose operands are value registers; an unused field is the index 0 (R91, R92). -/
theorem pack_vField (opc : BitVec 8) (i j k : VIdx) :
    pack opc ⟨vField i, vField j, vField k, 0#4, 0#4⟩ = commandWord opc.toNat i j k 0 0 := by
  simp [pack_eq_commandWord]

/-! ### Operands that pass the checks (R102, R103) -/

theorem operandError_vs_vs {s : State} {a b : VIdx} (ha : (s.vreg a).valid = true) (hb : (s.vreg b).valid = true) :
    s.operandError [.vs a, .vs b] = none :=
  (operandError_none_iff s _).mpr (by simp [Src.valid, Src.kindOk, ha, hb])

theorem operandError_fs {s : State} {a : VIdx} (ha : (s.vreg a).isField) : s.operandError [.fs a] = none :=
  (operandError_none_iff s _).mpr (by simp [Src.valid, Src.kindOk, ha])

theorem operandError_fs_fs {s : State} {a b : VIdx} (ha : (s.vreg a).isField) (hb : (s.vreg b).isField) :
    s.operandError [.fs a, .fs b] = none :=
  (operandError_none_iff s _).mpr (by simp [Src.valid, Src.kindOk, ha, hb])

theorem operandError_fs_vs {s : State} {a e : VIdx} (ha : (s.vreg a).isField) (he : (s.vreg e).valid = true) :
    s.operandError [.fs a, .vs e] = none :=
  (operandError_none_iff s _).mpr (by simp [Src.valid, Src.kindOk, ha, he])

/-! ### What a command leaves once its operands pass the checks (R240, R241) -/

theorem wroteOnlyV_setV (s : State) (d : VIdx) (x : VReg) : WroteOnlyV [d] s ((s.setV d x).retire none) :=
  ⟨completedWith_none_retire _, fun _ hj => vreg_setV_ne s x (List.ne_of_not_mem_cons hj), fun _ _ => rfl, rfl, ⟨rfl, rfl⟩,
    rfl, rfl, rfl, rfl, rfl, rfl, rfl, rfl⟩

theorem wroteOnlyFlag_setFlag (s : State) (b : Bool) : WroteOnlyFlag s ((s.setFlag b).retire none) :=
  ⟨completedWith_none_retire _, fun _ _ => rfl, fun _ _ => rfl, ⟨rfl, rfl⟩, rfl, rfl, rfl, rfl, rfl, rfl, rfl, rfl⟩

section
variable {s : State} {srcs : List Src} (hc : s.operandError srcs = none)
include hc

theorem run_putV_writes {d : VIdx} {r : Except Err VReg} {x : VReg} (hr : r = .ok x) :
    ∃ t, s.run srcs (s.putV d r) = .next t ∧ t.vreg d = x ∧ WroteOnlyV [d] s t := by
  refine ⟨(s.setV d x).retire none, ?_, by simp, wroteOnlyV_setV s d x⟩
  rw [run_of_checks hc, hr, putV_ok, complete_ok]

/-- A result below its modulus is written whole (R14). -/
theorem run_putV_writes_ofNat {d : VIdx} {r : Except Err VReg} {v : Nat} {m : W256} (hv : v < m.toNat)
    (hr : r = .ok (VReg.ofNat v m)) :
    ∃ t, s.run srcs (s.putV d r) = .next t ∧ (t.vreg d).val.toNat = v ∧ (t.vreg d).mod = m ∧ (t.vreg d).valid = true
      ∧ WroteOnlyV [d] s t := by
  obtain ⟨t, ht, hreg, hframe⟩ := run_putV_writes hc (d := d) hr
  refine ⟨t, ht, ?_, ?_, ?_, hframe⟩ <;> rw [hreg]
  · exact toNat_ofNat_of_lt_toNat hv
  · rfl
  · rfl

theorem run_putV_raises {d : VIdx} {r : Except Err VReg} {e : Err} (hr : r = .error e) :
    ∃ t, s.run srcs (s.putV d r) = .next t ∧ RaisedOnly e s t := by
  refine ⟨s.retire (some e), ?_, raisedOnly_retire e s⟩
  rw [run_of_checks hc, hr, putV_error, complete_error]

end

/-! ### The work of the field units -/

theorem fieldNew_of_lt {v m : W256} (h : v.toNat < m.toNat) : fieldNew v m = .ok { val := v, mod := m, valid := true } :=
  if_neg (Nat.not_le.mpr h)

theorem fieldNew_of_le {v m : W256} (h : m.toNat ≤ v.toNat) : fieldNew v m = .error .valueRange := if_pos h

theorem fieldBinary_of_mod_eq {x y : VReg} (op : Int → Int → Int) (h : x.mod = y.mod) :
    fieldBinary op x y = .ok (VReg.ofNat (modInt (op x.val.toNat y.val.toNat) x.mod.toNat) x.mod) :=
  if_pos h

theorem fieldBinary_of_mod_ne {x y : VReg} (op : Int → Int → Int) (h : x.mod ≠ y.mod) :
    fieldBinary op x y = .error .fieldMismatch :=
  if_neg h

/-- INV of a register that meets R22 and is not zero: its modulus is 2 or more, so the Fermat power needs no reduction of
the exponent (R129). -/
theorem invField_of_ok {x : VReg} (hf : x.isField) (hx : x.Ok) (h0 : x.val ≠ 0#256) :
    invField x.val.toNat x.mod.toNat = .ok (x.val.toNat ^ (x.mod.toNat - 2) % x.mod.toNat) := by
  have hpos : 0 < x.val.toNat := toNat_pos_of_ne_zero h0
  have hlt : x.val.toNat < x.mod.toNat := hx hf.1 hf.2
  exact invField_eq (by omega) (by omega)

theorem fieldInv_of_ne_zero {x : VReg} (hf : x.isField) (hx : x.Ok) (h0 : x.val ≠ 0#256) :
    fieldInv x = .ok (VReg.ofNat (x.val.toNat ^ (x.mod.toNat - 2) % x.mod.toNat) x.mod) := by
  rw [fieldInv, invField_of_ok hf hx h0, Except.map]

theorem fieldInv_of_eq_zero {x : VReg} (h0 : x.val = 0#256) : fieldInv x = .error .divByZero := by
  rw [fieldInv, h0]
  rfl

theorem fieldDiv_of_ne_zero {x y : VReg} (hm : x.mod = y.mod) (hf : y.isField) (hy : y.Ok) (h0 : y.val ≠ 0#256) :
    fieldDiv x y
      = .ok (VReg.ofNat (x.val.toNat * (y.val.toNat ^ (x.mod.toNat - 2) % x.mod.toNat) % x.mod.toNat) x.mod) := by
  rw [fieldDiv, if_pos hm, hm, invField_of_ok hf hy h0, Except.map]

theorem fieldDiv_of_eq_zero {x y : VReg} (hm : x.mod = y.mod) (h0 : y.val = 0#256) : fieldDiv x y = .error .divByZero := by
  rw [fieldDiv, if_pos hm, h0]
  rfl

theorem fieldDiv_of_mod_ne {x y : VReg} (hm : x.mod ≠ y.mod) : fieldDiv x y = .error .fieldMismatch := if_neg hm

theorem sameValue_iff (x y : VReg) : sameValue x y = true ↔ x.val = y.val ∧ x.mod = y.mod := by simp [sameValue]

/-- FADD, FSUB and FMUL with an exact operation `op`: the result reduced by the common modulus (R123 to R125). -/
theorem run_fieldBinary (op : Int → Int → Int) {d a b : VIdx} {s : State} (ha : (s.vreg a).isField)
    (hb : (s.vreg b).isField) (hm : (s.vreg a).mod = (s.vreg b).mod) :
    ∃ t, s.run [.fs a, .fs b] (s.putV d (fieldBinary op (s.vreg a) (s.vreg b))) = .next t
      ∧ ((t.vreg d).val.toNat : Int) = op (s.vreg a).val.toNat (s.vreg b).val.toNat % (s.vreg a).mod.toNat
      ∧ (t.vreg d).mod = (s.vreg a).mod ∧ (t.vreg d).valid = true ∧ WroteOnlyV [d] s t := by
  have hpos := toNat_pos_of_ne_zero ha.2
  rw [← modInt_cast _ hpos]
  obtain ⟨t, ht, hval, hrest⟩ :=
    run_putV_writes_ofNat (operandError_fs_fs ha hb) (d := d) (modInt_lt _ hpos) (fieldBinary_of_mod_eq op hm)
  exact ⟨t, ht, congrArg _ hval, hrest⟩

/-- Different moduli are FIELD_MISMATCH whatever the operation. -/
theorem run_fieldBinary_mismatch (op : Int → Int → Int) {d a b : VIdx} {s : State} (ha : (s.vreg a).isField)
    (hb : (s.vreg b).isField) (hm : (s.vreg a).mod ≠ (s.vreg b).mod) :
    ∃ t, s.run [.fs a, .fs b] (s.putV d (fieldBinary op (s.vreg a) (s.vreg b))) = .next t
      ∧ RaisedOnly .fieldMismatch s t :=
  run_putV_raises (operandError_fs_fs ha hb) (fieldBinary_of_mod_ne op hm)

/-! ### The laws of the arithmetic (R134) -/

theorem add_emod_sub_emod {x m : Int} (y : Int) (h0 : 0 ≤ x) (hx : x < m) : ((x + y) % m - y) % m = x := by
  rw [Int.emod_sub_emod, add_sub_cancel_right, Int.emod_eq_of_lt h0 hx]

/-- The Fermat power is an inverse for a prime modulus (R129). -/
theorem mul_fermat_mod {p x : Nat} (hp : p.Prime) (h0 : x ≠ 0) (hx : x < p) : x * (x ^ (p - 2) % p) % p = 1 := by
  have hexp : p - 2 + 1 = p - 1 := by have := hp.two_le; omega
  have hcop : x.Coprime p := ((hp.coprime_iff_not_dvd).mpr (Nat.not_dvd_of_pos_of_lt (by omega) hx)).symm
  calc x * (x ^ (p - 2) % p) % p = x ^ (p - 1) % p := by rw [Nat.mul_mod_mod, ← pow_succ', hexp]
    _ = 1 % p := Nat.ModEq.pow_card_sub_one_eq_one hp hcop
    _ = 1 := Nat.mod_eq_of_lt hp.one_lt

theorem VReg.eq_of_parts {x y : VReg} (hval : x.val = y.val) (hmod : x.mod = y.mod) (hvalid : x.valid = y.valid) : x = y := by
  cases x
  cases y
  cases hval
  cases hmod
  cases hvalid
  rfl

/-! ### The obligations -/

/-- Settles O34, by the bound of the value. -/
theorem fnewBuildsAFieldElement : Obligations.FnewBuildsAFieldElement := by
  refine fun d v m s => ⟨pack_vField 0x01#8 d v m, fun hv hm => ⟨fun h => ?_, fun h => ?_⟩⟩
  · exact run_putV_writes (operandError_vs_vs hv hm) (fieldNew_of_lt h)
  · exact run_putV_raises (operandError_vs_vs hv hm) (fieldNew_of_le h)

/-- Settles O35: the sum of two numbers is the sum of the integers. -/
theorem faddAddsModulo : Obligations.FaddAddsModulo := by
  refine fun d a b s => ⟨pack_vField 0x02#8 d a b, fun ha hb =>
    ⟨fun hm => ?_, run_fieldBinary_mismatch _ ha hb⟩⟩
  obtain ⟨t, ht, hval, hrest⟩ := run_fieldBinary (fun x y => x + y) (d := d) ha hb hm
  exact ⟨t, ht, by exact_mod_cast hval, hrest⟩

/-- Settles O36: FSUB reduces the integer difference. -/
theorem fsubSubtractsModulo : Obligations.FsubSubtractsModulo :=
  fun d a b _ => ⟨pack_vField 0x03#8 d a b, fun ha hb =>
    ⟨run_fieldBinary _ ha hb, run_fieldBinary_mismatch _ ha hb⟩⟩

/-- Settles O37: the product of two numbers is the product of the integers. -/
theorem fmulMultipliesModulo : Obligations.FmulMultipliesModulo := by
  refine fun d a b s => ⟨pack_vField 0x04#8 d a b, fun ha hb =>
    ⟨fun hm => ?_, run_fieldBinary_mismatch _ ha hb⟩⟩
  obtain ⟨t, ht, hval, hrest⟩ := run_fieldBinary (fun x y => x * y) (d := d) ha hb hm
  exact ⟨t, ht, by exact_mod_cast hval, hrest⟩

/-- Settles O38: POW is the plain power, and its result is below the modulus. -/
theorem fpowRaisesToReducedExponent : Obligations.FpowRaisesToReducedExponent := by
  refine fun d a e s => ⟨pack_vField 0x05#8 d a e, fun ha he => ?_⟩
  rw [← powField_eq]
  exact run_putV_writes_ofNat (operandError_fs_vs ha he) (powField_lt _ _ (toNat_pos_of_ne_zero ha.2)) rfl

/-- Settles O39, from INV of a zero and of a nonzero element. -/
theorem finvIsTheFermatPower : Obligations.FinvIsTheFermatPower := by
  refine fun d a s => ⟨pack_vField 0x06#8 d a 0, fun ha hok => ⟨fun h0 => ?_, fun h0 => ?_⟩⟩
  · exact run_putV_writes_ofNat (operandError_fs ha) (Nat.mod_lt _ (toNat_pos_of_ne_zero ha.2))
      (fieldInv_of_ne_zero ha hok h0)
  · exact run_putV_raises (operandError_fs ha) (fieldInv_of_eq_zero h0)

/-- Settles O40: the moduli are compared before INV of the divisor. -/
theorem fdivMultipliesByTheFermatPower : Obligations.FdivMultipliesByTheFermatPower := by
  refine fun d a b s => ⟨pack_vField 0x07#8 d a b, fun ha hb hok =>
    ⟨fun hm h0 => ?_, fun hm h0 => ?_, fun hm => ?_⟩⟩
  · exact run_putV_writes_ofNat (operandError_fs_fs ha hb) (Nat.mod_lt _ (toNat_pos_of_ne_zero ha.2))
      (fieldDiv_of_ne_zero hm hb hok h0)
  · exact run_putV_raises (operandError_fs_fs ha hb) (fieldDiv_of_eq_zero hm h0)
  · exact run_putV_raises (operandError_fs_fs ha hb) (fieldDiv_of_mod_ne hm)

/-- Settles O41: FEQ writes the comparison of both parts to FLAG. -/
theorem feqComparesValueAndModulus : Obligations.FeqComparesValueAndModulus :=
  fun a b s => ⟨pack_vField 0x08#8 0 a b, fun ha hb =>
    ⟨_, run_of_checks (operandError_vs_vs ha hb) _, sameValue_iff _ _, wroteOnlyFlag_setFlag s _⟩⟩

/-- `(a + b) - b = a` through the commands, for every modulus (R134). -/
theorem fadd_fsub_cancels {d a b : VIdx} {s : State} (ha : (s.vreg a).isField) (hb : (s.vreg b).isField)
    (hok : (s.vreg a).Ok) (hm : (s.vreg a).mod = (s.vreg b).mod) (hd : d ≠ b) :
    ∃ t u, exec (.fadd d a b) s = .next t ∧ exec (.fsub d d b) t = .next u ∧ u.vreg d = s.vreg a := by
  obtain ⟨t, ht, htval, htmod, htvalid, -, hkept, -⟩ := run_fieldBinary (fun x y => x + y) (d := d) ha hb hm
  have hbt : t.vreg b = s.vreg b := hkept b (by simpa using hd.symm)
  have hdt : (t.vreg d).isField := ⟨htvalid, htmod ▸ ha.2⟩
  obtain ⟨u, hu, huval, humod, huvalid, -⟩ :=
    run_fieldBinary (fun x y => x - y) (d := d) hdt (hbt ▸ hb) (by rw [htmod, hbt, hm])
  have hlt : (s.vreg a).val.toNat < (s.vreg a).mod.toNat := hok ha.1 ha.2
  have hval : (u.vreg d).val = (s.vreg a).val := by
    apply BitVec.eq_of_toNat_eq
    rw [htval, htmod, hbt, add_emod_sub_emod _ (by omega) (by omega)] at huval
    exact_mod_cast huval
  exact ⟨t, u, ht, hu, VReg.eq_of_parts hval (humod.trans htmod) (huvalid.trans ha.1.symm)⟩

/-- `a * inv(a) = 1` through the commands, for a prime modulus (R134). -/
theorem finv_fmul_eq_one {d e a : VIdx} {s : State} (ha : (s.vreg a).isField) (hok : (s.vreg a).Ok)
    (hp : Nat.Prime (s.vreg a).mod.toNat) (h0 : (s.vreg a).val ≠ 0#256) (hd : d ≠ a) :
    ∃ t u, exec (.finv d a) s = .next t ∧ exec (.fmul e a d) t = .next u ∧ (u.vreg e).val.toNat = 1 := by
  obtain ⟨t, ht, htval, htmod, htvalid, -, hkept, -⟩ := ((finvIsTheFermatPower d a s).2 ha hok).1 h0
  have hat : t.vreg a = s.vreg a := hkept a (by simpa using hd.symm)
  have hdt : (t.vreg d).isField := ⟨htvalid, htmod ▸ ha.2⟩
  obtain ⟨u, hu, huval, -⟩ := ((fmulMultipliesModulo e a d t).2 (hat ▸ ha) hdt).1 (by rw [hat, htmod])
  refine ⟨t, u, ht, hu, ?_⟩
  rw [huval, hat, htval]
  exact mul_fermat_mod hp (toNat_pos_of_ne_zero h0).ne' (hok ha.1 ha.2)

/-- Settles O42, from the two laws of the commands. -/
theorem fieldLawsOfTheSource : Obligations.FieldLawsOfTheSource :=
  ⟨fun _ _ _ _ ha hb hok _ hm hd => fadd_fsub_cancels ha hb hok hm hd,
    fun _ _ _ _ ha hok hp h0 hd => finv_fmul_eq_one ha hok hp h0 hd⟩

end Sys2Proof.Machine
end

section
/-! SUPPORT. The point commands (41_point.md R162 to R170): the words of commands with point operands, what a command that
writes a point register leaves, ADD from the plain Fermat power, its closure over odd primes, and its laws. -/

namespace Sys2Proof.Machine

/-! ### The words of commands with point operands (R91, R93) -/

@[simp] theorem toNat_pField (j : PIdx) : (pField j).toNat = j.val := Nat.mod_eq_of_lt (j.isLt.trans (by decide))

/-- Three point operands; an unused field is the index 0 (R92). -/
theorem pack_pField (opc : BitVec 8) (i j k : PIdx) :
    pack opc ⟨pField i, pField j, pField k, 0#4, 0#4⟩ = commandWord opc.toNat i j k 0 0 := by
  simp [pack_eq_commandWord]

/-- A point destination and four value operands; an unused field is the index 0 (R92). -/
theorem pack_pField_vField (opc : BitVec 8) (d : PIdx) (i j k l : VIdx) :
    pack opc ⟨pField d, vField i, vField j, vField k, vField l⟩ = commandWord opc.toNat d i j k l := by
  simp [pack_eq_commandWord]

/-! ### Operands that pass the checks (R102, R103) -/

theorem operandError_nil (s : State) : s.operandError [] = none := rfl

theorem operandError_ps {s : State} {p : PIdx} (hp : (s.preg p).valid = true) : s.operandError [.ps p] = none :=
  (operandError_none_iff s _).mpr (by simp [Src.valid, Src.kindOk, hp])

theorem operandError_ps_ps {s : State} {p q : PIdx} (hp : (s.preg p).valid = true) (hq : (s.preg q).valid = true) :
    s.operandError [.ps p, .ps q] = none :=
  (operandError_none_iff s _).mpr (by simp [Src.valid, Src.kindOk, hp, hq])

theorem operandError_fs_four {s : State} {x y a b : VIdx} (hx : (s.vreg x).isField) (hy : (s.vreg y).isField)
    (ha : (s.vreg a).isField) (hb : (s.vreg b).isField) : s.operandError [.fs x, .fs y, .fs a, .fs b] = none :=
  (operandError_none_iff s _).mpr (by simp [Src.valid, Src.kindOk, hx, hy, ha, hb])

/-! ### What a command with a point destination leaves once its operands pass the checks (R240, R241) -/

theorem wroteOnlyP_setP (s : State) (d : PIdx) (q : Point) : WroteOnlyP d s ((s.setP d q).retire none) :=
  ⟨completedWith_none_retire _, fun _ _ => rfl, fun _ hj => preg_setP_ne s q (List.ne_of_not_mem_cons hj), rfl, ⟨rfl, rfl⟩,
    rfl, rfl, rfl, rfl, rfl, rfl, rfl, rfl⟩

section
variable {s : State} {srcs : List Src} (hc : s.operandError srcs = none)
include hc

theorem run_putP_writes {d : PIdx} {r : Except Err Point} {q : Point} (hr : r = .ok q) :
    ∃ t, s.run srcs (s.putP d r) = .next t ∧ t.preg d = { pt := q, valid := true } ∧ WroteOnlyP d s t := by
  refine ⟨(s.setP d q).retire none, ?_, by simp, wroteOnlyP_setP s d q⟩
  rw [run_of_checks hc, hr, putP_ok, complete_ok]

theorem run_putP_raises {d : PIdx} {r : Except Err Point} {e : Err} (hr : r = .error e) :
    ∃ t, s.run srcs (s.putP d r) = .next t ∧ RaisedOnly e s t := by
  refine ⟨s.retire (some e), ?_, raisedOnly_retire e s⟩
  rw [run_of_checks hc, hr, putP_error, complete_error]

end

/-! ### Points (R16, R25) -/

theorem Point.Ok.x_lt {q : Point} (h : q.Ok) (hi : q.inf = false) : q.x.toNat < q.p.toNat := (h.2.2.2.2 hi).1

theorem Point.Ok.y_lt {q : Point} (h : q.Ok) (hi : q.inf = false) : q.y.toNat < q.p.toNat := (h.2.2.2.2 hi).2.1

theorem curve_eq_iff (p q : Point) : p.curve = q.curve ↔ p.a = q.a ∧ p.b = q.b ∧ p.p = q.p := by simp [Point.curve]

theorem Point.eq_of_parts {p q : Point} (hinf : p.inf = q.inf) (hx : p.x = q.x) (hy : p.y = q.y) (hc : p.curve = q.curve) :
    p = q := by
  obtain ⟨ha, hb, hp⟩ := (curve_eq_iff p q).mp hc
  cases p
  cases q
  cases hinf
  cases hx
  cases hy
  cases ha
  cases hb
  cases hp
  rfl

/-- A point at infinity is the identity of its curve, since R25(c) fixes its coordinates. -/
theorem Point.Ok.eq_identityOn {q : Point} (h : q.Ok) (hi : q.inf = true) : q = identityOn q.a q.b q.p := by
  obtain ⟨-, -, -, hzero, -⟩ := h
  exact Point.eq_of_parts hi (hzero hi).1 (hzero hi).2 rfl

theorem samePoint_iff (p q : Point) : samePoint p q = true ↔ p = q := by
  constructor
  · intro h
    simp only [samePoint, Bool.and_eq_true, beq_iff_eq] at h
    obtain ⟨⟨⟨⟨⟨hinf, hx⟩, hy⟩, ha⟩, hb⟩, hp⟩ := h
    exact Point.eq_of_parts hinf hx hy ((curve_eq_iff p q).mpr ⟨ha, hb, hp⟩)
  · rintro rfl
    simp [samePoint]

/-! ### The work of PINF, PNEW and PNEG -/

theorem newIdentity_of_mod_eq {a b : VReg} (h : a.mod = b.mod) : newIdentity a b = .ok (identityOn a.val b.val a.mod) := if_pos h

theorem newIdentity_of_mod_ne {a b : VReg} (h : a.mod ≠ b.mod) : newIdentity a b = .error .fieldMismatch := if_neg h

/-- "All four moduli are equal" (R163), against the first and in a chain. -/
theorem all_eq_first_iff_chain {α : Type} (x y a b : α) : (x = y ∧ x = a ∧ x = b) ↔ (x = y ∧ y = a ∧ a = b) :=
  ⟨fun ⟨hy, ha, hb⟩ => ⟨hy, hy.symm.trans ha, ha.symm.trans hb⟩,
    fun ⟨hy, ha, hb⟩ => ⟨hy, hy.trans ha, hy.trans (ha.trans hb)⟩⟩

theorem newPoint_of_mod_ne {x y a b : VReg} (h : ¬ (x.mod = y.mod ∧ x.mod = a.mod ∧ x.mod = b.mod)) :
    newPoint x y a b = .error .fieldMismatch :=
  if_neg fun hm => h ((all_eq_first_iff_chain _ _ _ _).mpr hm)

section
variable {x y a b : VReg} (hm : x.mod = y.mod ∧ x.mod = a.mod ∧ x.mod = b.mod)
include hm

theorem newPoint_of_onCurve (h : onCurve x.val.toNat y.val.toNat a.val.toNat b.val.toNat x.mod.toNat = true) :
    newPoint x y a b = .ok { inf := false, x := x.val, y := y.val, a := a.val, b := b.val, p := x.mod } :=
  (if_pos ((all_eq_first_iff_chain _ _ _ _).mp hm)).trans (if_pos h)

theorem newPoint_of_not_onCurve (h : ¬ onCurve x.val.toNat y.val.toNat a.val.toNat b.val.toNat x.mod.toNat = true) :
    newPoint x y a b = .error .notOnCurve :=
  (if_pos ((all_eq_first_iff_chain _ _ _ _).mp hm)).trans (if_neg h)

end

theorem negPoint_of_inf {q : Point} (h : q.inf = true) : negPoint q = q := if_pos h

theorem negPoint_of_finite {q : Point} (h : q.inf = false) :
    negPoint q = { q with y := BitVec.ofNat 256 (modInt ((q.p.toNat : Int) - q.y.toNat) q.p.toNat) } :=
  if_neg (Bool.eq_false_iff.mp h)

theorem negPoint_curve (q : Point) : (negPoint q).curve = q.curve := by
  unfold negPoint
  split <;> rfl

theorem negPoint_y {q : Point} (hq : q.Ok) (h : q.inf = false) :
    ((negPoint q).y.toNat : Int) = ((q.p.toNat : Int) - q.y.toNat) % q.p.toNat := by
  rw [negPoint_of_finite h, ← modInt_cast _ hq.1]
  exact congrArg _ (toNat_ofNat_of_lt_toNat (modInt_lt _ hq.1))

/-- The ordinate of `-q` differs from that of `q` but at 0 and at `p / 2`. -/
theorem negPoint_y_ne {q : Point} (hq : q.Ok) (h : q.inf = false) (h0 : q.y ≠ 0#256) (h2 : 2 * q.y.toNat ≠ q.p.toNat) :
    q.y ≠ (negPoint q).y := by
  intro he
  have hpos : 0 < q.y.toNat := toNat_pos_of_ne_zero h0
  have hlt : q.y.toNat < q.p.toNat := hq.y_lt h
  have hneg := negPoint_y hq h
  rw [← he, Int.emod_eq_of_lt (by omega) (by omega)] at hneg
  omega

/-! ### The cases of ADD (R164) -/

/-- The errors R166 lists are all that ADD can raise. -/
theorem addPoints_error {p q : Point} {e : Err} (h : addPoints p q = .error e) :
    e = .curveMismatch ∨ e = .divByZero ∨ e = .notOnCurve := by
  rcases addPoints_cases p q with e | e | e | ⟨_, e⟩ | ⟨_, e⟩ | ⟨_, e⟩ | ⟨_, _, _, _, e⟩ <;> rw [e] at h <;> cases h
  · exact .inl rfl
  · exact .inr (.inl rfl)
  · exact .inr (.inr rfl)

/-- A sum is on the curve of its operands (R165). -/
theorem addPoints_curve {p q r : Point} (h : addPoints p q = .ok r) : r.curve = p.curve := by
  rcases addPoints_cases p q with e | e | e | ⟨hc, e⟩ | ⟨_, e⟩ | ⟨_, e⟩ | ⟨_, _, _, _, e⟩ <;> rw [e] at h <;> cases h
  · exact hc.symm
  · rfl
  · rfl
  · rfl

/-- Cases 3 and 5: mutual inverses, and the vertical tangent. -/
theorem addPoints_opposite {p q : Point} (hc : p.curve = q.curve) (hp : p.inf = false) (hq : q.inf = false) (hx : p.x = q.x)
    (hy : p.y ≠ q.y ∨ p.y = 0#256) : addPoints p q = .ok (identityOn p.a p.b p.p) := by
  by_cases he : p.y = q.y
  · exact addPoints_vertical hc hp hq hx he (hy.resolve_left (not_not_intro he))
  · exact addPoints_inverse hc hp hq hx he

theorem slope_of_den_eq_zero (num : Int) {den : Int} {p : Nat} (h : modInt den p = 0) : slope num den p = .error .divByZero := by
  rw [slope, h]
  rfl

/-- The slope of a denominator that is not zero is its numerator times a plain Fermat power: the modulus is 2 or more, so the
exponent needs no reduction (R129). -/
theorem slope_eq {num den : Int} {p dn sl : Nat} (hp : 0 < p) (hd : den % p ≠ 0) (hdn : (dn : Int) = den % p)
    (hsl : (sl : Int) = ((num % p) * ((dn ^ (p - 2) % p : Nat) : Int)) % p) : slope num den p = .ok sl := by
  have hm : modInt den p = dn := by exact_mod_cast (modInt_cast den hp).trans hdn.symm
  have hlt : dn < p := hm ▸ modInt_lt den hp
  have h0 : dn ≠ 0 := by omega
  rw [← modInt_cast num hp] at hsl
  rw [slope, hm, invField_eq h0 (by omega), Except.map]
  exact congrArg _ (by exact_mod_cast hsl.symm)

/-- The end of cases 4 and 6, with CHECKED written out (R165). -/
theorem lineThird_eq {sl x1 y1 x2 x3 y3 : Nat} {a b p : W256} (hp : 0 < p.toNat)
    (hx : (x3 : Int) = ((sl : Int) * sl - x1 - x2) % p.toNat)
    (hy : (y3 : Int) = ((sl : Int) * ((x1 : Int) - x3) - y1) % p.toNat) :
    lineThird sl x1 y1 x2 a b p
      = if ((y3 * y3 : Int) - (x3 * x3 * x3 + a.toNat * x3 + b.toNat)) % p.toNat = 0 then
          .ok { inf := false, x := BitVec.ofNat 256 x3, y := BitVec.ofNat 256 y3, a := a, b := b, p := p }
        else .error .notOnCurve := by
  have ex : modInt ((sl : Int) * sl - x1 - x2) p.toNat = x3 := by exact_mod_cast (modInt_cast _ hp).trans hx.symm
  have ey : modInt ((sl : Int) * ((x1 : Int) - x3) - y1) p.toNat = y3 := by exact_mod_cast (modInt_cast _ hp).trans hy.symm
  simp only [lineThird, ex, ey, checkedPoint, onCurve_iff _ _ _ _ hp]

/-- Two different abscissas below the modulus have a difference that is not a multiple of it. -/
theorem sub_emod_ne_zero {x y p : Nat} (hx : x < p) (hy : y < p) (h : x ≠ y) : ((y : Int) - x) % p ≠ 0 := by
  intro h0
  have := Int.eq_zero_of_abs_lt_dvd (Int.dvd_of_emod_eq_zero h0) (abs_lt.mpr ⟨by omega, by omega⟩)
  omega

/-- The denominator of case 6 vanishes exactly at `y = p / 2`. -/
theorem two_mul_mod_eq_zero_iff {y p : Nat} (h0 : 0 < y) (hy : y < p) : 2 * y % p = 0 ↔ 2 * y = p := by
  constructor
  · intro h
    obtain ⟨k, hk⟩ := Nat.dvd_of_mod_eq_zero h
    have hk2 : k < 2 := Nat.lt_of_mul_lt_mul_left (a := p) (by omega)
    have hk0 : k ≠ 0 := by
      rintro rfl
      omega
    obtain rfl : k = 1 := by omega
    omega
  · intro h
    rw [h, Nat.mod_self]

/-- Case 6 at `2 * y = p` inverts 0. -/
theorem tangentRule_divByZero {q : Point} (h : 2 * q.y.toNat = q.p.toNat) : tangentRule q = .error .divByZero := by
  have hden : modInt (2 * q.y.toNat : Int) q.p.toNat = 0 := by
    rw [← h]
    simp [modInt]
  rw [tangentRule, slope_of_den_eq_zero _ hden, Except.bind]

/-! ### ADD over a prime modulus (R170) -/

theorem slope_lt {num den : Int} {p sl : Nat} (hp : 0 < p) (h : slope num den p = .ok sl) : sl < p := by
  rcases slope_cases num den p with ⟨_, e⟩ | ⟨_, e⟩ <;> rw [e] at h <;> cases h
  exact Nat.mod_lt _ hp

/-- Numbers that are equal in `ZMod p` have one residue. -/
theorem modInt_eq_of_cast_eq {u v : Int} {p : Nat} (hp : 0 < p) (h : (u : ZMod p) = v) : modInt u p = modInt v p :=
  eq_of_cast_eq (modInt_lt u hp) (modInt_lt v hp) (by rw [cast_modInt u hp, cast_modInt v hp, h])

/-- The chord through two points may be drawn from either end, for any prime modulus. -/
theorem chordRule_comm {p q : Point} (hp : p.Ok) (hq : q.Ok) (hc : p.curve = q.curve) (hprime : p.p.toNat.Prime)
    (hpi : p.inf = false) (hqi : q.inf = false) (hx : p.x ≠ q.x) : chordRule p q = chordRule q p := by
  have : Fact p.p.toNat.Prime := ⟨hprime⟩
  obtain ⟨ea, eb, ep⟩ := (curve_eq_iff p q).mp hc
  have hqx : q.x.toNat < p.p.toNat := ep ▸ hq.x_lt hqi
  have hne : (q.x.toNat : ZMod p.p.toNat) - p.x.toNat ≠ 0 :=
    sub_ne_zero.mpr fun h => hx (BitVec.eq_of_toNat_eq (eq_of_cast_eq (hp.x_lt hpi) hqx h.symm))
  have hne' : (p.x.toNat : ZMod p.p.toNat) - q.x.toNat ≠ 0 := neg_sub (q.x.toNat : ZMod p.p.toNat) _ ▸ neg_ne_zero.mpr hne
  obtain ⟨sl, hsl, csl⟩ := slope_of_prime (p := p.p.toNat) ((q.y.toNat : Int) - p.y.toNat) ((q.x.toNat : Int) - p.x.toNat)
    (by push_cast; exact hne)
  obtain ⟨sl', hsl', csl'⟩ := slope_of_prime (p := p.p.toNat) ((p.y.toNat : Int) - q.y.toNat) ((p.x.toNat : Int) - q.x.toNat)
    (by push_cast; exact hne')
  push_cast at csl csl'
  have hslope : sl' = sl := by
    refine eq_of_cast_eq (slope_lt hprime.pos hsl') (slope_lt hprime.pos hsl) ?_
    rw [csl, csl', div_eq_div_iff hne' hne]
    ring
  have hline : (sl : ZMod p.p.toNat) * (q.x.toNat - p.x.toNat) = q.y.toNat - p.y.toNat := by rw [csl, div_mul_cancel₀ _ hne]
  rw [chordRule, chordRule, ← ep, hsl, hsl', hslope]
  simp only [Except.bind, lineThird, ← ea, ← eb]
  rw [sub_right_comm ((sl : Int) * sl)]
  congr 1
  refine modInt_eq_of_cast_eq hprime.pos ?_
  push_cast
  linear_combination -hline

/-- The sum of two different points of one curve does not depend on their order, for any prime modulus. -/
theorem addPoints_comm {p q : Point} (hp : p.Ok) (hq : q.Ok) (hc : p.curve = q.curve) (hprime : p.p.toNat.Prime) (hne : p ≠ q) :
    addPoints p q = addPoints q p := by
  cases hpi : p.inf <;> cases hqi : q.inf
  case true.true =>
    obtain ⟨ea, eb, ep⟩ := (curve_eq_iff p q).mp hc
    refine absurd ?_ hne
    rw [hp.eq_identityOn hpi, hq.eq_identityOn hqi, ea, eb, ep]
  case true.false => rw [addPoints_left_identity hc hpi, addPoints_right_identity hc.symm hqi hpi]
  case false.true => rw [addPoints_right_identity hc hpi hqi, addPoints_left_identity hc.symm hqi]
  case false.false =>
    by_cases hx : p.x = q.x
    · have hy : p.y ≠ q.y := fun hy => hne (Point.eq_of_parts (hpi.trans hqi.symm) hx hy hc)
      obtain ⟨ea, eb, ep⟩ := (curve_eq_iff p q).mp hc
      rw [addPoints_inverse hc hpi hqi hx hy, addPoints_inverse hc.symm hqi hpi hx.symm hy.symm, ea, eb, ep]
    · rw [addPoints_chord hc hpi hqi hx, addPoints_chord hc.symm hqi hpi (Ne.symm hx),
        chordRule_comm hp hq hc hprime hpi hqi hx]

/-- The inverse on the same curve cancels, unless `2 * y = p` (log entry 27). -/
theorem addPoints_negPoint {q : Point} (hq : q.Ok) (h2 : 2 * q.y.toNat ≠ q.p.toNat) :
    addPoints q (negPoint q) = .ok (identityOn q.a q.b q.p) := by
  have hc := (negPoint_curve q).symm
  cases hi : q.inf with
  | true =>
    rw [addPoints_left_identity hc hi, negPoint_of_inf hi]
    exact congrArg _ (hq.eq_identityOn hi)
  | false =>
    have hni : (negPoint q).inf = false := by rw [negPoint_of_finite hi]; exact hi
    have hnx : q.x = (negPoint q).x := by rw [negPoint_of_finite hi]
    refine addPoints_opposite hc hi hni hnx ?_
    by_cases h0 : q.y = 0#256
    · exact .inr h0
    · exact .inl (negPoint_y_ne hq hi h0 h2)

/-- The identity is neutral on both sides. -/
theorem addPoints_identityOn {q : Point} (hq : q.Ok) :
    addPoints q (identityOn q.a q.b q.p) = .ok q ∧ addPoints (identityOn q.a q.b q.p) q = .ok q := by
  have hc : q.curve = (identityOn q.a q.b q.p).curve := rfl
  refine ⟨?_, addPoints_left_identity hc.symm rfl⟩
  cases hi : q.inf with
  | true =>
    rw [addPoints_left_identity hc hi]
    exact congrArg _ (hq.eq_identityOn hi).symm
  | false => exact addPoints_right_identity hc hi rfl

/-- ADD answers a point for every two points of one curve over an odd prime modulus (R243). -/
theorem addPoints_answers {p q : Point} (hp : p.Ok) (hq : q.Ok) (hc : p.curve = q.curve) (hprime : p.p.toNat.Prime)
    (hodd : p.p.toNat ≠ 2) : ∃ r, addPoints p q = .ok r := by
  have : Fact p.p.toNat.Prime := ⟨hprime⟩
  cases hpi : p.inf with
  | true => exact ⟨q, addPoints_left_identity hc hpi⟩
  | false =>
    cases hqi : q.inf with
    | true => exact ⟨p, addPoints_right_identity hc hpi hqi⟩
    | false =>
      by_cases hopp : p.x = q.x ∧ (p.y ≠ q.y ∨ p.y = 0#256)
      · exact ⟨_, addPoints_opposite hc hpi hqi hopp.1 hopp.2⟩
      · obtain ⟨r, hr, -⟩ := addPoints_of_prime hp hq hc hodd hpi hqi hopp
        exact ⟨r, hr⟩

/-! ### The obligations -/

/-- Settles O44: the moduli first, then the curve equation. -/
theorem pnewChecksModuliThenCurve : Obligations.PnewChecksModuliThenCurve := by
  refine fun d x y a b s => ⟨pack_pField_vField 0x11#8 d x y a b, fun hx hy ha hb => ?_⟩
  have hsrc := operandError_fs_four hx hy ha hb
  have hcurve := onCurve_iff (s.vreg x).val.toNat (s.vreg y).val.toNat (s.vreg a).val.toNat (s.vreg b).val.toNat
    (toNat_pos_of_ne_zero hx.2)
  refine ⟨fun hm hon => ?_, fun hm hoff => ?_, fun hm => ?_⟩
  · exact run_putP_writes hsrc (newPoint_of_onCurve hm (hcurve.mpr hon))
  · exact run_putP_raises hsrc (newPoint_of_not_onCurve hm (mt hcurve.mp hoff))
  · exact run_putP_raises hsrc (newPoint_of_mod_ne hm)

/-- Settles O45, one case of ADD after the other; the chord and the tangent end in one computation. -/
theorem groupLawCases : Obligations.GroupLawCases := by
  refine fun p q hp hq => ⟨addPoints_mismatch, fun hc => ⟨addPoints_left_identity hc, addPoints_right_identity hc,
    fun hpi hqi => ⟨addPoints_opposite hc hpi hqi, fun hx hy h0 => ⟨?_, fun h2 => ?_⟩,
      fun num den dn sl x3 y3 hcase hdn hsl hx3 hy3 => ?_⟩⟩⟩
  · exact two_mul_mod_eq_zero_iff (toNat_pos_of_ne_zero h0) (hp.y_lt hpi)
  · rw [addPoints_tangent hc hpi hqi hx hy h0, tangentRule_divByZero h2]
  · rw [← lineThird_eq hp.1 hx3 hy3]
    rcases hcase with ⟨hx, rfl, rfl⟩ | ⟨hx, hy, h0, rfl, rfl, hd⟩
    · have hqx : q.x.toNat < p.p.toNat := ((curve_eq_iff p q).mp hc).2.2 ▸ hq.x_lt hqi
      have hd := sub_emod_ne_zero (hp.x_lt hpi) hqx fun h => hx (BitVec.eq_of_toNat_eq h)
      rw [addPoints_chord hc hpi hqi hx, chordRule, slope_eq hp.1 hd hdn hsl, Except.bind]
    · rw [addPoints_tangent hc hpi hqi hx hy h0, tangentRule, slope_eq hp.1 hd hdn hsl, Except.bind, hx]

/-- Settles O46: PADD's work is ADD. -/
theorem paddWritesTheSum : Obligations.PaddWritesTheSum :=
  fun d p q _ => ⟨pack_pField 0x12#8 d p q, fun hp hq =>
    ⟨fun _ hr => run_putP_writes (operandError_ps_ps hp hq) hr,
      fun _ he => ⟨addPoints_error he, run_putP_raises (operandError_ps_ps hp hq) he⟩⟩⟩

/-- Settles O47, from the two cases of the negation. -/
theorem pnegNegatesTheOrdinate : Obligations.PnegNegatesTheOrdinate := by
  refine fun d p s => ⟨pack_pField 0x13#8 d p 0, fun hv hreg => ?_⟩
  have hok : (s.preg p).pt.Ok := hreg hv
  obtain ⟨t, ht, hd, hframe⟩ := run_putP_writes (operandError_ps hv) (d := d) (r := .ok (negPoint (s.preg p).pt)) rfl
  refine ⟨fun hi => ⟨t, ht, ?_, hframe⟩, fun hi => ⟨t, ht, ?_, ⟨(negPoint (s.preg p).pt).y, ?_, ?_⟩, fun _ => ?_, hframe⟩⟩
  · rw [hd, negPoint_of_inf hi, ← hv]
  · rw [hd]
  · rw [hd, negPoint_of_finite hi]
  · exact negPoint_y hok hi
  · rw [hd]
    exact negPoint_ok hok

/-- Settles O50: an answer of ADD keeps R25 and the curve. -/
theorem addNeverRaisesOnOddPrimes : Obligations.AddNeverRaisesOnOddPrimes := by
  intro p q hp hq hc hprime hodd
  obtain ⟨r, hr⟩ := addPoints_answers hp hq hc hprime hodd
  exact ⟨r, hr, addPoints_ok hp hq hr, addPoints_curve hr⟩

/-- Settles O51, from the three laws of ADD. -/
theorem groupLawProperties : Obligations.GroupLawProperties :=
  ⟨fun _ => addPoints_identityOn, fun _ => addPoints_negPoint, fun _ _ => addPoints_comm⟩

/-- Settles O43, by the comparison of the two moduli. -/
theorem pinfMakesTheIdentity : Obligations.PinfMakesTheIdentity :=
  fun d a b _ => ⟨pack_pField_vField 0x10#8 d a b 0 0, fun ha hb =>
    ⟨fun hm => run_putP_writes (operandError_fs_fs ha hb) (newIdentity_of_mod_eq hm),
      fun hm => run_putP_raises (operandError_fs_fs ha hb) (newIdentity_of_mod_ne hm)⟩⟩

/-- Settles O48: PEQ writes the comparison of the six fields to FLAG. -/
theorem peqComparesAllFields : Obligations.PeqComparesAllFields :=
  fun p q s => ⟨pack_pField 0x14#8 0 p q, fun hp hq =>
    ⟨_, run_of_checks (operandError_ps_ps hp hq) _, samePoint_iff _ _, wroteOnlyFlag_setFlag s _⟩⟩

/-- Settles O49: the constants of R10 are a point that meets R25. -/
theorem pldgLoadsTheBasePoint : Obligations.PldgLoadsTheBasePoint := by
  refine fun d s => ⟨pack_pField 0x15#8 d 0 0, ?_⟩
  obtain ⟨t, ht, hd, hframe⟩ := run_putP_writes (operandError_nil s) (d := d) (r := .ok pointG) rfl
  refine ⟨t, ht, hd, fun _ => ?_, hframe⟩
  rw [hd]
  exact pointG_ok

end Sys2Proof.Machine
end

section
/-! SUPPORT. The scalar commands (42_scalar.md R190 to R194): the words of PMUL and SRED, SMUL as the loop over the digits of
its reduced scalar, the errors it can raise, and its digit laws. -/

namespace Sys2Proof.Machine

/-! ### The commands' words and operand checks (R95, R102) -/

theorem encode_pmul (d p : PIdx) (k : VIdx) : encode (.pmul d p k) = commandWord 0x18 d p k 0 0 :=
  (pack_eq_commandWord 0x18#8 ⟨pField d, pField p, vField k, 0#4, 0#4⟩).trans (by simp)

theorem operandError_vs {s : State} {a : VIdx} (ha : (s.vreg a).valid = true) : s.operandError [.vs a] = none :=
  (operandError_none_iff s _).mpr (by simp [Src.valid, Src.kindOk, ha])

theorem operandError_ps_vs {s : State} {p : PIdx} {k : VIdx} (hp : (s.preg p).valid = true) (hk : (s.vreg k).valid = true) :
    s.operandError [.ps p, .vs k] = none :=
  (operandError_none_iff s _).mpr (by simp [Src.valid, Src.kindOk, hp, hk])

/-! ### The errors of ADD on one curve (R164, R192) -/

theorem lineRule_error {num den : Int} {x1 y1 x2 : Nat} {a b p : W256} {e : Err}
    (h : (slope num den p.toNat).bind (fun sl => lineThird sl x1 y1 x2 a b p) = .error e) :
    e = .divByZero ∨ e = .notOnCurve := by
  rcases lineRule_cases num den x1 y1 x2 a b p with hdiv | hoff | ⟨_, _, _, _, _, _, _, hok⟩
  · cases hdiv.symm.trans h
    exact .inl rfl
  · cases hoff.symm.trans h
    exact .inr rfl
  · cases hok.symm.trans h

theorem addPoints_error_of_curve_eq {p q : Point} {e : Err} (hc : p.curve = q.curve) (h : addPoints p q = .error e) :
    e = .divByZero ∨ e = .notOnCurve := by
  rw [addPoints, if_neg (not_not_intro hc)] at h
  split_ifs at h
  · exact lineRule_error h
  · exact lineRule_error h

/-! ### The loop of R190 -/

/-- Where the error of an iteration comes from: its addition, its doubling, or the rest of the loop. -/
theorem smulLoop_succ_error {n k : Nat} {r c : Point} {e : Err} (h : smulLoop (n + 1) k r c = .error e) :
    addPoints r c = .error e ∨ addPoints c c = .error e
      ∨ ∃ r' c', (if k % 2 = 1 then addPoints r c else .ok r) = .ok r' ∧ addPoints c c = .ok c'
        ∧ smulLoop n (k / 2) r' c' = .error e := by
  cases hadd : (if k % 2 = 1 then addPoints r c else .ok r) with
  | error e' =>
    by_cases hk : k % 2 = 1
    · rw [if_pos hk] at hadd
      exact .inl (hadd.trans ((smulLoop_add_error hk hadd).symm.trans h))
    · rw [if_neg hk] at hadd
      cases hadd
  | ok r' =>
    cases hdbl : addPoints c c with
    | error e' => exact .inr (.inl ((smulLoop_double_error hadd hdbl).symm.trans h))
    | ok c' => exact .inr (.inr ⟨r', c', rfl, rfl, (smulLoop_succ hadd hdbl).symm.trans h⟩)

/-- Every ADD of the loop combines points of one curve, so CURVE_MISMATCH cannot occur (R192). -/
theorem smulLoop_error {n : Nat} : ∀ {k : Nat} {r c : Point} {e : Err}, r.curve = c.curve → smulLoop n k r c = .error e →
    e = .divByZero ∨ e = .notOnCurve := by
  induction n with
  | zero =>
    intro k r c e _ h
    cases h
  | succ n ih =>
    intro k r c e hc h
    rcases smulLoop_succ_error h with hadd | hdbl | ⟨r', c', hr', hc', hrest⟩
    · exact addPoints_error_of_curve_eq hc hadd
    · exact addPoints_error_of_curve_eq rfl hdbl
    · refine ih ?_ hrest
      rw [addPoints_curve hc', ← hc]
      split at hr'
      · exact addPoints_curve hr'
      · cases hr'
        rfl

/-- With the identity as the current point the result stays as it is. -/
theorem smulLoop_of_current_identity {r : Point} (hr : r.Ok) :
    ∀ n k : Nat, smulLoop n k r (identityOn r.a r.b r.p) = .ok r := by
  intro n
  induction n with
  | zero => exact fun _ => rfl
  | succ n ih =>
    intro k
    have hadd : (if k % 2 = 1 then addPoints r (identityOn r.a r.b r.p) else .ok r) = .ok r := by
      rw [(addPoints_identityOn hr).1, ite_self]
    rw [smulLoop_succ hadd (addPoints_left_identity rfl rfl), ih]

/-- A loop that meets the equations of R190 is the loop over the binary digits of its scalar. -/
theorem eq_smulLoop_of_equations {loop : Nat → Point → Point → Except Err Point} (hzero : ∀ r c, loop 0 r c = .ok r)
    (hstep : ∀ k r c, k ≠ 0 →
      (∀ r' c', (if k % 2 = 1 then addPoints r c else .ok r) = .ok r' → addPoints c c = .ok c' →
        loop k r c = loop (k / 2) r' c')
      ∧ (∀ e, k % 2 = 1 → addPoints r c = .error e → loop k r c = .error e)
      ∧ (∀ e r', (if k % 2 = 1 then addPoints r c else .ok r) = .ok r' → addPoints c c = .error e →
        loop k r c = .error e))
    (k : Nat) : ∀ r c, smulLoop (bitLength k) k r c = loop k r c := by
  induction k using Nat.strong_induction_on with
  | _ k ih =>
    intro r c
    by_cases hk : k = 0
    · subst hk
      exact (hzero r c).symm
    · obtain ⟨hgo, haddErr, hdblErr⟩ := hstep k r c hk
      rw [bitLength_half hk]
      cases hadd : (if k % 2 = 1 then addPoints r c else .ok r) with
      | error e =>
        have hodd : k % 2 = 1 := by
          by_contra heven
          rw [if_neg heven] at hadd
          cases hadd
        rw [if_pos hodd] at hadd
        rw [smulLoop_add_error hodd hadd, haddErr e hodd hadd]
      | ok r' =>
        cases hdbl : addPoints c c with
        | error e => rw [smulLoop_double_error hadd hdbl, hdblErr e r' hadd hdbl]
        | ok c' => rw [smulLoop_succ hadd hdbl, hgo r' c' hadd hdbl, ih _ (by omega)]

theorem Point.Ok.identityOn_ok {q : Point} (h : q.Ok) : (identityOn q.a q.b q.p).Ok :=
  Machine.identityOn_ok h.2.1 h.2.2.1

/-! ### SMUL on its reduced scalar (R191) -/

theorem smul_of_secp {pt : Point} (hc : pt.curve = secpCurve) (k : Nat) :
    smul pt k = smulLoop (bitLength (k % secpN)) (k % secpN) (identityOn pt.a pt.b pt.p) pt := by
  rw [smul, reducedScalar, if_pos hc]

/-- A scalar that R191 leaves as it is: any one off SECP, one below `N` on SECP. -/
theorem smul_of_lt {pt : Point} {k : Nat} (hk : pt.curve = secpCurve → k < secpN) :
    smul pt k = smulLoop (bitLength k) k (identityOn pt.a pt.b pt.p) pt := by
  by_cases hc : pt.curve = secpCurve
  · rw [smul_of_secp hc, Nat.mod_eq_of_lt (hk hc)]
  · rw [smul, reducedScalar, if_neg hc]

theorem smul_mod_secpN {pt : Point} (hc : pt.curve = secpCurve) (k : Nat) : smul pt k = smul pt (k % secpN) := by
  rw [smul_of_secp hc, smul_of_secp hc, Nat.mod_mod]

theorem smul_zero (pt : Point) : smul pt 0 = .ok (identityOn pt.a pt.b pt.p) := by
  rw [smul_of_lt fun _ => by decide]
  rfl

/-- SMUL raises only DIV_BY_ZERO and NOT_ON_CURVE (R192). -/
theorem smul_error {pt : Point} {k : Nat} {e : Err} (h : smul pt k = .error e) : e = .divByZero ∨ e = .notOnCurve :=
  have hc : (identityOn pt.a pt.b pt.p).curve = pt.curve := rfl
  smulLoop_error hc h

/-- SMUL answers on every odd prime modulus: ADD does, and keeps R25 and the curve (R192). -/
theorem smul_answers {pt : Point} (hpt : pt.Ok) (hprime : pt.p.toNat.Prime) (hodd : pt.p.toNat ≠ 2) (k : Nat) :
    ∃ R, smul pt k = .ok R := by
  have hadd : ∀ p q : Point, (p.Ok ∧ p.curve = pt.curve) → (q.Ok ∧ q.curve = pt.curve) →
      ∃ r, addPoints p q = .ok r ∧ r.Ok ∧ r.curve = pt.curve := by
    rintro p q ⟨hp, hpc⟩ ⟨hq, hqc⟩
    have hmod : p.p = pt.p := ((curve_eq_iff p pt).mp hpc).2.2
    rw [← hmod] at hprime hodd
    obtain ⟨r, hr, hrok, hrc⟩ := addNeverRaisesOnOddPrimes p q hp hq (hpc.trans hqc.symm) hprime hodd
    exact ⟨r, hr, hrok, hrc.trans hpc⟩
  obtain ⟨R, hR, -⟩ := smulLoop_answers (fun q => q.Ok ∧ q.curve = pt.curve) hadd (bitLength (reducedScalar pt k))
    (reducedScalar pt k) (identityOn pt.a pt.b pt.p) pt ⟨hpt.identityOn_ok, rfl⟩ ⟨hpt, rfl⟩
  exact ⟨R, hR⟩

/-! ### One binary digit more -/

section
variable {pt : Point} {n : Nat}

/-- The double is on the curve of the point, so its loop starts from the same identity. -/
theorem smul_double_of_lt {D : Point} (hD : addPoints pt pt = .ok D) (hn : pt.curve = secpCurve → n < secpN) :
    smul D n = smulLoop (bitLength n) n (identityOn pt.a pt.b pt.p) D := by
  have hcurve : D.curve = pt.curve := addPoints_curve hD
  obtain ⟨ha, hb, hp⟩ := (curve_eq_iff D pt).mp hcurve
  rw [smul_of_lt (hcurve ▸ hn), ha, hb, hp]

theorem smul_two_mul_error {e : Err} (h0 : 0 < n) (hn : pt.curve = secpCurve → 2 * n < secpN)
    (he : addPoints pt pt = .error e) : smul pt (2 * n) = .error e := by
  rw [smul_of_lt hn, bitLength_half (by omega), smulLoop_double_error (if_neg (by omega)) he]

/-- The digit 0: the multiple of the double. -/
theorem smul_two_mul {D : Point} (h0 : 0 < n) (hn : pt.curve = secpCurve → 2 * n < secpN)
    (hD : addPoints pt pt = .ok D) : smul pt (2 * n) = smul D n := by
  have hn' : pt.curve = secpCurve → n < secpN := fun hc => by have := hn hc; omega
  rw [smul_of_lt hn, smul_double_of_lt hD hn', bitLength_half (by omega), smulLoop_succ (if_neg (by omega)) hD,
    Nat.mul_div_cancel_left n two_pos]

/-- The addition of the first digit 1, to the identity. -/
theorem addPoints_identityOn_of_odd (pt : Point) (n : Nat) :
    (if (2 * n + 1) % 2 = 1 then addPoints (identityOn pt.a pt.b pt.p) pt else .ok (identityOn pt.a pt.b pt.p)) = .ok pt := by
  rw [if_pos (by omega)]
  exact addPoints_left_identity rfl rfl

theorem smul_two_mul_add_one_error {e : Err} (hn : pt.curve = secpCurve → 2 * n + 1 < secpN)
    (he : addPoints pt pt = .error e) : smul pt (2 * n + 1) = .error e := by
  rw [smul_of_lt hn, bitLength_half (by omega), smulLoop_double_error (addPoints_identityOn_of_odd pt n) he]

/-- The digit 1: the loop goes on from the point and its double. -/
theorem smul_two_mul_add_one {D : Point} (hn : pt.curve = secpCurve → 2 * n + 1 < secpN)
    (hD : addPoints pt pt = .ok D) : smul pt (2 * n + 1) = smulLoop (bitLength n) n pt D := by
  have hhalf : (2 * n + 1) / 2 = n := by omega
  rw [smul_of_lt hn, bitLength_half (by omega), smulLoop_succ (addPoints_identityOn_of_odd pt n) hD, hhalf]

end

/-! ### The digit 1 over an odd prime modulus: the point plus the multiple of its double -/

/-- A finite point that meets R25 and is not its own inverse stands for a point of Mathlib's group, on a singular curve too. -/
theorem exists_represents {q : Point} [hf : Fact q.p.toNat.Prime] (hodd : q.p.toNat ≠ 2) (hq : q.Ok) (hi : q.inf = false)
    (hy : q.y ≠ 0#256) : ∃ Q, Represents (p := q.p.toNat) q.a.toNat q.b.toNat q Q := by
  have hpos : 0 < q.y.toNat := toNat_pos_of_ne_zero hy
  have hlt : q.y.toNat < q.p.toNat := hq.y_lt hi
  have h2y : ((2 * q.y.toNat : Nat) : ZMod q.p.toNat) ≠ 0 := by
    rw [Ne, ZMod.natCast_eq_zero_iff, hf.out.dvd_mul, not_or]
    exact ⟨fun h => hodd ((Nat.prime_dvd_prime_iff_eq hf.out Nat.prime_two).mp h), Nat.not_dvd_of_pos_of_lt hpos hlt⟩
  have hns : (weierstrass q.p.toNat q.a.toNat q.b.toNat).Nonsingular (q.x.toNat : ZMod q.p.toNat) q.y.toNat := by
    rw [WeierstrassCurve.Affine.nonsingular_iff]
    refine ⟨equation_of_ok hq hi, .inr fun h => h2y ?_⟩
    simp only [weierstrass] at h
    push_cast
    linear_combination h
  exact ⟨.some _ _ hns, hq, rfl, rfl, rfl, .inr ⟨hi, hns, rfl⟩⟩

theorem Represents.identityOn {p : Nat} [Fact p.Prime] {a b : Nat} {q : Point} {Q : (weierstrass p a b).Point}
    (hq : Represents a b q Q) : Represents (p := p) a b (Machine.identityOn q.a q.b q.p) 0 := by
  obtain ⟨hok, hp, ha, hb, -⟩ := hq
  exact ⟨hok.identityOn_ok, hp, ha, hb, .inl ⟨rfl, rfl⟩⟩

/-- The loop of R190 from `pt` and its double answers the sum of the loop from the identity and of `pt`. -/
def LoopAddsAfterwards (pt : Point) (n : Nat) : Prop :=
  ∃ D T R, addPoints pt pt = .ok D ∧ smulLoop (bitLength n) n (identityOn pt.a pt.b pt.p) D = .ok T
    ∧ addPoints T pt = .ok R ∧ smulLoop (bitLength n) n pt D = .ok R

/-- A point whose double is the identity, singular points among them. -/
theorem loopAddsAfterwards_of_double_eq_identityOn {pt : Point} (hpt : pt.Ok)
    (hD : addPoints pt pt = .ok (identityOn pt.a pt.b pt.p)) (n : Nat) : LoopAddsAfterwards pt n :=
  ⟨_, _, pt, hD, smulLoop_of_current_identity hpt.identityOn_ok _ _, (addPoints_identityOn hpt).2,
    smulLoop_of_current_identity hpt _ _⟩

/-- A point of Mathlib's group: both orders give the same multiple there. -/
theorem loopAddsAfterwards_of_represents {p : Nat} [Fact p.Prime] (hodd : p ≠ 2) {a b : Nat} {pt : Point}
    {Q : (weierstrass p a b).Point} (hpt : Represents a b pt Q) (n : Nat) : LoopAddsAfterwards pt n := by
  obtain ⟨D, hD, hDrep⟩ := hpt.add hodd hpt
  obtain ⟨T, hT, hTrep⟩ := Represents.smulLoop hodd _ n (lt_two_pow_bitLength n) hpt.identityOn hDrep
  obtain ⟨R, hR, hRrep⟩ := hTrep.add hodd hpt
  obtain ⟨R', hR', hRrep'⟩ := Represents.smulLoop hodd _ n (lt_two_pow_bitLength n) hpt hDrep
  have hsame : Q + n • (Q + Q) = 0 + n • (Q + Q) + Q := by rw [zero_add, add_comm]
  rw [hsame] at hRrep'
  exact ⟨D, T, R, hD, hT, hR, hR'.trans (congrArg _ (hRrep'.unique hRrep))⟩

theorem loopAddsAfterwards_of_prime {pt : Point} (hpt : pt.Ok) (hprime : pt.p.toNat.Prime) (hodd : pt.p.toNat ≠ 2) (n : Nat) :
    LoopAddsAfterwards pt n := by
  cases hi : pt.inf with
  | true =>
    refine loopAddsAfterwards_of_double_eq_identityOn hpt ?_ n
    rw [addPoints_left_identity rfl hi]
    exact congrArg _ (hpt.eq_identityOn hi)
  | false =>
    by_cases hy : pt.y = 0#256
    · exact loopAddsAfterwards_of_double_eq_identityOn hpt (addPoints_opposite rfl hi hi rfl (.inr hy)) n
    · have : Fact pt.p.toNat.Prime := ⟨hprime⟩
      obtain ⟨Q, hQ⟩ := exists_represents hodd hpt hi hy
      exact loopAddsAfterwards_of_represents hodd hQ n

/-! ### The obligations -/

/-- Settles O60: the loop over the binary digits is the loop of the equations. -/
theorem scalarMultiplicationIsDoubleAndAdd : Obligations.ScalarMultiplicationIsDoubleAndAdd := by
  intro loop hzero hstep pt k
  have hloop := eq_smulLoop_of_equations hzero hstep
  refine ⟨fun hc => ?_, fun hc => ?_⟩
  · rw [smul_of_secp hc, hloop]
  · rw [smul_of_lt fun h => absurd h hc, hloop]

/-- Settles O52: PMUL's work is SMUL. -/
theorem pmulWritesTheMultiple : Obligations.PmulWritesTheMultiple := by
  refine fun d p k s => ⟨encode_pmul d p k, fun hp hk => ?_⟩
  have hsrc := operandError_ps_vs hp hk
  refine ⟨fun R hR => run_putP_writes hsrc hR, fun e he => ⟨smul_error he, run_putP_raises hsrc he⟩,
    fun hok hprime hodd => ?_⟩
  obtain ⟨R, hR⟩ := smul_answers (hok hp) hprime hodd (s.vreg k).val.toNat
  obtain ⟨t, ht⟩ := run_putP_writes hsrc (d := d) hR
  exact ⟨R, t, hR, ht⟩

/-- Settles O53, from the laws of the digits; the scalar 1 is the digit 1 above the scalar 0. -/
theorem scalarMultiplicationLaws : Obligations.ScalarMultiplicationLaws := by
  refine ⟨smul_zero, fun _ n hc => smul_mod_secpN hc n, fun pt _ => ⟨fun R hR => ?_, fun e he => ?_⟩,
    fun _ _ h0 hn => ⟨fun _ => smul_two_mul h0 hn, fun _ => smul_two_mul_error h0 hn⟩,
    fun pt n hn => ⟨fun _ => smul_two_mul_add_one_error hn, fun hpt hprime hodd => ?_⟩⟩
  · exact smul_two_mul_add_one (n := 0) (fun _ => by decide) hR
  · exact smul_two_mul_add_one_error (n := 0) (fun _ => by decide) he
  · obtain ⟨D, T, R, hD, hT, hR, hloop⟩ := loopAddsAfterwards_of_prime hpt hprime hodd n
    have hn' : pt.curve = secpCurve → n < secpN := fun hc => by have := hn hc; omega
    exact ⟨D, T, R, hD, (smul_double_of_lt hD hn').trans hT, hR, (smul_two_mul_add_one hn hD).trans hloop⟩

/-- Settles O54: a remainder by `N` is below the modulus written. -/
theorem sredReducesModuloTheOrder : Obligations.SredReducesModuloTheOrder :=
  fun d a _ => ⟨pack_vField 0x19#8 d a 0, fun ha =>
    run_putV_writes_ofNat (operandError_vs ha) (Nat.mod_lt _ (by decide)) rfl⟩

end Sys2Proof.Machine
end

section
/-! SUPPORT. The ECDSA commands (43_ecdsa.md R211 to R218): their words and operand checks, SMUL on SECP, what one signing
attempt and the loop of SIGN answer, what ESIGN and EVERIFY leave, and the multiples of `G` in Mathlib's group. -/

namespace Sys2Proof.Machine

/-! ### The commands' words and operand checks (R95, R102) -/

theorem encode_esign (r sg sec z : VIdx) : encode (.esign r sg sec z) = commandWord 0x21 r sg sec z 0 :=
  (pack_eq_commandWord 0x21#8 ⟨vField r, vField sg, vField sec, vField z, 0#4⟩).trans (by simp)

theorem encode_everify (q : PIdx) (z r sg : VIdx) : encode (.everify q z r sg) = commandWord 0x22 0 q z r sg :=
  (pack_eq_commandWord 0x22#8 ⟨0#4, pField q, vField z, vField r, vField sg⟩).trans (by simp)

theorem operandError_ps_vs_vs_vs {s : State} {q : PIdx} {z r sg : VIdx} (hq : (s.preg q).valid = true)
    (hz : (s.vreg z).valid = true) (hr : (s.vreg r).valid = true) (hs : (s.vreg sg).valid = true) :
    s.operandError [.ps q, .vs z, .vs r, .vs sg] = none :=
  (operandError_none_iff s _).mpr (by simp [Src.valid, Src.kindOk, hq, hz, hr, hs])

/-! ### Scalars in and out of `[1, N-1]` -/

theorem inScalarRange_of_bounds {k : Nat} (h1 : 1 ≤ k) (hN : k < secpN) : inScalarRange k = true :=
  (inScalarRange_iff k).mpr ⟨h1, hN⟩

theorem inScalarRange_eq_false {k : Nat} (h : k = 0 ∨ secpN ≤ k) : inScalarRange k = false := by
  rw [Bool.eq_false_iff, Ne, inScalarRange_iff]
  omega

theorem secpN_lt_two_pow : secpN < 2 ^ 256 := by decide

/-! ### SMUL on SECP (R192) -/

theorem smul_curve {q r : Point} {k : Nat} (h : smul q k = .ok r) : r.curve = q.curve :=
  smulLoop_keeps (fun pt => pt.curve = q.curve) (fun _ _ _ hp _ hadd => (addPoints_curve hadd).trans hp) _ _
    (identityOn q.a q.b q.p) q r rfl rfl h

theorem secpP_ne_two : secpP.toNat ≠ 2 := by decide

theorem smul_answers_of_secp {q : Point} (hq : q.Ok) (hc : q.curve = secpCurve) (k : Nat) :
    ∃ R, smul q k = .ok R ∧ R.Ok ∧ R.curve = secpCurve := by
  have hp : q.p = secpP := ((curve_eq_iff q pointG).mp hc).2.2
  obtain ⟨R, hR⟩ := smul_answers hq (hp ▸ secpP_prime) (hp ▸ secpP_ne_two) k
  exact ⟨R, hR, smul_ok hq hR, (smul_curve hR).trans hc⟩

theorem smul_pointG_answers (k : Nat) : ∃ R, smul pointG k = .ok R ∧ R.Ok ∧ R.curve = secpCurve :=
  smul_answers_of_secp pointG_ok rfl k

theorem addPoints_answers_of_secp {p q : Point} (hp : p.Ok) (hq : q.Ok) (hpc : p.curve = secpCurve) (hqc : q.curve = secpCurve) :
    ∃ R, addPoints p q = .ok R := by
  have hpp : p.p = secpP := ((curve_eq_iff p pointG).mp hpc).2.2
  exact addPoints_answers hp hq (hpc.trans hqc.symm) (hpp ▸ secpP_prime) (hpp ▸ secpP_ne_two)

theorem Point.Ok.finite_of_one_le_x {q : Point} (hq : q.Ok) (hx : 1 ≤ q.x.toNat) : q.inf = false := by
  obtain ⟨-, -, -, hzero, -⟩ := hq
  by_contra hi
  rw [(hzero (Bool.eq_true_of_not_eq_false hi)).1] at hx
  exact absurd hx (by decide)

/-! ### EKEY (R211) -/

theorem publicPoint_of_inRange {sec : Nat} (h : inScalarRange sec = true) : publicPoint sec = smul pointG sec := if_pos h

theorem publicPoint_of_not_inRange {sec : Nat} (h : inScalarRange sec = false) : publicPoint sec = .error .invalidKey :=
  if_neg (by simp [h])

/-! ### One signing attempt (R213) -/

/-- Steps 2 to 5 of R213 answer exactly the signature of the nonce. -/
theorem signAttempt_eq_some_iff {sec z k r sg : Nat} :
    signAttempt sec z k = .ok (some (r, sg)) ↔ SignedWith sec z k r sg := by
  obtain ⟨R, hR, -⟩ := smul_pointG_answers k
  rw [signAttempt_eq hR, powmod_eq]
  constructor
  · intro h
    split_ifs at h with hr hs
    · cases h
    · cases h
    · cases h
      exact ⟨R, hR, rfl, by omega, by omega, rfl, hs⟩
  · rintro ⟨R', hR', rfl, h1, hN, rfl, hs⟩
    cases hR.symm.trans hR'
    rw [if_neg (by omega), if_neg hs]

/-- Steps 2 to 5 of R213 discard exactly the degenerate nonces. -/
theorem signAttempt_eq_none_iff {sec z k : Nat} : signAttempt sec z k = .ok none ↔ DegenerateNonce sec z k := by
  obtain ⟨R, hR, -⟩ := smul_pointG_answers k
  rw [signAttempt_eq hR, powmod_eq]
  constructor
  · intro h
    split_ifs at h with hr hs
    · exact ⟨R, hR, or_assoc.mp (.inl hr)⟩
    · exact ⟨R, hR, .inr (.inr hs)⟩
    · cases h
  · rintro ⟨R', hR', hdeg⟩
    cases hR.symm.trans hR'
    split_ifs with hr hs
    · rfl
    · rfl
    · exact absurd (or_assoc.mpr hdeg) (not_or_intro hr hs)

/-- Every nonce signs or is degenerate: SMUL of `G` never raises. -/
theorem signedWith_or_degenerateNonce (sec z k : Nat) : (∃ r sg, SignedWith sec z k r sg) ∨ DegenerateNonce sec z k := by
  obtain ⟨R, hR, -⟩ := smul_pointG_answers k
  have hattempt := signAttempt_eq (sec := sec) (z := z) hR
  simp only [← signAttempt_eq_some_iff, ← signAttempt_eq_none_iff, hattempt]
  split_ifs
  · exact .inr rfl
  · exact .inr rfl
  · exact .inl ⟨_, _, rfl⟩

theorem SignedWith.bounds {sec z k r sg : Nat} (h : SignedWith sec z k r sg) : (1 ≤ r ∧ r < secpN) ∧ 1 ≤ sg ∧ sg < secpN :=
  signAttempt_range (signAttempt_eq_some_iff.mpr h)

/-! ### The signing loop (R213, R214) -/

/-- A signature SIGN answers is the signature of one nonce in `[1, N-1]`. -/
theorem signLoop_signedWith {mode : Bool} {sec z fuel r sg : Nat} {n n' : NonceSource}
    (h : signLoop mode sec z fuel n = (n', .ok (r, sg))) : ∃ k, inScalarRange k = true ∧ SignedWith sec z k r sg := by
  induction fuel generalizing n with
  | zero =>
    rw [signLoop_zero] at h
    cases h
  | succ fuel ih =>
    rcases hnonce : nextNonce mode n with ⟨m, e | k⟩
    · rw [signLoop_nonce_error hnonce] at h
      cases h
    · rcases signedWith_or_degenerateNonce sec z k with ⟨v, w, hsig⟩ | hdeg
      · rw [signLoop_signed hnonce (signAttempt_eq_some_iff.mpr hsig)] at h
        cases h
        exact ⟨k, nextNonce_ok_inRange hnonce, hsig⟩
      · rw [signLoop_retry hnonce (signAttempt_eq_none_iff.mpr hdeg)] at h
        exact ih h

section
variable {sec z : Nat} {n : NonceSource}

theorem nextNonce_host_empty (hv : n.valid = false) : nextNonce true n = (n, .error .nonceEmpty) := by
  simp [nextNonce, hv]

theorem nextNonce_host_out_of_range (hv : n.valid = true) (hr : inScalarRange n.nonce.toNat = false) :
    nextNonce true n = ({ n with valid := false }, .error .valueRange) := by
  simp [nextNonce, hv, hr]

theorem nextNonce_host (hv : n.valid = true) (hr : inScalarRange n.nonce.toNat = true) :
    nextNonce true n = ({ n with valid := false }, .ok n.nonce.toNat) := by
  simp [nextNonce, hv, hr]

theorem sign_host_empty (hv : n.valid = false) : sign true sec z n = (n, .error .nonceEmpty) :=
  signLoop_nonce_error (nextNonce_host_empty hv)

theorem sign_host_out_of_range (hv : n.valid = true) (hr : inScalarRange n.nonce.toNat = false) :
    sign true sec z n = ({ n with valid := false }, .error .valueRange) :=
  signLoop_nonce_error (nextNonce_host_out_of_range hv hr)

theorem sign_host_signs {v w : Nat} (hv : n.valid = true) (hr : inScalarRange n.nonce.toNat = true)
    (hsig : SignedWith sec z n.nonce.toNat v w) : sign true sec z n = ({ n with valid := false }, .ok (v, w)) :=
  signLoop_signed (nextNonce_host hv hr) (signAttempt_eq_some_iff.mpr hsig)

/-- The retry after a degenerate nonce finds the nonce consumed (R214). -/
theorem sign_host_degenerate (hv : n.valid = true) (hr : inScalarRange n.nonce.toNat = true)
    (hdeg : DegenerateNonce sec z n.nonce.toNat) : sign true sec z n = ({ n with valid := false }, .error .nonceEmpty) :=
  (signLoop_retry (nextNonce_host hv hr) (signAttempt_eq_none_iff.mpr hdeg)).trans
    (signLoop_nonce_error (nextNonce_host_empty rfl))

end

/-- SIGN from draw number `d` on, at most `fuel` times, signs with draw number `d + j`, the first that is not degenerate. -/
def DrawSigns (sec z d fuel j v w : Nat) : Prop :=
  j < fuel ∧ (∀ i, i < j → DegenerateNonce sec z (drawNonce (d + i))) ∧ SignedWith sec z (drawNonce (d + j)) v w

theorem degenerate_draws_succ {sec z d m : Nat} (h0 : DegenerateNonce sec z (drawNonce d))
    (h : ∀ i, i < m → DegenerateNonce sec z (drawNonce (d + 1 + i))) :
    ∀ i, i < m + 1 → DegenerateNonce sec z (drawNonce (d + i))
  | 0, _ => h0
  | i + 1, hi => Nat.add_right_comm d 1 i ▸ h i (Nat.lt_of_succ_lt_succ hi)

/-- What the loop in TRNG mode answers, by its first draw. -/
theorem signLoop_drawn (sec z fuel : Nat) (n : NonceSource) :
    (∃ j v w, DrawSigns sec z n.draws fuel j v w
      ∧ signLoop false sec z fuel n = ({ n with draws := n.draws + j + 1 }, .ok (v, w)))
    ∨ ((∀ i, i < fuel → DegenerateNonce sec z (drawNonce (n.draws + i)))
      ∧ signLoop false sec z fuel n = ({ n with draws := n.draws + fuel }, .error .retryExhausted)) := by
  induction fuel generalizing n with
  | zero => exact .inr ⟨fun i hi => absurd hi (Nat.not_lt_zero i), rfl⟩
  | succ fuel ih =>
    have hnonce : nextNonce false n = ({ n with draws := n.draws + 1 }, .ok (drawNonce n.draws)) := rfl
    rcases signedWith_or_degenerateNonce sec z (drawNonce n.draws) with ⟨v, w, hsig⟩ | hdeg
    · exact .inl ⟨0, v, w, ⟨fuel.succ_pos, fun i hi => absurd hi (Nat.not_lt_zero i), hsig⟩,
        signLoop_signed hnonce (signAttempt_eq_some_iff.mpr hsig)⟩
    · have hretry := signLoop_retry (fuel := fuel) hnonce (signAttempt_eq_none_iff.mpr hdeg)
      rcases ih { n with draws := n.draws + 1 } with ⟨j, v, w, ⟨hj, hall, hsig⟩, hloop⟩ | ⟨hall, hloop⟩
      · refine .inl ⟨j + 1, v, w, ⟨Nat.succ_lt_succ hj, degenerate_draws_succ hdeg hall, ?_⟩, ?_⟩
        · rwa [Nat.add_right_comm] at hsig
        · rw [hretry, hloop, Nat.add_right_comm n.draws 1 j]
          rfl
      · refine .inr ⟨degenerate_draws_succ hdeg hall, ?_⟩
        rw [hretry, hloop, Nat.add_right_comm n.draws 1 fuel]
        rfl

/-! ### What ESIGN leaves (R212, R241) -/

/-- A value register that holds an integer (R21, R210). -/
def HoldsInteger (x : VReg) (v : Nat) : Prop := x.val.toNat = v ∧ x.mod = 0#256 ∧ x.valid = true

theorem VReg.ofNat_holdsInteger {v : Nat} (hv : v < secpN) : HoldsInteger (VReg.ofNat v 0#256) v :=
  ⟨Nat.mod_eq_of_lt (hv.trans secpN_lt_two_pow), rfl, rfl⟩

section
variable {r sg sec z : VIdx} {s : State} (hsrc : s.operandError [.vs sec, .vs z] = none)
include hsrc

theorem esign_invalidKey (hr : inScalarRange (s.vreg sec).val.toNat = false) :
    ∃ t, exec (.esign r sg sec z) s = .next t ∧ RaisedOnly .invalidKey s t := by
  refine ⟨_, ?_, raisedOnly_retire .invalidKey s⟩
  simp [exec, execEsign, hsrc, State.signInto, hr]

variable (hr : inScalarRange (s.vreg sec).val.toNat = true)
include hr

/-- An error of SIGN leaves everything but the nonce source, which SIGN's requests may have changed. -/
theorem esign_raises {n : NonceSource} {e : Err}
    (hsign : sign s.commandNmode (s.vreg sec).val.toNat (s.vreg z).val.toNat s.nonceSource = (n, .error e)) :
    ∃ t, exec (.esign r sg sec z) s = .next t ∧ CompletedWith (some e) t ∧ VKeptExcept [] s t ∧ PKeptExcept [] s t
      ∧ t.flag = s.flag ∧ t.nonceValid = n.valid ∧ t.draws = n.draws ∧ ControlKept s t := by
  refine ⟨(s.setNonceSource n).retire (some e), ?_, ⟨rfl, rfl, rfl, rfl⟩, fun _ _ => rfl, fun _ _ => rfl, rfl, rfl, rfl,
    rfl, rfl, rfl, rfl, rfl, rfl, rfl, rfl⟩
  simp [exec, execEsign, hsrc, State.signInto, hr, hsign, Except.map]

theorem esign_signs {n : NonceSource} {v w : Nat} (hne : r ≠ sg)
    (hsign : sign s.commandNmode (s.vreg sec).val.toNat (s.vreg z).val.toNat s.nonceSource = (n, .ok (v, w))) :
    ∃ t, exec (.esign r sg sec z) s = .next t ∧ HoldsInteger (t.vreg r) v ∧ HoldsInteger (t.vreg sg) w
      ∧ CompletedWith none t ∧ VKeptExcept [r, sg] s t ∧ PKeptExcept [] s t
      ∧ t.flag = s.flag ∧ t.nonceValid = n.valid ∧ t.draws = n.draws ∧ ControlKept s t := by
  obtain ⟨k, -, hsig⟩ := signLoop_signedWith hsign
  obtain ⟨⟨-, hv⟩, -, hw⟩ := hsig.bounds
  refine ⟨(((s.setNonceSource n).setV r (VReg.ofNat v 0#256)).setV sg (VReg.ofNat w 0#256)).retire none, ?_, ?_, ?_,
    ⟨rfl, rfl, rfl, rfl⟩, ?_, fun _ _ => rfl, rfl, rfl, rfl, rfl, rfl, rfl, rfl, rfl, rfl, rfl, rfl⟩
  · simp [exec, execEsign, hsrc, State.signInto, hr, hsign, Except.map]
  · rw [vreg_retire, vreg_setV_ne _ _ hne, vreg_setV_same]
    exact VReg.ofNat_holdsInteger hv
  · rw [vreg_retire, vreg_setV_same]
    exact VReg.ofNat_holdsInteger hw
  · intro j hj
    simp only [List.mem_cons, List.not_mem_nil, or_false, not_or] at hj
    rw [vreg_retire, vreg_setV_ne _ _ hj.2, vreg_setV_ne _ _ hj.1, vreg_setNonceSource]

end

/-! ### VERIFY (R216) -/

theorem verify_of_not_inRange {q : Point} {z r sg : Nat} (h : ¬ (inScalarRange r = true ∧ inScalarRange sg = true)) :
    verify q z r sg = .ok false := if_pos h

section
variable {q : Point} {z r sg : Nat} (hr : inScalarRange r = true) (hs : inScalarRange sg = true)
include hr hs

theorem verify_of_foreign_curve (hc : q.curve ≠ secpCurve) : verify q z r sg = .error .curveMismatch := by
  rw [verify, if_neg (not_not_intro ⟨hr, hs⟩), if_pos hc]

/-- The comparison of step 6 once steps 2 to 4 have answered `u·G`, `v·Q` and their sum. -/
theorem verify_of_secp (hc : q.curve = secpCurve) {sinv : Nat} (hsinv : sinv = sg ^ (secpN - 2) % secpN) {A B C : Point}
    (hA : smul pointG (z * sinv % secpN) = .ok A) (hB : smul q (r * sinv % secpN) = .ok B) (hC : addPoints A B = .ok C) :
    verify q z r sg = .ok (if C.inf then false else C.x.toNat == r) := by
  rw [verify, if_neg (not_not_intro ⟨hr, hs⟩), if_neg (not_not_intro hc), powmod_eq, ← hsinv]
  simp only [hA, hB, hC, Except.bind, Except.map]

end

/-! ### What EVERIFY leaves (R215, R217) -/

section
variable {q : PIdx} {z r sg : VIdx} {s : State} (hsrc : s.operandError [.ps q, .vs z, .vs r, .vs sg] = none)
include hsrc

theorem everify_writes {b : Bool}
    (hver : verify (s.preg q).pt (s.vreg z).val.toNat (s.vreg r).val.toNat (s.vreg sg).val.toNat = .ok b) :
    ∃ t, exec (.everify q z r sg) s = .next t ∧ t.flag = b ∧ WroteOnlyFlag s t :=
  ⟨_, (run_of_checks hsrc _).trans (by rw [hver]; rfl), rfl, wroteOnlyFlag_setFlag s b⟩

theorem everify_raises {e : Err}
    (hver : verify (s.preg q).pt (s.vreg z).val.toNat (s.vreg r).val.toNat (s.vreg sg).val.toNat = .error e) :
    ∃ t, exec (.everify q z r sg) s = .next t ∧ RaisedOnly e s t :=
  ⟨_, (run_of_checks hsrc _).trans (by rw [hver]; rfl), raisedOnly_retire e s⟩

end

/-! ### The scalars of a signature modulo `N` (R213, R216) -/

theorem natCast_zmod_ne_zero {p k : Nat} (h0 : 1 ≤ k) (hk : k < p) : (k : ZMod p) ≠ 0 := by
  rw [Ne, ZMod.natCast_eq_zero_iff]
  exact Nat.not_dvd_of_pos_of_lt h0 hk

/-- The Fermat power of R213 and R216 is the inverse modulo a prime. -/
theorem cast_pow_sub_two_mod {p x : Nat} [hp : Fact p.Prime] (hx : (x : ZMod p) ≠ 0) :
    ((x ^ (p - 2) % p : Nat) : ZMod p) = (x : ZMod p)⁻¹ := by
  have h2 := hp.out.two_le
  rw [← cast_fermat hx, powField_eq, if_neg (by omega), Nat.mod_eq_of_lt (show p - 2 < p - 1 by omega)]

/-- `u + v·sec = (z + r·sec)·s⁻¹ = k` (R218). -/
theorem verify_scalar_modEq_nonce {p z r sec k sg sinv : Nat} [Fact p.Prime] (hk1 : 1 ≤ k) (hkp : k < p) (hs1 : 1 ≤ sg)
    (hsp : sg < p) (hsg : sg = (z + r * sec) * (k ^ (p - 2) % p) % p) (hsinv : sinv = sg ^ (p - 2) % p) :
    z * sinv % p + r * sinv % p * sec ≡ k [MOD p] := by
  have hk := natCast_zmod_ne_zero hk1 hkp
  have hs := natCast_zmod_ne_zero hs1 hsp
  have cs : (sg : ZMod p) * k = z + r * sec := by
    rw [hsg, ZMod.natCast_mod, Nat.cast_mul, cast_pow_sub_two_mod hk, inv_mul_cancel_right₀ hk]
    push_cast
    rfl
  rw [← ZMod.natCast_eq_natCast_iff]
  calc ((z * sinv % p + r * sinv % p * sec : Nat) : ZMod p)
      = (z + r * sec) * sinv := by
        push_cast [ZMod.natCast_mod]
        ring
    _ = k := by
        rw [← cs, hsinv, cast_pow_sub_two_mod hs, mul_comm, inv_mul_cancel_left₀ hs]

/-! ### The multiples of `G` in Mathlib's group (R191, R218) -/

theorem Represents.eq_zero {p : Nat} [Fact p.Prime] {a b : Nat} {q : Point} {Q : (weierstrass p a b).Point}
    (h : Represents a b q Q) (hi : q.inf = true) : Q = 0 := by
  obtain ⟨-, -, -, -, ⟨-, hQ⟩ | ⟨hfin, -⟩⟩ := h
  · exact hQ
  · cases hi.symm.trans hfin

/-- One run of the loop of R190: 256 doublings and the additions of the digits of `N`. -/
theorem smulLoop_secpN_pointG :
    smulLoop 256 secpN (identityOn 0#256 7#256 secpP) pointG = .ok (identityOn 0#256 7#256 secpP) := by decide +kernel

section
variable [hP : Fact secpP.toNat.Prime]

theorem exists_represents_pointG : ∃ G : (weierstrass secpP.toNat 0 7).Point, Represents 0 7 pointG G :=
  have : Fact pointG.p.toNat.Prime := hP
  exists_represents secpP_ne_two pointG_ok rfl (by decide)

theorem Represents.curve_eq_secp {q : Point} {Q : (weierstrass secpP.toNat 0 7).Point} (h : Represents 0 7 q Q) :
    q.curve = secpCurve := by
  obtain ⟨-, hp, ha, hb, -⟩ := h
  exact (curve_eq_iff q pointG).mpr ⟨BitVec.eq_of_toNat_eq ha, BitVec.eq_of_toNat_eq hb, BitVec.eq_of_toNat_eq hp⟩

theorem Represents.smul_of_secp {q : Point} {Q : (weierstrass secpP.toNat 0 7).Point} (h : Represents 0 7 q Q) (k : Nat) :
    ∃ R, smul q k = .ok R ∧ Represents 0 7 R ((k % secpN) • Q) := by
  rw [Machine.smul_of_secp h.curve_eq_secp, ← zero_add ((k % secpN) • Q)]
  exact Represents.smulLoop secpP_ne_two _ _ (lt_two_pow_bitLength _) h.identityOn h

variable {G : (weierstrass secpP.toNat 0 7).Point} (hG : Represents 0 7 pointG G)
include hG

/-- `N` is a multiple of the order of `G`: the loop of R190 on the scalar `N` answers the identity. -/
theorem secpN_nsmul_eq_zero : secpN • G = 0 := by
  obtain ⟨R, hR, hrep⟩ := Represents.smulLoop secpP_ne_two 256 secpN secpN_lt_two_pow hG.identityOn hG
  cases hR.symm.trans smulLoop_secpN_pointG
  rw [← zero_add (secpN • G)]
  exact hrep.eq_zero rfl

theorem nsmul_eq_of_modEq {k l : Nat} (h : k ≡ l [MOD secpN]) : k • G = l • G :=
  nsmul_eq_nsmul_iff_modEq.mpr (h.of_dvd (addOrderOf_dvd_of_nsmul_eq_zero (secpN_nsmul_eq_zero hG)))

theorem smul_pointG_represents (k : Nat) : ∃ R, smul pointG k = .ok R ∧ Represents 0 7 R (k • G) := by
  rw [← nsmul_eq_of_modEq hG (Nat.mod_modEq k secpN)]
  exact hG.smul_of_secp k

/-- `u·G + v·(sec·G) = k·G` when the scalars agree modulo `N`. -/
theorem addPoints_multiples_of_modEq {u v sec k : Nat} {Q R : Point} (hmod : u + v * sec ≡ k [MOD secpN])
    (hQ : smul pointG sec = .ok Q) (hR : smul pointG k = .ok R) :
    ∃ A B, smul pointG u = .ok A ∧ smul Q v = .ok B ∧ addPoints A B = .ok R := by
  obtain ⟨Q', hQ', hQrep⟩ := smul_pointG_represents hG sec
  obtain ⟨R', hR', hRrep⟩ := smul_pointG_represents hG k
  cases hQ.symm.trans hQ'
  cases hR.symm.trans hR'
  obtain ⟨A, hA, hArep⟩ := smul_pointG_represents hG u
  obtain ⟨B, hB, hBrep⟩ := hQrep.smul_of_secp v
  obtain ⟨C, hC, hCrep⟩ := hArep.add secpP_ne_two hBrep
  have hred : u + v % secpN * sec ≡ k [MOD secpN] := (((Nat.mod_modEq v secpN).mul_right sec).add_left u).trans hmod
  rw [smul_smul, ← add_nsmul, nsmul_eq_of_modEq hG hred] at hCrep
  exact ⟨A, B, hA, hB, hCrep.unique hRrep ▸ hC⟩

end

/-! ### The obligations -/

/-- Settles O55: SMUL of `G` always answers, since `P` is an odd prime. -/
theorem ekeyDerivesThePublicPoint : Obligations.EkeyDerivesThePublicPoint := by
  refine fun d sec s => ⟨pack_pField_vField 0x20#8 d sec 0 0 0, fun hv => ⟨fun h1 hN => ?_, fun hout => ?_⟩⟩
  · obtain ⟨R, hR, -⟩ := smul_pointG_answers (s.vreg sec).val.toNat
    obtain ⟨t, ht⟩ := run_putP_writes (operandError_vs hv) (d := d)
      ((publicPoint_of_inRange (inScalarRange_of_bounds h1 hN)).trans hR)
    exact ⟨R, t, hR, ht⟩
  · exact run_putP_raises (operandError_vs hv) (publicPoint_of_not_inRange (inScalarRange_eq_false hout))

/-- Settles O56: the outcome of SIGN in host mode is decided by its first nonce. -/
theorem esignWithAHostNonce : Obligations.EsignWithAHostNonce := by
  refine fun r sg sec z s hne => ⟨encode_esign r sg sec z, fun hsec hz hmode => ?_⟩
  have hsrc := operandError_vs_vs hsec hz
  refine ⟨fun h1 hN => ?_, fun hout => esign_invalidKey hsrc (inScalarRange_eq_false hout)⟩
  have hr := inScalarRange_of_bounds h1 hN
  refine ⟨fun hfull hk1 hkN => ?_, fun hfull hout => ?_, fun hempty => ?_⟩
  · have hk := inScalarRange_of_bounds hk1 hkN
    refine ⟨fun v w hsig => ?_, fun hdeg => ?_⟩
    · obtain ⟨t, ht, ⟨hv, hvm, hvv⟩, ⟨hw, hwm, hwv⟩, hframe⟩ :=
        esign_signs hsrc hr hne (hmode ▸ sign_host_signs (n := s.nonceSource) hfull hk hsig)
      exact ⟨t, ht, hv, hvm, hvv, hw, hwm, hwv, hframe⟩
    · exact esign_raises hsrc hr (hmode ▸ sign_host_degenerate (n := s.nonceSource) hfull hk hdeg)
  · exact esign_raises hsrc hr (hmode ▸ sign_host_out_of_range (n := s.nonceSource) hfull (inScalarRange_eq_false hout))
  · obtain ⟨t, ht, hcomp, hV, hP, hflag, hvalid, hdraws, hctl⟩ :=
      esign_raises (r := r) (sg := sg) hsrc hr (hmode ▸ sign_host_empty (n := s.nonceSource) hempty)
    exact ⟨t, ht, hcomp, hV, hP, hflag, ⟨hvalid, hdraws⟩, hctl⟩

/-- Settles O57: the first draw that is not degenerate signs. -/
theorem esignWithDrawnNonces : Obligations.EsignWithDrawnNonces := by
  refine ⟨fun n => (inScalarRange_iff _).mp (drawNonce_inRange n), fun r sg sec z s hne hsec hz hmode => ?_⟩
  have hsrc := operandError_vs_vs hsec hz
  refine ⟨fun hout => esign_invalidKey hsrc (inScalarRange_eq_false hout), fun h1 hN => ?_⟩
  have hr := inScalarRange_of_bounds h1 hN
  rcases signLoop_drawn (s.vreg sec).val.toNat (s.vreg z).val.toNat 16 s.nonceSource with
    ⟨j, v, w, ⟨hj, hall, hsig⟩, hloop⟩ | ⟨hall, hloop⟩
  · obtain ⟨t, ht, ⟨hv, hvm, hvv⟩, ⟨hw, hwm, hwv⟩, hcomp, hV, hP, hflag, hvalid, hdraws, hctl⟩ :=
      esign_signs hsrc hr hne (hmode ▸ hloop)
    exact ⟨t, ht, hP, hflag, hvalid, hctl, .inl ⟨j, v, w, hj, hall, hsig, hv, hvm, hvv, hw, hwm, hwv, hcomp, hV, hdraws⟩⟩
  · obtain ⟨t, ht, hcomp, hV, hP, hflag, hvalid, hdraws, hctl⟩ :=
      esign_raises (r := r) (sg := sg) hsrc hr (hmode ▸ hloop)
    exact ⟨t, ht, hP, hflag, hvalid, hctl, .inr ⟨hall, hcomp, hV, hdraws⟩⟩

/-- Settles O58: on SECP neither multiplication nor the sum raises. -/
theorem everifyChecksTheSignature : Obligations.EverifyChecksTheSignature := by
  refine fun q z r sg s => ⟨encode_everify q z r sg, fun hq hz hr hs => ?_⟩
  have hsrc := operandError_ps_vs_vs_vs hq hz hr hs
  refine ⟨fun hout => ?_, fun hr1 hrN hs1 hsN => ?_⟩
  · refine everify_writes hsrc (verify_of_not_inRange ?_)
    rw [inScalarRange_iff, inScalarRange_iff]
    omega
  · have hrin := inScalarRange_of_bounds hr1 hrN
    have hsin := inScalarRange_of_bounds hs1 hsN
    refine ⟨fun hc => everify_raises hsrc (verify_of_foreign_curve hrin hsin hc), ?_⟩
    intro hc hok sinv hsinv
    obtain ⟨A, hA, hAok, hAc⟩ := smul_pointG_answers ((s.vreg z).val.toNat * sinv % secpN)
    obtain ⟨B, hB, hBok, hBc⟩ := smul_answers_of_secp (hok hq) hc ((s.vreg r).val.toNat * sinv % secpN)
    obtain ⟨C, hC⟩ := addPoints_answers_of_secp hAok hBok hAc hBc
    obtain ⟨t, ht, hflag, hframe⟩ := everify_writes hsrc (verify_of_secp hrin hsin hc hsinv hA hB hC)
    refine ⟨A, B, C, t, hA, hB, hC, ht, ?_, hframe⟩
    rw [hflag]
    cases C.inf <;> simp

/-- Settles O59: `u·G + v·Q` is `k·G`, whose abscissa is `r`. -/
theorem signaturesVerify : Obligations.SignaturesVerify := by
  intro mode sec z n n' r sg Q _ _ hsign hQ
  have : Fact secpP.toNat.Prime := ⟨secpP_prime⟩
  have : Fact secpN.Prime := ⟨secpN_prime⟩
  obtain ⟨G, hG⟩ := exists_represents_pointG
  obtain ⟨k, hk, hsig⟩ := signLoop_signedWith hsign
  obtain ⟨hk1, hkN⟩ := (inScalarRange_iff k).mp hk
  obtain ⟨⟨hr1, hrN⟩, hs1, hsN⟩ := hsig.bounds
  obtain ⟨R, hR, rfl, -, -, hsg, -⟩ := hsig
  obtain ⟨sinv, hsinv⟩ : ∃ sinv, sinv = sg ^ (secpN - 2) % secpN := ⟨_, rfl⟩
  obtain ⟨A, B, hA, hB, hsum⟩ :=
    addPoints_multiples_of_modEq hG (verify_scalar_modEq_nonce hk1 hkN hs1 hsN hsg hsinv) hQ hR
  rw [verify_of_secp (inScalarRange_of_bounds hr1 hrN) (inScalarRange_of_bounds hs1 hsN) (smul_curve hQ) hsinv hA hB hsum,
    (smul_ok pointG_ok hR).finite_of_one_le_x hr1]
  simp

end Sys2Proof.Machine
end

section
/-! SUPPORT. The life of a command and its errors (60_exceptions.md R240 to R246): the codes the procedures can raise, what a
command that raises leaves, and the wait of a command in progress for its completion. -/

namespace Sys2Proof.Machine

/-! ### The codes the procedures raise (R242) -/

/-- The answer of a procedure that is not the reserved code INVALID_SCALAR (R242). -/
abbrev NeverReserved {α : Type} (r : Except Err α) : Prop := r ≠ .error .invalidScalar

theorem NeverReserved.map {α β : Type} {r : Except Err α} (h : NeverReserved r) (f : α → β) : NeverReserved (r.map f) := by
  cases r with
  | error e => exact fun he => h (congrArg _ (Except.error.inj he))
  | ok a => exact nofun

theorem NeverReserved.bind {α β : Type} {r : Except Err α} {f : α → Except Err β} (h : NeverReserved r)
    (hf : ∀ a, NeverReserved (f a)) : NeverReserved (r.bind f) := by
  cases r with
  | error e => exact fun he => h (congrArg _ (Except.error.inj he))
  | ok a => exact hf a

theorem fieldNew_neverReserved (v m : W256) : NeverReserved (fieldNew v m) := by
  unfold fieldNew
  split <;> exact nofun

theorem fieldBinary_neverReserved (op : Int → Int → Int) (x y : VReg) : NeverReserved (fieldBinary op x y) := by
  unfold fieldBinary
  split <;> exact nofun

theorem invField_neverReserved (x m : Nat) : NeverReserved (invField x m) := by
  unfold invField
  split <;> exact nofun

theorem fieldDiv_neverReserved (x y : VReg) : NeverReserved (fieldDiv x y) := by
  unfold fieldDiv
  split
  · exact (invField_neverReserved _ _).map _
  · exact nofun

theorem newIdentity_neverReserved (a b : VReg) : NeverReserved (newIdentity a b) := by
  unfold newIdentity
  split <;> exact nofun

theorem newPoint_neverReserved (x y a b : VReg) : NeverReserved (newPoint x y a b) := by
  unfold newPoint
  split
  · split <;> exact nofun
  · exact nofun

theorem addPoints_neverReserved (p q : Point) : NeverReserved (addPoints p q) := fun h => by
  simpa using addPoints_error h

theorem smul_neverReserved (q : Point) (k : Nat) : NeverReserved (smul q k) := fun h => by
  simpa using smul_error h

theorem publicPoint_neverReserved (sec : Nat) : NeverReserved (publicPoint sec) := by
  unfold publicPoint
  split
  · exact smul_neverReserved pointG sec
  · exact nofun

theorem verify_neverReserved (q : Point) (z r sg : Nat) : NeverReserved (verify q z r sg) := by
  unfold verify
  split
  · exact nofun
  · split
    · exact nofun
    · exact (smul_neverReserved pointG _).bind fun c1 => (smul_neverReserved q _).bind fun c2 =>
        (addPoints_neverReserved c1 c2).map _

theorem nextNonce_neverReserved (mode : Bool) (n : NonceSource) : NeverReserved (nextNonce mode n).2 := by
  rcases nextNonce_cases mode n with ⟨_, e⟩ | ⟨_, _, e⟩ | ⟨_, _, _, e⟩ | ⟨_, _, _, e⟩ <;> rw [e] <;> exact nofun

/-- An error of SIGN is one of NEXT_NONCE, or RETRY_EXHAUSTED: every attempt signs or discards its nonce (R213). -/
theorem signLoop_neverReserved (mode : Bool) (sec z fuel : Nat) (n : NonceSource) :
    NeverReserved (signLoop mode sec z fuel n).2 := by
  induction fuel generalizing n with
  | zero => exact nofun
  | succ fuel ih =>
    have hnonce := nextNonce_neverReserved mode n
    rcases hn : nextNonce mode n with ⟨n', e | k⟩
    · rw [hn] at hnonce
      rw [signLoop_nonce_error hn]
      exact fun he => hnonce (congrArg _ (Except.error.inj he))
    · rcases signedWith_or_degenerateNonce sec z k with ⟨r, sg, hsig⟩ | hdeg
      · rw [signLoop_signed hn (signAttempt_eq_some_iff.mpr hsig)]
        exact nofun
      · rw [signLoop_retry hn (signAttempt_eq_none_iff.mpr hdeg)]
        exact ih n'

/-! ### Commands that raise (R241) -/

/-- Every command but ESIGN is its work run through the operand checks and COMPLETE (R240, R244). -/
theorem exec_eq_run {i : Instr} (hi : i.op ≠ .esign) (s : State) :
    ∃ r, exec i s = s.run (sourcesOf i) r ∧ NeverReserved r := by
  cases i with
  | fnew d v m => exact ⟨_, rfl, (fieldNew_neverReserved _ _).map _⟩
  | fadd d a b => exact ⟨_, rfl, (fieldBinary_neverReserved _ _ _).map _⟩
  | fsub d a b => exact ⟨_, rfl, (fieldBinary_neverReserved _ _ _).map _⟩
  | fmul d a b => exact ⟨_, rfl, (fieldBinary_neverReserved _ _ _).map _⟩
  | fpow d a e => exact ⟨_, rfl, nofun⟩
  | finv d a => exact ⟨_, rfl, ((invField_neverReserved _ _).map _).map _⟩
  | fdiv d a b => exact ⟨_, rfl, (fieldDiv_neverReserved _ _).map _⟩
  | feq a b => exact ⟨_, rfl, nofun⟩
  | pinf d a b => exact ⟨_, rfl, (newIdentity_neverReserved _ _).map _⟩
  | pnew d x y a b => exact ⟨_, rfl, (newPoint_neverReserved _ _ _ _).map _⟩
  | padd d p q => exact ⟨_, rfl, (addPoints_neverReserved _ _).map _⟩
  | pneg d p => exact ⟨_, rfl, nofun⟩
  | peq p q => exact ⟨_, rfl, nofun⟩
  | pldg d => exact ⟨s.putP d (.ok pointG), rfl, nofun⟩
  | pmul d p k => exact ⟨_, rfl, (smul_neverReserved _ _).map _⟩
  | sred d a => exact ⟨_, rfl, nofun⟩
  | ekey d sec => exact ⟨_, rfl, (publicPoint_neverReserved _).map _⟩
  | esign r sg sec z => exact absurd rfl hi
  | everify q z r sg => exact ⟨_, rfl, (verify_neverReserved _ _ _ _).map _⟩

/-- A command raised: its code is not the reserved one, and all it changed beside the lifecycle bits is the nonce source,
which only ESIGN reads and which can only lose its nonce (R214, R241). -/
def Raised (i : Instr) (s t : State) : Prop :=
  ∃ (n : NonceSource) (e : Err), t = (s.setNonceSource n).retire (some e) ∧ e ≠ .invalidScalar
    ∧ (i.op ≠ .esign → n = s.nonceSource) ∧ (n.valid = true → s.nonceValid = true)

theorem raised_retire (i : Instr) (s : State) {e : Err} (he : e ≠ .invalidScalar) : Raised i s (s.retire (some e)) :=
  ⟨s.nonceSource, e, rfl, he, fun _ => rfl, id⟩

theorem operandCode_ne_invalidScalar {e : Err} (h : e = .uninitOperand ∨ e = .operandKind) : e ≠ .invalidScalar := by
  rcases h with rfl | rfl <;> exact nofun

theorem run_ok_or_raised {i : Instr} {s t : State} {srcs : List Src} {r : Except Err State} (hr : NeverReserved r)
    (h : s.run srcs r = .next t) : t.err = none ∨ Raised i s t := by
  rcases run_cases h with ⟨e, he, _, rfl⟩ | ⟨_, e, rfl, rfl⟩ | ⟨_, u, _, rfl⟩
  · exact .inr (raised_retire i s (operandCode_ne_invalidScalar he))
  · exact .inr (raised_retire i s fun he => hr (congrArg _ he))
  · exact .inl rfl

theorem esign_ok_or_raised {s t : State} {r sg sec z : VIdx} (h : execEsign r sg sec z s = .next t) :
    t.err = none ∨ Raised (.esign r sg sec z) s t := by
  rcases execEsign_cases h with ⟨e, he, _, rfl⟩ | ⟨_, rfl⟩ | ⟨_, n, e, hsign, rfl⟩ | ⟨_, n, v, w, _, rfl⟩
  · exact .inr (raised_retire _ s (operandCode_ne_invalidScalar he))
  · exact .inr (raised_retire _ s nofun)
  · have hcode := signLoop_neverReserved s.commandNmode (s.vreg sec).val.toNat (s.vreg z).val.toNat Config.signMaxAttempts
      s.nonceSource
    have hvalid := sign_valid s.commandNmode (s.vreg sec).val.toNat (s.vreg z).val.toNat s.nonceSource
    rw [← sign, hsign] at hcode
    rw [hsign] at hvalid
    exact .inr ⟨n, e, rfl, fun he => hcode (congrArg _ he), fun hi => absurd rfl hi, hvalid⟩
  · exact .inl rfl

/-- A command completes with OK or raises (R240, R241). -/
theorem exec_ok_or_raised {i : Instr} {s t : State} (h : exec i s = .next t) : t.err = none ∨ Raised i s t := by
  by_cases hi : i.op = .esign
  · cases i with
    | esign r sg sec z => exact esign_ok_or_raised h
    | _ => cases hi
  · obtain ⟨r, hrun, hr⟩ := exec_eq_run hi s
    exact run_ok_or_raised hr (hrun.symm.trans h)

theorem exec_err_ne_invalidScalar {i : Instr} {s t : State} (h : exec i s = .next t) : t.err ≠ some .invalidScalar := by
  rcases exec_ok_or_raised h with hok | ⟨n, e, rfl, he, -, -⟩
  · rw [hok]
    exact nofun
  · exact fun herr => he (Option.some.inj herr)

theorem completeLatched_err_ne_invalidScalar {l : Latch} {s t : State} (h : completeLatched l s = .next t) :
    t.err ≠ some .invalidScalar := by
  cases hd : decode l.word with
  | error e =>
    rw [completeLatched_error hd] at h
    cases h
    exact nofun
  | ok i => exact exec_err_ne_invalidScalar ((completeLatched_ok hd s).symm.trans h)

/-- A host input leaves ERR, or clears it: a reset and an acceptance do (R240, R281). -/
theorem serve_err (s : State) (op : HostOp) (rest : List HostOp) :
    (s.serve op rest).err = s.err ∨ (s.serve op rest).err = none := by
  obtain ⟨u, v, hsu, -, hvt, -, hcase⟩ := serve_cases s op rest
  rw [eq_of_sameCore hvt]
  have hu : u.err = s.err := by rw [eq_of_sameCore hsu]
  rcases hcase with rfl | rfl | ⟨d, rfl⟩ | ⟨d, rfl⟩ | ⟨d, _, rfl⟩ | rfl | ⟨j, d, _, rfl⟩ | ⟨i, j, d, _, rfl⟩
  case inr.inl => exact .inr rfl
  case inr.inr.inr.inr.inl => exact .inr rfl
  all_goals exact .inl hu

theorem serve_err_ne_invalidScalar {s : State} (hs : s.err ≠ some .invalidScalar) (op : HostOp) (rest : List HostOp) :
    (s.serve op rest).err ≠ some .invalidScalar := by
  rcases serve_err s op rest with h | h <;> rw [h]
  · exact hs
  · exact nofun

/-! ### irq (R245, R246) -/

theorem irq_retire (s : State) (e : Option Err) : (s.retire e).irq = s.ie := Bool.and_true s.ie

theorem exec_irq {i : Instr} {s t : State} (h : exec i s = .next t) : t.irq = s.ie := by
  cases exec_answer h with
  | raised | value | signature | point | flag => exact irq_retire _ _

theorem irq_writeStatus (s : State) (d : Word) : (s.writeStatus d).irq = (s.irq && !d.getLsbD 1) :=
  (Bool.and_assoc _ _ _).symm

theorem irq_busWrite_status (s : State) (d : Word) : (s.busWrite 0x008#12 4 d).irq = (s.irq && !d.getLsbD 1) := by
  rw [busWrite_word s locate_status (by decide)]
  exact irq_writeStatus s d

/-! ### Host inputs while a command is in progress (R240, R281) -/

/-- The host inputs that reset the core: the reset input, and a CTRL write with SRST = 1 (R280). -/
def HostOp.Resets (op : HostOp) : Prop := op = .hwReset ∨ ∃ d : Word, d.getLsbD 31 = true ∧ op = .write 0x004#12 4 d

/-- CTRL stands at one offset (R61). -/
theorem eq_of_locate_eq_ctrl {off : BitVec 12} (hal : off.toNat % 4 = 0) (h : locate off = .ctrl) : off = 0x004#12 := by
  revert off
  decide +kernel

theorem writeLoc_host (s : State) (l : Loc) (d : Word) : (s.writeLoc l d).host = s.host := by
  rcases writeLoc_cases s l d with e | ⟨_, _, e⟩ | ⟨_, _, e⟩ | ⟨_, e⟩ | ⟨_, _, e⟩ | ⟨_, _, e⟩ | ⟨_, _, _, e⟩
    | ⟨_, _, _, _, e⟩ <;> rw [e] <;> rfl

/-- A write other than a reset leaves a core in progress in progress. -/
theorem writeLoc_busy {s : State} (hb : s.busy = true) {l : Loc} {d : Word} (hd : l = .ctrl → d.getLsbD 31 = false) :
    (s.writeLoc l d).busy = true := by
  rcases writeLoc_cases s l d with e | ⟨hl, hsrst, e⟩ | ⟨_, _, e⟩ | ⟨_, e⟩ | ⟨_, hidle, e⟩ | ⟨_, _, e⟩ | ⟨_, _, hidle, e⟩
    | ⟨_, _, _, hidle, e⟩ <;> rw [e]
  case inr.inl => exact absurd ((hd hl).symm.trans hsrst) Bool.false_ne_true
  case inr.inr.inr.inr.inl => rfl
  all_goals exact hb

/-- A host input other than a reset leaves a core in progress in progress (R292). -/
theorem serve_busy {s : State} (hb : s.busy = true) {op : HostOp} (hop : ¬ op.Resets) (rest : List HostOp) :
    (s.serve op rest).busy = true := by
  cases op with
  | read off size => exact (busy_of_sameCore (sameCore_busRead { s with host := rest } off size)).trans hb
  | write off size d =>
    simp only [State.serve, State.busWrite]
    split
    case isFalse => exact hb
    case isTrue hlegal =>
      obtain ⟨rfl, hal⟩ : size = 4 ∧ off.toNat % 4 = 0 := by simpa [legalAccess] using hlegal
      refine writeLoc_busy (s := { s with host := rest }) hb fun hctrl => Bool.eq_false_iff.mpr fun hsrst => hop ?_
      exact .inr ⟨d, hsrst, by rw [eq_of_locate_eq_ctrl hal hctrl]⟩
  | wait => exact hb
  | hwReset => exact absurd (.inl rfl) hop

theorem busRead_host (s : State) (off : BitVec 12) (size : Nat) : (s.busRead off size).host = s.host := by
  unfold State.busRead
  split
  · rcases afterRead_cases s (locate off) with ⟨_, e⟩ | ⟨_, e⟩ <;> rw [e]
  · rfl

theorem busWrite_host (s : State) (off : BitVec 12) (size : Nat) (d : Word) : (s.busWrite off size d).host = s.host := by
  unfold State.busWrite
  split
  · exact writeLoc_host s _ d
  · rfl

/-- No host input adds one to the list. -/
theorem serve_host_subset (s : State) (op : HostOp) (rest : List HostOp) : (s.serve op rest).host ⊆ op :: rest := by
  cases op with
  | read off size => exact busRead_host { s with host := rest } off size ▸ List.subset_cons_self _ _
  | write off size d => exact busWrite_host { s with host := rest } off size d ▸ List.subset_cons_self _ _
  | wait =>
    show (if s.busy then HostOp.wait :: rest else rest) ⊆ _
    split
    · exact List.Subset.refl _
    · exact List.subset_cons_self _ _
  | hwReset => exact List.subset_cons_self _ _

/-- A host input that leaves a command in progress leaves its latency too. -/
theorem serve_delay {s : State} {l : Latch} (hl : s.latch = some l) {op : HostOp} {rest : List HostOp}
    (hb : (s.serve op rest).busy = true) : (s.serve op rest).delay = s.delay := by
  obtain ⟨u, v, hsu, hdelay, hvt, hdelay', hcase⟩ := serve_cases s op rest
  rw [busy_of_sameCore hvt] at hb
  rw [hdelay', ← hdelay]
  have hbusy : u.latch ≠ none := by
    rw [eq_of_sameCore hsu]
    simp [hl]
  rcases hcase with rfl | rfl | ⟨d, rfl⟩ | ⟨d, rfl⟩ | ⟨d, hidle, _⟩ | rfl | ⟨j, d, hidle, _⟩ | ⟨i, j, d, hidle, _⟩
  case inr.inl => cases hb
  case inr.inr.inr.inr.inl | inr.inr.inr.inr.inr.inr.inl | inr.inr.inr.inr.inr.inr.inr => exact absurd hidle hbusy
  all_goals rfl

/-! ### The wait for the completion (R240, R292) -/

theorem run_succ {s t : State} (h : step s = .next t) (k : Nat) : Host.Core.run core (k + 1) s = Host.Core.run core k t := by
  have hcore : core.step s = .next t := h
  simp only [Host.Core.run, hcore]

/-- A run is continued by one step more. -/
theorem run_succ_last {k : Nat} {s u t : State} (hrun : Host.Core.run core k s = .next u) (h : step u = .next t) :
    Host.Core.run core (k + 1) s = .next t := by
  induction k generalizing s with
  | zero =>
    cases hrun
    exact run_succ h 0
  | succ k ih =>
    cases hs : core.step s with
    | next v =>
      rw [run_succ hs] at hrun ⊢
      exact ih hrun
    | fault r => cases r
    | refused r =>
      simp only [Host.Core.run, hs] at hrun
      cases hrun

/-- After at most `delay` steps the latched command is due, or one of the pending inputs has reset the core. -/
theorem exists_run_due_or_reset (n : Nat) : ∀ {s : State} {l : Latch}, s.delay = n → s.latch = some l →
    ∃ k, k ≤ n ∧ ∃ u : State, Host.Core.run core k s = .next u
      ∧ ((u.latch = some l ∧ u.completionDue = true) ∨ (u.busy = false ∧ ∃ op ∈ s.host, op.Resets)) := by
  induction n with
  | zero =>
    intro s l hn hl
    exact ⟨0, le_rfl, s, rfl, .inl ⟨hl, by simp [State.completionDue, hn]⟩⟩
  | succ n ih =>
    intro s l hn hl
    rcases hh : s.host with _ | ⟨op, rest⟩
    · exact ⟨0, Nat.zero_le _, s, rfl, .inl ⟨hl, by simp [State.completionDue, hh]⟩⟩
    · have hstep : step s = .next (s.serveBusy op rest) := step_serveBusy hl hh (by omega)
      cases hb : (s.serveBusy op rest).busy with
      | false =>
        have hop : op.Resets := by
          by_contra hop
          have hs : ({ s with delay := s.delay - 1 } : State).busy = true := (busy_iff_latch s).mpr ⟨l, hl⟩
          exact Bool.false_ne_true (hb.symm.trans (serve_busy hs hop rest))
        exact ⟨1, by omega, _, run_succ hstep 0, .inr ⟨hb, op, List.mem_cons_self, hop⟩⟩
      | true =>
        have hdelay : (s.serveBusy op rest).delay = n :=
          (serve_delay (s := { s with delay := s.delay - 1 }) hl hb).trans (by simp [hn])
        obtain ⟨-, -, -, -, hlatch, -⟩ := serve_keeps_operands (s := { s with delay := s.delay - 1 }) hl hb
        obtain ⟨k, hk, u, hrun, hu⟩ := ih hdelay (hlatch.trans hl)
        refine ⟨k + 1, by omega, u, (run_succ hstep k).trans hrun, hu.imp_right fun ⟨hidle, o, ho, hreset⟩ => ?_⟩
        exact ⟨hidle, o, serve_host_subset _ op rest ho, hreset⟩

/-! ### The obligations -/

/-- Settles O12: each input served uses up one of `delay`, and when none is left the command is due. -/
theorem everyAcceptedCommandCompletes : Obligations.EveryAcceptedCommandCompletes := by
  refine ⟨fun s l hl hhw hsrst => ?_, fun s hb => ?_⟩
  · obtain ⟨k, hk, u, hrun, ⟨hlu, hdue⟩ | ⟨-, op, hop, rfl | ⟨d, hd, rfl⟩⟩⟩ := exists_run_due_or_reset s.delay rfl hl
    · obtain ⟨t, ht, hdone⟩ := completeLatched_completes l u
      have hstep := step_complete hlu hdue
      exact ⟨k, hk, u, t, hrun, hlu, hstep, hstep.trans ht, hdone⟩
    · exact absurd hop hhw
    · exact absurd hop (hsrst d hd)
  · obtain ⟨l, hl⟩ := (busy_iff_latch s).mp hb
    obtain ⟨k, hk, u, hrun, ⟨hlu, hdue⟩ | ⟨hidle, -⟩⟩ := exists_run_due_or_reset s.delay rfl hl
    · obtain ⟨t, ht, hidle, -⟩ := completeLatched_completes l u
      exact ⟨k + 1, by omega, t, run_succ_last hrun ((step_complete hlu hdue).trans ht), hidle⟩
    · exact ⟨k, by omega, u, hrun, hidle⟩

/-- Settles O13: BUSY is 0 when no command is latched. -/
theorem everyCommandAnswersANextState : Obligations.EveryCommandAnswersANextState := by
  intro i s
  obtain ⟨t, ht, hlatch, hdone⟩ := exec_completes i s
  exact ⟨t, ht, by simp [State.busy, hlatch], hdone⟩

/-- Settles O28: a completion writes another code, and a host input leaves ERR or clears it. -/
theorem reservedErrorCodeNeverWritten : Obligations.ReservedErrorCodeNeverWritten := by
  intro s t h hs
  rcases step_cases h with ⟨l, _, _, hc⟩ | ⟨_, op, rest, _, _, _, rfl⟩ | ⟨op, rest, _, _, rfl⟩ | ⟨_, _, rfl⟩
  · exact completeLatched_err_ne_invalidScalar hc
  · exact serve_err_ne_invalidScalar (s := { s with delay := s.delay - 1 }) hs op rest
  · exact serve_err_ne_invalidScalar hs op rest
  · exact hs

/-- Settles O31: what a command that raises leaves differs from what it found in the lifecycle bits and the nonce source. -/
theorem errorsArePrecise : Obligations.ErrorsArePrecise := by
  intro i s t h herr
  obtain ⟨n, e, rfl, -, hn, hvalid⟩ := (exec_ok_or_raised h).resolve_left herr
  refine ⟨rfl, rfl, rfl, ⟨rfl, rfl, rfl, rfl, rfl, rfl, rfl, rfl⟩, fun hi => ?_, hvalid⟩
  rw [hn hi]
  exact ⟨rfl, rfl⟩

/-- Settles O25, from irq as the conjunction of IE and DONE. -/
theorem interruptFollowsEnableAndDone : Obligations.InterruptFollowsEnableAndDone := by
  refine ⟨fun _ _ _ => exec_irq, fun s d hd => ?_, fun s d hd => ?_, fun s d hd => ?_, fun s w hb => ?_⟩
  · rw [irq_busWrite_status, hd, Bool.not_true, Bool.and_false]
  · rw [irq_busWrite_status, hd, Bool.not_false, Bool.and_true]
  · rw [busWrite_ctrl hd]
    rfl
  · rw [busWrite_cmd_idle hb]
    exact Bool.and_false s.ie

end Sys2Proof.Machine
end

section
/-! SUPPORT. The two reset sources and what the host sees after them (70_reset_and_hazards.md R280, R281). -/

namespace Sys2Proof.Machine

/-- A CTRL write with SRST = 1 resets the core, busy or not, and its other bits count for nothing (R30, R280(b)). -/
theorem busWrite_ctrl_srst {d : Word} (hd : d.getLsbD 31 = true) (s : State) :
    s.busWrite 0x004#12 4 d = { s.resetCore with resp := some .done } := by
  rw [busWrite_word s locate_ctrl (by decide), State.writeLoc, State.writeCtrl, hd]
  rfl

/-- RESET leaves nothing of what the core held (R281). -/
theorem sameCore_resetCore (s : State) : SameCore State.reset s.resetCore := sameCore_refl _

/-- A core in its reset state reads 0 in its control registers, raises no interrupt and holds no value (R39). -/
theorem reads_of_sameCore_reset {t : State} (h : SameCore State.reset t) :
    t.ctrlWord = 0#32 ∧ t.statusWord = 0#32 ∧ t.lastCmd = 0#32 ∧ t.nonce = 0#256 ∧ t.irq = false
      ∧ (∀ i, (t.vreg i).valid = false) ∧ ∀ j, (t.preg j).valid = false := by
  have hctrl : t.ctrlWord = 0#32 := (locValue_of_sameCore h .ctrl).trans (by decide)
  have hstatus : t.statusWord = 0#32 := (locValue_of_sameCore h .status).trans (by decide)
  refine ⟨hctrl, hstatus, ?_⟩
  rw [eq_of_sameCore h]
  exact ⟨rfl, rfl, rfl, fun i => congrArg VReg.valid (vreg_reset i), fun j => congrArg PReg.valid (preg_reset j)⟩

/-! ### The obligation -/

/-- Settles O15: both reset sources are RESET of R281, which keeps only the model's own fields. -/
theorem resetFromAnyState : Obligations.ResetFromAnyState := by
  refine fun s d rest => ⟨fun hd => ?_, sameCore_resetCore { s with host := rest }, fun t => reads_of_sameCore_reset⟩
  rw [busWrite_ctrl_srst hd]
  exact sameCore_resetCore s

end Sys2Proof.Machine
end
